-- ==== Sys2Proof/Word.lean ====
section
/-!
DEFINITION. Word.lean: the plain values of the NL426: bytes, tick counts, tags, and the numbers that name ports,
slots and Request Table entries. Chapters 1, 2, 5 and 10 of spec/.
-/

namespace Sys2Proof

/-- One byte of a frame or of the array. -/
abbrev Byte := BitVec 8

/-- A value of the tick counter. Sums of ticks are taken modulo 2^32 (00_scope.md, Conventions; R85). -/
abbrev Tick := BitVec 32

/-- A tag, 0 to 255, chosen by the host (R27, R115). -/
abbrev Tag := Byte

/-- A host port, P0 to P3. -/
abbrev Port := Fin 4

/-- A slot of the Lease Table, 0 to 63 (R1). -/
abbrev Slot := Fin 64

/-- A slot's generation, 0 to 1023; its sums wrap modulo 1024 (R4). -/
abbrev Generation := Fin 1024

/-- A position of the Request Table, 0 to 31 (R27). -/
abbrev EntryIndex := Fin 32

end Sys2Proof
end

