-- ==== Sys2Proof/Syntax.lean ====
section
/-!
DEFINITION. Syntax.lean: the commands of the NL426, one constructor per row of spec/opcode_table.json.

A request row carries the port that pushed the frame, the frame's tag and the bytes of its body, whatever they are: a body
of the wrong length is a frame the part answers (R156, R160). A row about other pushed bytes carries those bytes. A row about
a transaction carries how many whole bytes were shifted in it (R152). A row about a deadline names the record or entry
that armed it (R88).
-/

namespace Sys2Proof

/-- The request kinds (R156). -/
inductive Kind where
  | join | leave | start | set | getConfig | time | sync
  | acquire | upgrade | downgrade | renew | release | cancel | query
  | read | write
  | takeNotices | ackRevoked
deriving DecidableEq, Repr

/-- The commands and events of the part. -/
inductive Instr where
  /-- JOIN (R116): a JOIN frame is pushed at the port. -/
  | join (p : Port) (tag : Tag) (body : List Byte)
  /-- LEAVE (R118). -/
  | leave (p : Port) (tag : Tag) (body : List Byte)
  /-- START (R149). -/
  | start (p : Port) (tag : Tag) (body : List Byte)
  /-- SET (R146). -/
  | set (p : Port) (tag : Tag) (body : List Byte)
  /-- GET_CONFIG (R148). -/
  | getConfig (p : Port) (tag : Tag) (body : List Byte)
  /-- TIME (R92). -/
  | time (p : Port) (tag : Tag) (body : List Byte)
  /-- SYNC (R133). -/
  | sync (p : Port) (tag : Tag) (body : List Byte)
  /-- ACQUIRE (R23). -/
  | acquire (p : Port) (tag : Tag) (body : List Byte)
  /-- UPGRADE (R53). -/
  | upgrade (p : Port) (tag : Tag) (body : List Byte)
  /-- DOWNGRADE (R57). -/
  | downgrade (p : Port) (tag : Tag) (body : List Byte)
  /-- RENEW (R48). -/
  | renew (p : Port) (tag : Tag) (body : List Byte)
  /-- RELEASE (R60). -/
  | release (p : Port) (tag : Tag) (body : List Byte)
  /-- CANCEL (R43). -/
  | cancel (p : Port) (tag : Tag) (body : List Byte)
  /-- QUERY (R18). -/
  | query (p : Port) (tag : Tag) (body : List Byte)
  /-- READ (R97). -/
  | read (p : Port) (tag : Tag) (body : List Byte)
  /-- WRITE (R99). -/
  | write (p : Port) (tag : Tag) (body : List Byte)
  /-- TAKE_NOTICES (R137). -/
  | takeNotices (p : Port) (tag : Tag) (body : List Byte)
  /-- ACK_REVOKED (R74). -/
  | ackRevoked (p : Port) (tag : Tag) (body : List Byte)
  /-- BAD_FRAME (R155): a PUSH ends whose frame is these bytes. -/
  | badFrame (p : Port) (frame : List Byte)
  /-- BAD_KIND (R156): a PUSH ends whose intact frame has this kind byte, tag and body. -/
  | badKind (p : Port) (kind : Byte) (tag : Tag) (body : List Byte)
  /-- PUSH_DISCARDED (R131): a PUSH ends whose frame is these bytes. -/
  | pushDiscarded (p : Port) (frame : List Byte)
  /-- PUSH_IN_CLEARING (R141): a PUSH ends whose frame is these bytes. -/
  | pushInClearing (p : Port) (frame : List Byte)
  /-- PUSH_NO_FRAME (R154): a PUSH ends with these whole bytes after its type byte. -/
  | pushNoFrame (p : Port) (rest : List Byte)
  /-- PULL (R127): a PULL ends in which this many whole bytes were shifted, the type byte counted. -/
  | pull (p : Port) (shifted : Nat)
  /-- STATUS (R153): a STATUS transaction ends in which this many whole bytes were shifted. -/
  | status (p : Port) (shifted : Nat)
  /-- OTHER_TRANSACTION (R152): a transaction ends in which the host shifted these whole bytes. -/
  | otherTransaction (p : Port) (shifted : List Byte)
  /-- PRESENT_RISES (R110). -/
  | presentRises (p : Port)
  /-- PRESENT_FALLS (R110). -/
  | presentFalls (p : Port)
  /-- POWER_ON (R141). -/
  | powerOn
  /-- CLEARING_END (R142). -/
  | clearingEnd
  /-- RESET_ASSERTED (R143): RESET# has been low for this many consecutive REFCLK periods. -/
  | resetAsserted (lowPeriods : Nat)
  /-- RESET_DEASSERTED (R143). -/
  | resetDeasserted
  /-- TICK_EVENT (R81). -/
  | tickEvent
  /-- LEASE_DEADLINE (R70) of a slot's record. -/
  | leaseDeadline (slot : Slot)
  /-- WARNING_TICK (R50) of a slot's record. -/
  | warningTick (slot : Slot)
  /-- RECALL_DEADLINE (R71) of a slot's record. -/
  | recallDeadline (slot : Slot)
  /-- WAIT_DEADLINE (R45) of a Request Table entry. -/
  | waitDeadline (index : EntryIndex)
  /-- CS_FALLS (R152) on a port. -/
  | csFalls (p : Port)
deriving DecidableEq, Repr

end Sys2Proof
end

