-- ==== Sys2Proof/Decode.lean ====
section
/-!
DEFINITION. Decode.lean: the request frame as bytes (R154 to R160): byte order, the CRC, the integrity check, the kind codes,
and the encoder of an intact frame. Also `decodeTableWord`: no row of spec/opcode_table.json gives bits, so no word spells
a command.
-/

namespace Sys2Proof

/-! ### Byte order (R159) -/

/-- The number carried by bytes, least significant byte first (R159). -/
def leValue : List Byte → Nat
  | [] => 0
  | b :: bs => b.toNat + 256 * leValue bs

/-- The `k` low bytes of a number, least significant byte first (R159). -/
def leBytes : Nat → Nat → List Byte
  | 0, _ => []
  | k + 1, n => BitVec.ofNat 8 n :: leBytes k (n / 256)

/-! ### The CRC (R158) -/

/-- One bit step of the CRC: generator x^16 + x^12 + x^5 + 1, most significant bit first. -/
def crcBit (c : BitVec 16) : BitVec 16 :=
  if c.msb then (c <<< 1) ^^^ 0x1021#16 else c <<< 1

/-- The CRC after one more byte, taken most significant bit first. -/
def crcByte (c : BitVec 16) (b : Byte) : BitVec 16 :=
  let c := c ^^^ (b.setWidth 16 <<< 8)
  crcBit (crcBit (crcBit (crcBit (crcBit (crcBit (crcBit (crcBit c)))))))

/-- The CRC of a run of bytes: start 0xFFFF, no reflection, no final exclusive-or (R158). -/
def crc16 (bs : List Byte) : BitVec 16 := bs.foldl crcByte 0xFFFF#16

/-- The CRC field as sent: high byte first (R158). -/
def crcField (bs : List Byte) : List Byte :=
  let c := crc16 bs
  [(c >>> 8).setWidth 8, c.setWidth 8]

/-! ### Kinds (R156) -/

/-- The code of a request kind (R156). -/
def kindCode : Kind → Byte
  | .join => 0x01#8
  | .leave => 0x02#8
  | .start => 0x03#8
  | .set => 0x04#8
  | .getConfig => 0x05#8
  | .time => 0x06#8
  | .sync => 0x07#8
  | .acquire => 0x10#8
  | .upgrade => 0x11#8
  | .downgrade => 0x12#8
  | .renew => 0x13#8
  | .release => 0x14#8
  | .cancel => 0x15#8
  | .query => 0x16#8
  | .read => 0x20#8
  | .write => 0x21#8
  | .takeNotices => 0x30#8
  | .ackRevoked => 0x31#8

/-- The kinds of the part, in the order of R156's table. -/
def allKinds : List Kind :=
  [.join, .leave, .start, .set, .getConfig, .time, .sync, .acquire, .upgrade, .downgrade, .renew, .release, .cancel,
   .query, .read, .write, .takeNotices, .ackRevoked]

/-- The kind a kind byte names, if it is one of the codes (R156). -/
def kindOfCode (b : Byte) : Option Kind := allKinds.find? fun k => kindCode k == b

/-! ### The request frame (R154, R155) -/

/-- The greatest body length a request frame may carry (R155). -/
def maxBody : Nat := 272

/-- The body length that a frame carries in its bytes 2 and 3 (R155). -/
def frameLength (f : List Byte) : Nat := leValue ((f.drop 2).take 2)

/-- The integrity check of a taken frame (R155): at least six bytes, a body length of at most 272 that accounts for every
byte, and the right CRC in the last two. -/
def frameIntact (f : List Byte) : Bool :=
  decide (6 ≤ f.length) && decide (frameLength f ≤ maxBody) && decide (f.length = 4 + frameLength f + 2)
    && (f.drop (4 + frameLength f) == crcField (f.take (4 + frameLength f)))

/-- Frame byte 0, the kind byte; 0 for no byte at all. -/
def frameKind (f : List Byte) : Byte := f.getD 0 0#8

/-- Frame byte 1, the tag; 0 where fewer than two bytes arrived (R155). -/
def frameTag (f : List Byte) : Tag := f.getD 1 0#8

/-- The body of a frame (R155). -/
def frameBody (f : List Byte) : List Byte := (f.drop 4).take (frameLength f)

/-- The encoder: a request frame as a host builds it, with its length and CRC (R155, R158). -/
def requestFrame (kind : Byte) (tag : Tag) (body : List Byte) : List Byte :=
  let head := kind :: tag :: leBytes 2 body.length ++ body
  head ++ crcField head

/-! ### The table's words -/

/-- No row of spec/opcode_table.json gives bits: no word spells a command. -/
def decodeTableWord (_nbits _w : Nat) : Option Instr := none

end Sys2Proof
end

