-- ==== Sys2Proof/Config.lean ====
section
/-!
DEFINITION. Config.lean: what is fixed in the part, and the one value the spec leaves free.
-/

namespace Sys2Proof.Config

/-- The part identity, 0x4E426A (R151). -/
def partIdentity : Nat := 0x4E426A

/-- The part revision (R151). -/
def partRevision : Nat := 1

/-- The bytes of the array (R94). -/
def arrayBytes : Nat := 262144

/-- The bytes of one block (R94). -/
def blockBytes : Nat := 512

/-- REFCLK periods of power-on clearing (R105, R142). -/
def clearingPeriods : Nat := 16384

/-- REFCLK periods for which RESET# must be low before the part takes it as asserted (R143). -/
def resetLowPeriods : Nat := 50

/-- Places of a port's response queue, and so its credits when nothing is queued or waiting (R125, R129). -/
def queuePlaces : Nat := 16

/-- Entries of the Request Table (R27). -/
def tableEntries : Nat := 32

/-- The greatest grant number (R16, R17). -/
def maxGrant : Nat := 4294967295

/-- FREE VALUE, without a body: which of several deadlines reached at one tick is taken first. R89 says that either of any
two may be taken first and gives no rule for the choice. The argument is State's counter `choices`. -/
opaque deadlineChoice : Nat → Nat

end Sys2Proof.Config
end

