-- ==== Sys2Proof/Machine/State.lean ====
section
/-!
DEFINITION. Machine/State.lean: every piece of state the spec gives the NL426, as plain data, the queue of waiting commands,
the reasons a step can stop, and the state right after power-on (R141).
-/

namespace Sys2Proof.Machine

/-! ### Leases (chapter 1) -/

/-- Lease modes. -/
inductive Mode where
  | shared | exclusive
deriving DecidableEq, Repr

/-- A span: a first block and a block count (R10). -/
structure Span where
  first : Nat
  count : Nat
deriving DecidableEq, Repr

/-- A span with the mode it is wanted or held in. -/
structure ModeSpan where
  mode : Mode
  span : Span
deriving DecidableEq, Repr

/-- A handle: slot and generation (R3). -/
structure Handle where
  slot : Slot
  generation : Generation
deriving DecidableEq, Repr

/-- Why a lease was revoked (R1). -/
inductive Cause where
  | expired | recallTimeout | fenced
deriving DecidableEq, Repr

/-- The fields that a record holds in every state but FREE (R1). -/
structure Tenure where
  port : Port
  mode : Mode
  span : Span
  grant : Nat
deriving DecidableEq, Repr

/-- The state of a lease record with the fields R1 gives it in that state. -/
inductive LeaseState where
  | free
  | granted (t : Tenure) (deadline : Tick) (warning : Option Tick) (upgrade : Option Tag)
  | recalling (t : Tenure) (deadline : Tick) (warning : Option Tick) (recallAt : Tick)
  | revoked (t : Tenure) (cause : Cause) (revokedAt : Tick)
deriving DecidableEq, Repr

/-- A lease record: its slot is its place in the table; the generation is kept in every state (R4). -/
structure LeaseRecord where
  generation : Generation
  state : LeaseState
deriving DecidableEq, Repr

/-! ### The Request Table (chapter 2) -/

/-- Where an entry's place in the Request Table came from (R28). -/
inductive Source where
  | reserved | sharedPool
deriving DecidableEq, Repr

/-- What a waiting entry asks for (R27): the spans and clamped term of an ACQUIRE, or the handle and span of an UPGRADE. -/
inductive Claim where
  | acquire (spans : List ModeSpan) (term : Nat)
  | upgrade (handle : Handle) (span : Span)
deriving DecidableEq, Repr

/-- A Request Table entry in use (R27). -/
structure Entry where
  index : EntryIndex
  port : Port
  tag : Tag
  claim : Claim
  waitDeadline : Tick
  source : Source
deriving DecidableEq, Repr

/-! ### Setup Control (chapter 9) -/

/-- The device phases (R140). -/
inductive Phase where
  | clearing | setup | run
deriving DecidableEq, Repr

/-- The configuration parameters (R144). -/
structure Params where
  tickPeriod : Fin 5
  maxTerm : Nat
  maxWait : Nat
  recallWindow : Nat
  warnMargin : Nat
  fenceStrikes : Nat
  leaseQuota : Vector Nat 4
  reservedEntries : Vector Nat 4
deriving DecidableEq, Repr

/-- The parameters after either reset (R144). -/
def Params.reset : Params where
  tickPeriod := 2
  maxTerm := 80000
  maxWait := 80000
  recallWindow := 800
  warnMargin := 0
  fenceStrikes := 3
  leaseQuota := Vector.replicate 4 16
  reservedEntries := Vector.replicate 4 4

/-! ### Responses and notices (chapter 8) -/

/-- The result codes (R156). -/
inductive Result where
  | ok | conflict | waitExpired | cancelled | recalled | revoked | badHandle | selfOverlap | quota | tableBusy | range
  | mode | notFound | tagInUse | notJoined | notRunning | notSetup | fenced | exhausted | badValue | badFrame | badKind
  | state
deriving DecidableEq, Repr

/-- A notice's kind, with the cause that a REVOKED notice alone carries (R134). -/
inductive NoticeKind where
  | recallBegun | expiring | revoked (cause : Cause)
deriving DecidableEq, Repr

/-- A notice (R134). -/
structure Notice where
  handle : Handle
  kind : NoticeKind
  span : Span
  tick : Tick
deriving DecidableEq, Repr

/-- A grant record (R24). -/
structure GrantRecord where
  handle : Handle
  grant : Nat
  deadline : Tick
  stamp : Nat
deriving DecidableEq, Repr

/-- The body of a response, by what it reports (R161). -/
inductive Body where
  | empty
  | joined (port : Port) (phase : Phase) (tick : Tick)
  | count (tick : Tick)
  | param (id port : Byte) (value : Nat)
  | config (phase : Phase) (params : Params)
  | tags (ts : List Tag)
  | grants (gs : List GrantRecord)
  | upgraded (g : GrantRecord)
  | renewed (handle : Handle) (deadline : Tick)
  | view (handle : Handle) (record : LeaseState) (stamp : Nat)
  | data (stamp : Nat) (bytes : List Byte)
  | notices (ns : List Notice)
deriving DecidableEq, Repr

/-- A response (R126). -/
structure Response where
  kind : Byte
  tag : Tag
  result : Result
  body : Body
deriving DecidableEq, Repr

/-! ### Host Ports (chapter 7, chapter 10) -/

/-- The port states (R109). -/
inductive PortState where
  | absent | detached | joined | fenced
deriving DecidableEq, Repr

/-- The transaction in progress on a port (R111, R152): none, one that the port answers, with what was fixed at its fall, or
one that the part ignores until its rise. -/
inductive Transaction where
  | none
  | running (status0 status1 : Byte) (head : Option Response)
  | ignored
deriving DecidableEq, Repr

/-- A Host Port. `present` is the level of its PRESENT input, `fenceLine` whether FENCE# is asserted, `sdo` the whole bytes
that the part shifted in the last transaction it settled. -/
structure HostPort where
  present : Bool
  state : PortState
  queue : List Response
  notices : List Notice
  overrun : Bool
  strikes : Nat
  fenceLine : Bool
  transaction : Transaction
  sdo : List Byte
deriving DecidableEq, Repr

/-- The array: the bytes that are not 0, by address, addresses strictly rising (R94, R105). -/
abbrev Memory := List Host.Cell

/-! ### The machine -/

/-- The NL426. -/
structure State where
  /-- The four Host Ports. -/
  ports : Vector HostPort 4
  /-- The Lease Table's 64 records (R1). -/
  leases : Vector LeaseRecord 64
  /-- The device grant counter (R16). -/
  grantCounter : Nat
  /-- The Request Table's entries in use, in the order of their admission: the waiting list (R27, R30). -/
  waiting : List Entry
  /-- The prescaler (R81). -/
  prescaler : Nat
  /-- The tick counter (R81). -/
  tick : Tick
  /-- The array (R94). -/
  array : Memory
  /-- The Block Stamp Table (R102). -/
  stamps : Vector Nat 512
  /-- The device phase (R140). -/
  phase : Phase
  /-- RESET# is taken as asserted (R143). -/
  resetAsserted : Bool
  /-- The REFCLK periods that power-on clearing has counted, 16,384 once it has ended (R105, R142). -/
  clearCount : Nat
  /-- The configuration parameters (R144). -/
  params : Params
  /-- THE MODEL'S OWN: how many free choices of order have been made (log entry 2). -/
  choices : Nat
  /-- THE MODEL'S OWN: the commands that wait, first in, first out. -/
  pending : List Instr
deriving DecidableEq, Repr

/-- No command of this part stops it with a fault: a request the part does not carry out is answered by a response frame, and
an event that cannot take place has no effect. -/
inductive Fault where
deriving DecidableEq, Repr

/-- Why a command has no meaning. -/
inductive Refusal where
  /-- Raised by an arm of `exec` whose command has no meaning yet; no arm does. Safe: nothing is claimed of the command. -/
  | notModelled (mnemonic : String)
deriving DecidableEq, Repr

/-! ### The state after power-on -/

/-- A record after a reset: FREE, generation 0 (R20). -/
def LeaseRecord.reset : LeaseRecord := { generation := 0, state := .free }

/-- A Host Port after a reset, by the level of its PRESENT (R124). -/
def HostPort.reset (present : Bool) : HostPort where
  present := present
  state := if present then .detached else .absent
  queue := []
  notices := []
  overrun := false
  strikes := 0
  fenceLine := false
  transaction := .none
  sdo := []

/-- The machine as power comes up with no host fitted (R141): in CLEARING, every table empty. The four PRESENT inputs are low
(log entry 3); `choices` starts at 0 (log entry 2). -/
def State.reset : State where
  ports := Vector.replicate 4 (HostPort.reset false)
  leases := Vector.replicate 64 LeaseRecord.reset
  grantCounter := 0
  waiting := []
  prescaler := 0
  tick := 0
  array := []
  stamps := Vector.replicate 512 0
  phase := .clearing
  resetAsserted := false
  clearCount := 0
  params := Params.reset
  choices := 0
  pending := []

end Sys2Proof.Machine
end

