-- ==== Sys2Proof/Machine/Memory.lean ====
section
/-!
DEFINITION. Machine/Memory.lean: the shared array and the Block Stamp Table (chapter 6). The array is a list of (address, byte)
pairs with addresses strictly rising and no byte 0: an address that is not listed reads 0, as every byte does after
power-on clearing (R105).
-/

namespace Sys2Proof.Machine

/-- What an address that is not listed reads as (R105). -/
def unlistedByte : Byte := 0#8

/-- The byte at an address. -/
def readByte : Memory → Nat → Byte
  | [], _ => unlistedByte
  | (b, v) :: rest, a => if b = a then v else readByte rest a

/-- The array with one byte changed, in canonical form. -/
def writeByte : Memory → Nat → Byte → Memory
  | [], a, v => if v = unlistedByte then [] else [(a, v)]
  | (b, w) :: rest, a, v =>
    if a < b then (if v = unlistedByte then (b, w) :: rest else (a, v) :: (b, w) :: rest)
    else if a = b then (if v = unlistedByte then rest else (a, v) :: rest)
    else (b, w) :: writeByte rest a v

/-- The array with a run of bytes changed, the first at the address given (R99). -/
def writeBytes (m : Memory) (a : Nat) : List Byte → Memory
  | [] => m
  | v :: vs => writeBytes (writeByte m a v) (a + 1) vs

/-- A run of `n` bytes in address order (R97). -/
def readBytes (m : Memory) (a n : Nat) : List Byte := (List.range n).map fun k => readByte m (a + k)

/-- The canonical form: addresses strictly rising, every listed byte other than what an unlisted address reads as. -/
def memoryWf : Memory → Bool
  | [] => true
  | [(_, v)] => v != unlistedByte
  | (a, v) :: (b, w) :: rest => v != unlistedByte && decide (a < b) && memoryWf ((b, w) :: rest)

/-- The block in which an address lies (R94). -/
def blockOf (a : Nat) : Nat := a / Config.blockBytes

/-- The blocks that an access of `n` bytes at `a` touches, ascending (R94); none for no bytes. -/
def touchedBlocks (a n : Nat) : List Nat :=
  if n = 0 then [] else (List.range (blockOf (a + n - 1) + 1 - blockOf a)).map (blockOf a + ·)

/-- Whether every byte of [a, a + n) lies in a block of the span (R95). -/
def withinSpan (sp : Span) (a n : Nat) : Bool :=
  decide (sp.first * Config.blockBytes ≤ a) && decide (a + n ≤ (sp.first + sp.count) * Config.blockBytes)

/-- A block's stamp; 0 beyond the table, where there is no block. -/
def stampAt (stamps : Vector Nat 512) (b : Nat) : Nat := stamps[b]?.getD 0

/-- The largest stamp over some blocks; 0 for none (R97, R103). -/
def largestStamp (stamps : Vector Nat 512) (blocks : List Nat) : Nat :=
  blocks.foldl (fun m b => max m (stampAt stamps b)) 0

/-- The blocks of a span (R10). -/
def spanBlocks (sp : Span) : List Nat := (List.range sp.count).map (sp.first + ·)

/-- The span stamp (R103). -/
def spanStampOf (stamps : Vector Nat 512) (sp : Span) : Nat := largestStamp stamps (spanBlocks sp)

/-- Some blocks stamped with one grant number (R99). -/
def stampBlocks (stamps : Vector Nat 512) (g : Nat) (blocks : List Nat) : Vector Nat 512 :=
  blocks.foldl (fun st b => st.setIfInBounds b g) stamps

end Sys2Proof.Machine
end

