-- ==== Sys2Proof/Machine/Ops.lean ====
section
/-!
DEFINITION. Machine/Ops.lean: the operations that the commands share: reading and changing a port, a record and an entry;
queueing a response; adding and removing a notice; spans that conflict; an entry's leaving; allocation; the beginning of a
recall; revocation; the grant scan; the fence; teardown. Chapters 1 to 4, 7 and 8.
-/

namespace Sys2Proof.Machine

/-! ### Ports -/

/-- A port. -/
def State.port (s : State) (p : Port) : HostPort := s.ports[p]

/-- The state with one port changed. -/
def State.modifyPort (s : State) (p : Port) (f : HostPort → HostPort) : State :=
  { s with ports := s.ports.set p (f s.ports[p]) }

/-- A response queued at the tail of a port's queue (R126). -/
def queueResponse (p : Port) (r : Response) (s : State) : State :=
  s.modifyPort p fun h => { h with queue := h.queue ++ [r] }

/-- The response that a request of a kind and tag gets: its kind byte with bit 7 set, its tag, a result and a body (R126,
R157). -/
def responseTo (kind : Byte) (tag : Tag) (r : Result) (b : Body) : Response where
  kind := kind ||| 0x80#8
  tag := tag
  result := r
  body := b

/-- A request of a known kind answered (00_scope.md, Responses). -/
def answer (p : Port) (k : Kind) (tag : Tag) (r : Result) (b : Body) (s : State) : State :=
  queueResponse p (responseTo (kindCode k) tag r b) s

/-- A notice's record is the one in this slot. -/
def Notice.names (n : Notice) (i : Slot) : Bool := n.handle.slot == i

/-- A notice at the tail of a port's list, in place of any notice of the same record (R135). -/
def addNotice (p : Port) (n : Notice) (s : State) : State :=
  s.modifyPort p fun h => { h with notices := h.notices.filter (fun m => !m.names n.handle.slot) ++ [n] }

/-- The notice of a slot's record removed from a port's list (R6, R136). -/
def removeNotice (p : Port) (i : Slot) (s : State) : State :=
  s.modifyPort p fun h => { h with notices := h.notices.filter fun m => !m.names i }

/-! ### Records -/

/-- The 64 slots, ascending. -/
def allSlots : List Slot := List.finRange 64

/-- The four ports, ascending. -/
def allPorts : List Port := List.finRange 4

/-- The record in a slot. -/
def State.record (s : State) (i : Slot) : LeaseRecord := s.leases[i]

/-- What a record of this state confers while it is a live lease: GRANTED or RECALLING (R2). -/
def LeaseState.live? : LeaseState → Option Tenure
  | .granted t _ _ _ => some t
  | .recalling t _ _ _ => some t
  | _ => none

/-- What a record of this state holds while it is not FREE (R1). -/
def LeaseState.tenure? : LeaseState → Option Tenure
  | .free => none
  | .granted t _ _ _ => some t
  | .recalling t _ _ _ => some t
  | .revoked t _ _ => some t

/-- The state of a slot's record. -/
def State.lease (s : State) (i : Slot) : LeaseState := (s.record i).state

/-- The state with the state of one slot's record changed; the generation is kept (R4). -/
def State.setLease (s : State) (i : Slot) (l : LeaseState) : State :=
  { s with leases := s.leases.set i { s.leases[i] with state := l } }

/-- The handle that names a slot's record (R3). -/
def State.handleOf (s : State) (i : Slot) : Handle := { slot := i, generation := (s.record i).generation }

/-- The port that holds a record of this state (R2). -/
def LeaseState.holder? (l : LeaseState) : Option Port := l.tenure?.map (·.port)

/-- The port that holds a slot's record (R2). -/
def State.holder? (s : State) (i : Slot) : Option Port := (s.lease i).holder?

/-- A record with its state changed where a port holds it. -/
def LeaseRecord.changeHeld (p : Port) (f : LeaseState → LeaseState) (r : LeaseRecord) : LeaseRecord :=
  if r.state.holder? = some p then { r with state := f r.state } else r

/-- The state with every record of a port changed. -/
def State.changeHeld (s : State) (p : Port) (f : LeaseState → LeaseState) : State :=
  { s with leases := s.leases.map (LeaseRecord.changeHeld p f) }

/-- Whether a handle in a request of a port resolves: it is not stale (R7). -/
def State.resolves (s : State) (p : Port) (h : Handle) : Bool :=
  (s.record h.slot).generation == h.generation && s.holder? h.slot == some p

/-- A record freed: every field but the generation goes (R6). The notice that names it is removed by the rule that frees
it. -/
def freeRecord (i : Slot) (s : State) : State := s.setLease i .free

/-- The lowest-numbered FREE slot (R5). -/
def State.freeSlot? (s : State) : Option Slot := allSlots.find? fun i => s.lease i == .free

/-! ### Spans (R10 to R13) -/

/-- A span is valid (R10). -/
def Span.valid (sp : Span) : Bool := decide (1 ≤ sp.count) && decide (sp.count ≤ 64) && decide (sp.first + sp.count ≤ 512)

/-- Two spans have a block in common (R11). -/
def Span.overlaps (a b : Span) : Bool := decide (a.first < b.first + b.count) && decide (b.first < a.first + a.count)

/-- Two spans of these ports conflict (R12). -/
def conflicts (p : Port) (a : ModeSpan) (q : Port) (b : ModeSpan) : Bool :=
  p != q && a.span.overlaps b.span && (a.mode == .exclusive || b.mode == .exclusive)

/-- A lease's span with its recorded mode (R12). -/
def Tenure.modeSpan (t : Tenure) : ModeSpan := { mode := t.mode, span := t.span }

/-- The spans an entry asks for; the span of an UPGRADE counts as EXCLUSIVE (R12, R27). -/
def Claim.spans : Claim → List ModeSpan
  | .acquire spans _ => spans
  | .upgrade _ sp => [{ mode := .exclusive, span := sp }]

/-- Some span of one port's list conflicts with some span of another's. -/
def anyConflict (p : Port) (as : List ModeSpan) (q : Port) (bs : List ModeSpan) : Bool :=
  as.any fun a => bs.any fun b => conflicts p a q b

/-- The slots of the live leases of other ports that conflict with some of a port's spans, ascending (R33, R42). -/
def State.holdersOff (s : State) (p : Port) (spans : List ModeSpan) : List Slot :=
  allSlots.filter fun i =>
    match (s.lease i).live? with
    | some t => spans.any fun b => conflicts t.port t.modeSpan p b
    | none => false

/-- Some of a port's spans conflicts with a span of one of these entries (R23, R32). -/
def blockedBy (earlier : List Entry) (p : Port) (spans : List ModeSpan) : Bool :=
  earlier.any fun e => anyConflict e.port e.claim.spans p spans

/-! ### Quota (R14) -/

/-- How many spans an entry counts against its port's quota (R14). -/
def Claim.quota : Claim → Nat
  | .acquire spans _ => spans.length
  | .upgrade _ _ => 0

/-- The entries of a port, in waiting-list order. -/
def State.entriesOf (s : State) (p : Port) : List Entry := s.waiting.filter fun e => e.port == p

/-- The slots of a port's records, live leases and tombstones, ascending. -/
def State.slotsOf (s : State) (p : Port) : List Slot := allSlots.filter fun i => s.holder? i == some p

/-- A port's quota count (R14). -/
def State.quotaCount (s : State) (p : Port) : Nat :=
  (s.slotsOf p).length + ((s.entriesOf p).map fun e => e.claim.quota).sum

/-! ### The grant counter (R16, R17) -/

/-- The counter can supply `n` numbers (R17). -/
def State.canSupply (s : State) (n : Nat) : Bool := decide (s.grantCounter + n ≤ Config.maxGrant)

/-! ### Entries (R27 to R31) -/

/-- The waiting entry of a port with a tag (R30). -/
def State.entryWithTag? (s : State) (p : Port) (tag : Tag) : Option Entry :=
  s.waiting.find? fun e => e.port == p && e.tag == tag

/-- The entry in a place of the Request Table. -/
def State.entryAt? (s : State) (x : EntryIndex) : Option Entry := s.waiting.find? fun e => e.index == x

/-- The earliest SHARED_POOL entry of a port becomes RESERVED (R29). -/
def promoteFirst (p : Port) : List Entry → List Entry
  | [] => []
  | e :: es =>
    if e.port = p ∧ e.source = .sharedPool then { e with source := .reserved } :: es else e :: promoteFirst p es

/-- The waiting list without an entry, its source given back (R29, R31). -/
def withoutEntry (e : Entry) (es : List Entry) : List Entry :=
  let rest := es.filter fun x => x.index != e.index
  if e.source = .reserved then promoteFirst e.port rest else rest

/-- A record state without its pending upgrade (R1, R31). -/
def LeaseState.withoutUpgrade : LeaseState → LeaseState
  | .granted t d w _ => .granted t d w none
  | l => l

/-- What an entry's leaving does but for its response (R31). -/
def entryLeaves (e : Entry) (s : State) : State :=
  let s := { s with waiting := withoutEntry e s.waiting }
  match e.claim with
  | .acquire _ _ => s
  | .upgrade h _ => s.setLease h.slot (s.lease h.slot).withoutUpgrade

/-- The kind of the request that an entry waits for. -/
def Claim.kind : Claim → Kind
  | .acquire _ _ => .acquire
  | .upgrade _ _ => .upgrade

/-- A waiting entry ended with a result: it leaves, and its response, with the entry's tag, is queued to its port (R31). -/
def endEntry (e : Entry) (r : Result) (b : Body) (s : State) : State :=
  answer e.port e.claim.kind e.tag r b (entryLeaves e s)

/-- The waiting UPGRADE entry of a slot's pending upgrade, if it has one, ended with a result (R60, R63, R68). -/
def endUpgrade (i : Slot) (r : Result) (s : State) : State :=
  match s.lease i with
  | .granted t _ _ (some tag) =>
    match s.entryWithTag? t.port tag with
    | some e => endEntry e r .empty s
    | none => s
  | _ => s

/-- The shared pool size (R28, R144). -/
def Params.sharedPool (ps : Params) : Nat := Config.tableEntries - ps.reservedEntries.toList.sum

/-- The number of entries with source SHARED_POOL (R28). -/
def State.poolUse (s : State) : Nat := (s.waiting.filter fun e => e.source == .sharedPool).length

/-- The lowest-numbered place of the Request Table not in use (R28). -/
def State.freeIndex? (s : State) : Option EntryIndex :=
  (List.finRange 32).find? fun x => !s.waiting.any fun e => e.index == x

/-- The source with which an entry of a port can be admitted, if any can (R28). -/
def State.admissionSource? (s : State) (p : Port) : Option Source :=
  if (s.entriesOf p).length < s.params.reservedEntries[p] then some .reserved
  else if s.poolUse < s.params.sharedPool then some .sharedPool
  else none

/-- An entry admitted at the tail of the waiting list (R28); for an UPGRADE the lease gains a pending upgrade. -/
def admitEntry (e : Entry) (s : State) : State :=
  let s := { s with waiting := s.waiting ++ [e] }
  match e.claim with
  | .acquire _ _ => s
  | .upgrade h _ =>
    match s.lease h.slot with
    | .granted t d w _ => s.setLease h.slot (.granted t d w (some e.tag))
    | _ => s

/-! ### Terms and deadlines (R85, R90, R91) -/

/-- The clamped term (R90). -/
def Params.clampTerm (ps : Params) (term : Nat) : Nat := if term = 0 ∨ ps.maxTerm < term then ps.maxTerm else term

/-- The clamped wait limit (R91). -/
def Params.clampWait (ps : Params) (limit : Nat) : Nat := if ps.maxWait < limit then ps.maxWait else limit

/-- The tick `n` ticks from now (R85). -/
def State.after (s : State) (n : Nat) : Tick := s.tick + BitVec.ofNat 32 n

/-- The warning tick of a lease with this deadline and term, if it gets one (R1). -/
def Params.warningTick (ps : Params) (deadline : Tick) (term : Nat) : Option Tick :=
  if 0 < ps.warnMargin ∧ ps.warnMargin < term then some (deadline - BitVec.ofNat 32 ps.warnMargin) else none

/-! ### Grants (R5, R16, R24, R36, R37) -/

/-- The span stamp of a span as it stands (R103). -/
def State.spanStamp (s : State) (sp : Span) : Nat := spanStampOf s.stamps sp

/-- One record allocated in a slot for one span of a grant (R5). -/
def allocateIn (i : Slot) (p : Port) (term : Nat) (m : ModeSpan) (s : State) : State :=
  let deadline := s.after term
  { s with
    grantCounter := s.grantCounter + 1
    leases := s.leases.set i
      { generation := s.leases[i].generation + 1
        state := .granted { port := p, mode := m.mode, span := m.span, grant := s.grantCounter + 1 } deadline
          (s.params.warningTick deadline term) none } }

/-- The grant record of a slot's live lease (R24). -/
def State.grantRecord (s : State) (i : Slot) (t : Tenure) (deadline : Tick) : GrantRecord where
  handle := s.handleOf i
  grant := t.grant
  deadline := deadline
  stamp := s.spanStamp t.span

/-- Records allocated for the spans of a grant, in span order, each in the lowest FREE slot, with the grant records that the
response carries (R5, R24). By R15 a FREE slot is always found. -/
def allocate (p : Port) (term : Nat) : List ModeSpan → State → State × List GrantRecord
  | [], s => (s, [])
  | m :: ms, s =>
    match s.freeSlot? with
    | none => (s, [])
    | some i =>
      let s1 := allocateIn i p term m s
      let g := s1.grantRecord i { port := p, mode := m.mode, span := m.span, grant := s.grantCounter + 1 } (s.after term)
      let r := allocate p term ms s1
      (r.1, g :: r.2)

/-- A GRANTED lease made EXCLUSIVE with the next grant number, its pending upgrade removed (R37, R53). -/
def upgradeRecord (i : Slot) (s : State) : State :=
  match s.lease i with
  | .granted t d w _ =>
    { s.setLease i (.granted { t with mode := .exclusive, grant := s.grantCounter + 1 } d w none) with
      grantCounter := s.grantCounter + 1 }
  | _ => s

/-- The grant record that answers an UPGRADE, taken after the grant (R53). -/
def upgradeBody (i : Slot) (s : State) : Body :=
  match s.lease i with
  | .granted t d _ _ => .upgraded (s.grantRecord i t d)
  | _ => .empty

/-! ### Recall (R63, R64) -/

/-- A recall begun on a GRANTED lease (R63): a pending upgrade ends RECALLED, the lease goes to RECALLING with its recall
deadline armed, and a RECALL notice joins the holder's list. Nothing on a record in another state. -/
def beginRecall (i : Slot) (s : State) : State :=
  let s := endUpgrade i .recalled s
  match s.lease i with
  | .granted t d w _ =>
    let at_ := s.after s.params.recallWindow
    addNotice t.port { handle := s.handleOf i, kind := .recallBegun, span := t.span, tick := at_ }
      (s.setLease i (.recalling t d w at_))
  | _ => s

/-- Recalls begun on each of some leases that is in GRANTED, in the order given (R42). -/
def beginRecalls (is : List Slot) (s : State) : State := is.foldl (fun s i => beginRecall i s) s

/-! ### The grant scan (R32 to R40) -/

/-- A grantable entry granted, or ended EXHAUSTED where the counter cannot supply its numbers (R36, R37, R38). -/
def grantEntry (e : Entry) (s : State) : State :=
  match e.claim with
  | .acquire spans term =>
    if s.canSupply spans.length then
      let r := allocate e.port term spans (entryLeaves e s)
      answer e.port .acquire e.tag .ok (.grants r.2) r.1
    else endEntry e .exhausted .empty s
  | .upgrade h _ =>
    if s.canSupply 1 then
      let s1 := upgradeRecord h.slot (entryLeaves e s)
      answer e.port .upgrade e.tag .ok (upgradeBody h.slot s1) s1
    else endEntry e .exhausted .empty s

/-- The entries that stand earlier in a list than a place of the table. -/
def earlierThan (x : EntryIndex) (es : List Entry) : List Entry := es.takeWhile fun e => e.index != x

/-- One entry judged and acted on by a walk (R32 to R35); nothing where it has left the list (R40). -/
def visitEntry (s : State) (x : EntryIndex) : State :=
  match s.entryAt? x with
  | none => s
  | some e =>
    if blockedBy (earlierThan x s.waiting) e.port e.claim.spans then s
    else if (s.holdersOff e.port e.claim.spans).isEmpty then grantEntry e s
    else beginRecalls (s.holdersOff e.port e.claim.spans) s

/-- The grant scan: one walk of the waiting list from head to tail (R35). No entry joins the list during a walk. -/
def grantScan (s : State) : State := (s.waiting.map (·.index)).foldl visitEntry s

/-- A newly admitted entry judged alone (R41): it is at the tail, and it is not grantable. -/
def judgeNew (e : Entry) (s : State) : State :=
  if blockedBy (earlierThan e.index s.waiting) e.port e.claim.spans then s
  else beginRecalls (s.holdersOff e.port e.claim.spans) s

/-! ### Revocation and the fence (R68, R75 to R77) -/

/-- A live lease revoked, but for the grant scan that the whole act ends with (R68). Nothing on another record. -/
def revoke (i : Slot) (c : Cause) (s : State) : State :=
  let s := endUpgrade i .revoked s
  match (s.lease i).live? with
  | some t =>
    addNotice t.port { handle := s.handleOf i, kind := .revoked c, span := t.span, tick := s.tick }
      (s.setLease i (.revoked t c s.tick))
  | none => s

/-- One strike counted against a port, up to 15 (R75). -/
def countStrike (p : Port) (s : State) : State :=
  s.modifyPort p fun h => { h with strikes := min (h.strikes + 1) 15 }

/-- Every waiting entry of a port out of the Request Table, with the pending upgrades of its leases (R31); R29 finds no entry
of the port left to change. -/
def dropEntriesOf (p : Port) (s : State) : State :=
  { s with waiting := s.waiting.filter fun e => e.port != p }.changeHeld p LeaseState.withoutUpgrade

/-- A port fenced, but for the scan that ends the act (R77): its entries end FENCED in waiting-list order, its live leases are
revoked FENCED in ascending slot order, and FENCE# is asserted. -/
def fencePort (p : Port) (s : State) : State :=
  let ended := (s.entriesOf p).map fun e => responseTo (kindCode e.claim.kind) e.tag .fenced .empty
  let s := dropEntriesOf p (s.modifyPort p fun h => { h with state := .fenced, queue := h.queue ++ ended })
  let s := allSlots.foldl (fun s i => if (s.lease i).live?.map (·.port) = some p then revoke i .fenced s else s) s
  s.modifyPort p fun h => { h with fenceLine := true }

/-- The fence check after a strike (R76). -/
def fenceCheck (p : Port) (s : State) : State :=
  if 0 < s.params.fenceStrikes ∧ s.params.fenceStrikes ≤ (s.port p).strikes then fencePort p s else s

/-! ### Teardown (R119) -/

/-- Steps 1 to 5 of teardown, the port state set first (R119). -/
def tearDown (p : Port) (st : PortState) (s : State) : State :=
  ((dropEntriesOf p s).changeHeld p fun _ => .free).modifyPort p fun h =>
    { h with state := st, queue := [], notices := [], overrun := false, strikes := 0, fenceLine := false }

end Sys2Proof.Machine
end

