-- ==== Sys2Proof/Machine/Flags.lean ====
section
/-!
DEFINITION. Machine/Flags.lean: what the part computes of a port for its host: credits (R129), the status bytes (R153), ATTN#
(R139), and whether its SDO is driven (R152).
-/

namespace Sys2Proof.Machine

/-- A port's credits (R129). -/
def State.credits (s : State) (p : Port) : Nat :=
  Config.queuePlaces - ((s.port p).queue.length + (s.entriesOf p).length)

/-- The number for a flag. -/
def flagBit (b : Bool) : Nat := if b then 1 else 0

/-- RESP pending (R139, R153). -/
def State.respPending (s : State) (p : Port) : Bool := !(s.port p).queue.isEmpty

/-- NOTICE pending (R139, R153). -/
def State.noticePending (s : State) (p : Port) : Bool := !(s.port p).notices.isEmpty

/-- ATTN# of a port is asserted (R139). -/
def State.attn (s : State) (p : Port) : Bool := s.respPending p || s.noticePending p

/-- FENCE# of a port is asserted (R112). -/
def State.fenceAsserted (s : State) (p : Port) : Bool := (s.port p).fenceLine

/-- Status byte 0: credits in bits 4 to 0, then RESP pending, NOTICE pending and OVERRUN (R153). -/
def State.statusByte0 (s : State) (p : Port) : Byte :=
  BitVec.ofNat 8 (s.credits p + 32 * flagBit (s.respPending p) + 64 * flagBit (s.noticePending p)
    + 128 * flagBit (s.port p).overrun)

/-- The code of a port state in status byte 1; ABSENT is never shifted (R153). -/
def portStateCode : PortState → Nat
  | .absent => 0
  | .detached => 0
  | .joined => 1
  | .fenced => 2

/-- The code of a phase (R153, R159). -/
def phaseCode : Phase → Nat
  | .clearing => 0
  | .setup => 1
  | .run => 2

/-- READY: 0 in CLEARING, 1 in SETUP and RUN (R153). -/
def readyBit : Phase → Nat
  | .clearing => 0
  | _ => 1

/-- Status byte 1: the port state in bits 1 to 0, the phase in bits 3 to 2, READY in bit 4 (R153). -/
def State.statusByte1 (s : State) (p : Port) : Byte :=
  BitVec.ofNat 8 (portStateCode (s.port p).state + 4 * phaseCode s.phase + 16 * readyBit s.phase)

/-- The port answers a transaction whose chip select falls now (R111). -/
def State.answers (s : State) (p : Port) : Bool := (s.port p).state != .absent && !s.resetAsserted

/-- SDO of the port is driven: from the fall of chip select on a port that answers until the rise or abandonment (R152). -/
def State.sdoDriven (s : State) (p : Port) : Bool :=
  match (s.port p).transaction with
  | .running _ _ _ => true
  | _ => false

/-- The clock is held: in CLEARING and while RESET# is asserted (R83). -/
def State.clockHeld (s : State) : Bool := s.phase == .clearing || s.resetAsserted

end Sys2Proof.Machine
end

