-- ==== Sys2Proof/Machine/Clock.lean ====
section
/-!
DEFINITION. Machine/Clock.lean: the Lease Clock (chapter 5): the prescaler, the tick event, the deadlines it reaches and what each
does to its owner (R45, R50, R70, R71), power-on clearing's count, and what the part does by itself when no command waits.
-/

namespace Sys2Proof.Machine

/-! ### Deadlines (R85, R86, R88) -/

/-- An armed deadline, by its kind and the record or entry that holds it (R88). -/
inductive Deadline where
  | lease (i : Slot)
  | warning (i : Slot)
  | recallEnds (i : Slot)
  | wait (x : EntryIndex)
deriving DecidableEq, Repr

/-- The lease deadline that a record of this state arms (R8). -/
def LeaseState.deadline? : LeaseState → Option Tick
  | .granted _ d _ _ => some d
  | .recalling _ d _ _ => some d
  | _ => none

/-- The warning tick that a record of this state arms (R8). -/
def LeaseState.warning? : LeaseState → Option Tick
  | .granted _ _ w _ => w
  | .recalling _ _ w _ => w
  | _ => none

/-- The recall deadline that a record of this state arms (R8). -/
def LeaseState.recallAt? : LeaseState → Option Tick
  | .recalling _ _ _ r => some r
  | _ => none

/-- The value of an armed deadline; none where nothing of that kind is armed (R8). -/
def State.deadlineValue? (s : State) : Deadline → Option Tick
  | .lease i => (s.lease i).deadline?
  | .warning i => (s.lease i).warning?
  | .recallEnds i => (s.lease i).recallAt?
  | .wait x => (s.entryAt? x).map (·.waitDeadline)

/-- A deadline is armed and reached: it equals the tick counter (R86). -/
def State.reached (s : State) (d : Deadline) : Bool := s.deadlineValue? d == some s.tick

/-- Every deadline a record or entry can arm (R88). -/
def allDeadlines : List Deadline :=
  allSlots.flatMap (fun i => [.lease i, .warning i, .recallEnds i]) ++ (List.finRange 32).map .wait

/-- The deadlines reached and not yet taken. -/
def State.outstanding (s : State) : List Deadline := allDeadlines.filter s.reached

/-- A record state without its warning tick (R50). -/
def LeaseState.withoutWarning : LeaseState → LeaseState
  | .granted t d _ u => .granted t d none u
  | .recalling t d _ r => .recalling t d none r
  | l => l

/-- A reached lease deadline taken: the lease is revoked EXPIRED, then a grant scan (R68, R70). -/
def leaseDeadlineAct (i : Slot) (s : State) : State := grantScan (revoke i .expired s)

/-- A reached warning tick taken: it is removed, and a GRANTED lease's holder gets an EXPIRING notice (R50). -/
def warningTickAct (i : Slot) (s : State) : State :=
  let s1 := s.setLease i (s.lease i).withoutWarning
  match s.lease i with
  | .granted t d _ _ => addNotice t.port { handle := s.handleOf i, kind := .expiring, span := t.span, tick := d } s1
  | _ => s1

/-- A reached recall deadline taken: the lease is revoked RECALL_TIMEOUT, a strike is counted, the fence check is made, then the
one grant scan (R71, R75, R76, R77). -/
def recallDeadlineAct (i : Slot) (s : State) : State :=
  match s.holder? i with
  | some p => grantScan (fenceCheck p (countStrike p (revoke i .recallTimeout s)))
  | none => s

/-- A reached wait deadline taken: the entry ends WAIT_EXPIRED, then a grant scan (R45). -/
def waitDeadlineAct (x : EntryIndex) (s : State) : State :=
  match s.entryAt? x with
  | some e => grantScan (endEntry e .waitExpired .empty s)
  | none => s

/-- A deadline handed to its owner and taken; nothing where it is not armed and reached (R8, R86). -/
def takeDeadline (d : Deadline) (s : State) : State :=
  if s.reached d then
    match d with
    | .lease i => leaseDeadlineAct i s
    | .warning i => warningTickAct i s
    | .recallEnds i => recallDeadlineAct i s
    | .wait x => waitDeadlineAct x s
  else s

/-- One reached deadline taken, and whether there was one. Where several are outstanding, R89 leaves open which comes first: the
choice is a free value. -/
def takeOne (s : State) : Option State :=
  match s.outstanding with
  | [] => none
  | [d] => some (takeDeadline d s)
  | d :: ds =>
    some (takeDeadline ((d :: ds).getD (Config.deadlineChoice s.choices % (d :: ds).length) d)
      { s with choices := s.choices + 1 })

/-- Up to `n` reached deadlines taken, one after another. -/
def takeReached : Nat → State → State
  | 0, s => s
  | n + 1, s =>
    match takeOne s with
    | none => s
    | some s1 => takeReached n s1

/-- The most deadlines armed at once (R88). -/
def maxDeadlines : Nat := 224

/-! ### The tick (R81 to R84) -/

/-- REFCLK periods of one tick, by TICK_PERIOD's code (R82). -/
def periodsPerTick (code : Fin 5) : Nat :=
  match code with
  | 0 => 200
  | 1 => 800
  | 2 => 6250
  | 3 => 50000
  | 4 => 400000

/-- A tick event: the reached deadlines are taken before the counter advances again (R86), the prescaler returns to 0 and the
counter advances (R81). -/
def tickAct (s : State) : State :=
  let s := takeReached maxDeadlines s
  { s with tick := s.tick + 1, prescaler := 0 }

/-- Clearing ends: every byte and stamp is 0, and with RESET# deasserted the part enters SETUP with the prescaler at 0 (R83, R105,
R142). -/
def clearingEndAct (s : State) : State :=
  { s with
    array := []
    stamps := Vector.replicate 512 0
    clearCount := Config.clearingPeriods
    phase := if s.resetAsserted then s.phase else .setup
    prescaler := 0
    tick := 0 }

/-- Clearing is under way: the part is in CLEARING and the count has not reached its end (R142). -/
def State.clearingRuns (s : State) : Bool := s.phase == .clearing && decide (s.clearCount < Config.clearingPeriods)

/-- One REFCLK period: clearing counts it, or the prescaler does, where the clock is not held (R81, R83, R142). -/
def refclkPeriod (s : State) : State :=
  if s.clearingRuns then
    if s.clearCount + 1 < Config.clearingPeriods then { s with clearCount := s.clearCount + 1 } else clearingEndAct s
  else if s.clockHeld then s
  else if s.prescaler + 1 < periodsPerTick s.params.tickPeriod then { s with prescaler := s.prescaler + 1 }
  else tickAct s

/-- What the part does by itself with no command waiting: one outstanding deadline is taken, or one REFCLK period passes (log
entry 4). -/
def idle (s : State) : State :=
  match takeOne s with
  | some s1 => s1
  | none => refclkPeriod s

/-! ### The commands -/

/-- TICK_EVENT (R81): none while the clock is held (R83). -/
def execTickEvent (s : State) : Host.Outcome State Fault Refusal := .next (if s.clockHeld then s else tickAct s)

/-- CLEARING_END (R142): none unless clearing is under way. -/
def execClearingEnd (s : State) : Host.Outcome State Fault Refusal := .next (if s.clearingRuns then clearingEndAct s else s)

/-- LEASE_DEADLINE (R70). -/
def execLeaseDeadline (i : Slot) (s : State) : Host.Outcome State Fault Refusal := .next (takeDeadline (.lease i) s)

/-- WARNING_TICK (R50). -/
def execWarningTick (i : Slot) (s : State) : Host.Outcome State Fault Refusal := .next (takeDeadline (.warning i) s)

/-- RECALL_DEADLINE (R71). -/
def execRecallDeadline (i : Slot) (s : State) : Host.Outcome State Fault Refusal := .next (takeDeadline (.recallEnds i) s)

/-- WAIT_DEADLINE (R45). -/
def execWaitDeadline (x : EntryIndex) (s : State) : Host.Outcome State Fault Refusal := .next (takeDeadline (.wait x) s)

end Sys2Proof.Machine
end

