-- ==== Sys2Proof/Machine/Device.lean ====
section
/-!
DEFINITION. Machine/Device.lean: PRESENT (R110), power-on (R141) and RESET# (R143).
-/

namespace Sys2Proof.Machine

/-! ### PRESENT -/

/-- The port state that a reset gives a port by the level of its PRESENT (R124). -/
def stateByPresent (present : Bool) : PortState := if present then .detached else .absent

/-- A transaction in progress abandoned: the part ignores the rest of it (R111). -/
def abandoned : Transaction → Transaction
  | .none => .none
  | _ => .ignored

/-- PRESENT rises: an ABSENT port becomes DETACHED, but not while RESET# is asserted; a level already high does not rise
(R110). -/
def presentRisesAct (p : Port) (s : State) : State :=
  if (s.port p).present then s
  else s.modifyPort p fun h =>
    { h with
      present := true
      state := if h.state = .absent ∧ s.resetAsserted = false then .detached else h.state }

/-- PRESENT falls: the transaction in progress is abandoned, and the port is torn down and becomes ABSENT, with teardown's grant
scan; a level already low does not fall (R110, R111, R119). -/
def presentFallsAct (p : Port) (s : State) : State :=
  if (s.port p).present then
    let s := s.modifyPort p fun h => { h with present := false, transaction := abandoned h.transaction }
    if (s.port p).state = .absent then s else grantScan (tearDown p .absent s)
  else s

/-! ### Resets -/

/-- A port as a reset leaves it, by its PRESENT; a transaction in progress is abandoned (R111, R124). -/
def resetPort (h : HostPort) : HostPort :=
  { h with
    state := stateByPresent h.present
    queue := []
    notices := []
    overrun := false
    strikes := 0
    fenceLine := false
    transaction := abandoned h.transaction }

/-- What either reset does to every block but the array's bytes, the phase and the clearing (R20, R27, R93, R102, R124, R144). -/
def resetBlocks (s : State) : State :=
  { s with
    ports := s.ports.map resetPort
    leases := Vector.replicate 64 LeaseRecord.reset
    grantCounter := 0
    waiting := []
    prescaler := 0
    tick := 0
    stamps := Vector.replicate 512 0
    params := Params.reset }

/-- Power comes up: CLEARING, every block in its power-on state, no transaction in progress, RESET# not yet taken as asserted, the
clearing of the array begun (R105, R124, R141). -/
def powerOnAct (s : State) : State :=
  let s := resetBlocks s
  { s with
    ports := s.ports.map fun h => { h with transaction := .none, sdo := [] }
    array := []
    phase := .clearing
    resetAsserted := false
    clearCount := 0 }

/-- RESET# taken as asserted: every block but the array's bytes reset, the ports silent, the phase SETUP unless in CLEARING (R106,
R143). -/
def resetAssertedAct (s : State) : State :=
  { resetBlocks s with
    phase := if s.phase = .clearing then .clearing else .setup
    resetAsserted := true }

/-- RESET# deasserted: what the reset holds until now is released, each port by its PRESENT at this moment, and the part is in SETUP
from here if clearing has ended (R83, R124, R142, R143). -/
def resetDeassertedAct (s : State) : State :=
  { resetBlocks s with
    phase := if s.phase = .clearing ∧ s.clearCount < Config.clearingPeriods then .clearing else .setup
    resetAsserted := false }

/-! ### The commands -/

/-- PRESENT_RISES (R110). -/
def execPresentRises (p : Port) (s : State) : Host.Outcome State Fault Refusal := .next (presentRisesAct p s)

/-- PRESENT_FALLS (R110). -/
def execPresentFalls (p : Port) (s : State) : Host.Outcome State Fault Refusal := .next (presentFallsAct p s)

/-- POWER_ON (R141). -/
def execPowerOn (s : State) : Host.Outcome State Fault Refusal := .next (powerOnAct s)

/-- RESET_ASSERTED (R143): RESET# is taken as asserted once it has been low for 50 consecutive REFCLK periods; a shorter low level is
ignored, and one already taken is not taken again. -/
def execResetAsserted (lowPeriods : Nat) (s : State) : Host.Outcome State Fault Refusal :=
  .next (if lowPeriods < Config.resetLowPeriods ∨ s.resetAsserted = true then s else resetAssertedAct s)

/-- RESET_DEASSERTED (R143): nothing where RESET# is not taken as asserted. -/
def execResetDeasserted (s : State) : Host.Outcome State Fault Refusal :=
  .next (if s.resetAsserted = true then resetDeassertedAct s else s)

end Sys2Proof.Machine
end

