-- ==== Sys2Proof/Machine/Frames.lean ====
section
/-!
DEFINITION. Machine/Frames.lean: the bytes of a response frame (R157), its body (R159, R161) and the empty frame.
-/

namespace Sys2Proof.Machine

/-- The code of a result (R156). -/
def resultCode : Result → Byte
  | .ok => 0x00#8
  | .conflict => 0x01#8
  | .waitExpired => 0x02#8
  | .cancelled => 0x03#8
  | .recalled => 0x04#8
  | .revoked => 0x05#8
  | .badHandle => 0x06#8
  | .selfOverlap => 0x07#8
  | .quota => 0x08#8
  | .tableBusy => 0x09#8
  | .range => 0x0A#8
  | .mode => 0x0B#8
  | .notFound => 0x0C#8
  | .tagInUse => 0x0D#8
  | .notJoined => 0x0E#8
  | .notRunning => 0x0F#8
  | .notSetup => 0x10#8
  | .fenced => 0x11#8
  | .exhausted => 0x12#8
  | .badValue => 0x13#8
  | .badFrame => 0x14#8
  | .badKind => 0x15#8
  | .state => 0x16#8

/-- The value of a handle: generation × 64 + slot (R3). -/
def Handle.value (h : Handle) : Nat := h.generation.val * 64 + h.slot.val

/-- A mode's byte (R159). -/
def modeCode : Mode → Nat
  | .shared => 1
  | .exclusive => 2

/-- A revoke cause's byte (R159). -/
def causeCode : Cause → Nat
  | .expired => 1
  | .recallTimeout => 2
  | .fenced => 3

/-- A notice kind's byte (R159). -/
def noticeCode : NoticeKind → Nat
  | .recallBegun => 1
  | .expiring => 2
  | .revoked _ => 3

/-- A notice's revoke cause byte: 0 unless the kind is REVOKED (R161). -/
def noticeCauseCode : NoticeKind → Nat
  | .revoked c => causeCode c
  | _ => 0

/-- One byte of a body. -/
def byteOf (n : Nat) : List Byte := leBytes 1 n

/-- A tick in a body. -/
def tickBytes (t : Tick) : List Byte := leBytes 4 t.toNat

/-- A grant record: handle, grant number, deadline, span stamp (R161). -/
def grantBytes (g : GrantRecord) : List Byte :=
  leBytes 2 g.handle.value ++ leBytes 4 g.grant ++ tickBytes g.deadline ++ leBytes 4 g.stamp

/-- A notice record: handle, kind, cause, first block, block count, tick (R161). -/
def noticeBytes (n : Notice) : List Byte :=
  leBytes 2 n.handle.value ++ byteOf (noticeCode n.kind) ++ byteOf (noticeCauseCode n.kind) ++ leBytes 2 n.span.first
    ++ byteOf n.span.count ++ tickBytes n.tick

/-- What a record view shows of a record's state: the state code, the record's fields, and those that may be absent: deadline,
warning tick, recall deadline, pending upgrade, revoke cause with tick (R19). -/
structure ViewItems where
  code : Nat
  deadline : Option Tick
  warning : Option Tick
  recallAt : Option Tick
  upgrade : Option Tag
  revoke : Option (Cause × Tick)

/-- The items of a record's view, by its state (R19). -/
def viewItems : LeaseState → ViewItems
  | .free => ⟨0, none, none, none, none, none⟩
  | .granted _ d w u => ⟨1, some d, w, none, u, none⟩
  | .recalling _ d w r => ⟨2, some d, w, some r, none, none⟩
  | .revoked _ c k => ⟨3, none, none, none, none, some (c, k)⟩

/-- The presence byte of a view (R161). -/
def ViewItems.presence (v : ViewItems) : Nat :=
  flagBit v.deadline.isSome + 2 * flagBit v.warning.isSome + 4 * flagBit v.recallAt.isSome
    + 8 * flagBit v.upgrade.isSome + 16 * flagBit v.revoke.isSome

/-- A tick that may be absent: zeros in its place (R161). -/
def optTickBytes (t : Option Tick) : List Byte := tickBytes (t.getD 0)

/-- A record view (R161). -/
def viewBytes (h : Handle) (l : LeaseState) (stamp : Nat) : List Byte :=
  let t := l.tenure?.getD { port := 0, mode := .shared, span := { first := 0, count := 0 }, grant := 0 }
  let v := viewItems l
  leBytes 2 h.value ++ byteOf v.code ++ byteOf (modeCode t.mode) ++ leBytes 2 t.span.first ++ byteOf t.span.count
    ++ leBytes 4 t.grant ++ byteOf v.presence ++ optTickBytes v.deadline ++ optTickBytes v.warning
    ++ optTickBytes v.recallAt ++ [v.upgrade.getD 0#8] ++ byteOf ((v.revoke.map fun x => causeCode x.1).getD 0)
    ++ optTickBytes (v.revoke.map (·.2)) ++ leBytes 4 stamp

/-- The parameters as GET_CONFIG reports them (R148, R161). -/
def configBytes (ph : Phase) (ps : Params) : List Byte :=
  byteOf (phaseCode ph) ++ byteOf ps.tickPeriod.val ++ leBytes 4 ps.maxTerm ++ leBytes 4 ps.maxWait
    ++ leBytes 2 ps.recallWindow ++ leBytes 2 ps.warnMargin ++ byteOf ps.fenceStrikes
    ++ ps.leaseQuota.toList.flatMap byteOf ++ ps.reservedEntries.toList.flatMap byteOf ++ byteOf ps.sharedPool

/-- The bytes of a response body (R161). -/
def bodyBytes : Body → List Byte
  | .empty => []
  | .joined p ph t =>
    byteOf p.val ++ byteOf (phaseCode ph) ++ leBytes 3 Config.partIdentity ++ byteOf Config.partRevision ++ tickBytes t
  | .count t => tickBytes t
  | .param i p v => [i, p] ++ leBytes 4 v
  | .config ph ps => configBytes ph ps
  | .tags ts => byteOf ts.length ++ ts
  | .grants gs => byteOf gs.length ++ gs.flatMap grantBytes
  | .upgraded g => grantBytes g
  | .renewed h d => leBytes 2 h.value ++ tickBytes d
  | .view h l st => viewBytes h l st
  | .data st bs => leBytes 4 st ++ bs
  | .notices ns => byteOf ns.length ++ ns.flatMap noticeBytes

/-- A response frame: kind, tag, result, 0, body length, body, CRC (R157). -/
def responseFrame (r : Response) : List Byte :=
  let body := bodyBytes r.body
  let head := r.kind :: r.tag :: resultCode r.result :: 0x00#8 :: leBytes 2 body.length ++ body
  head ++ crcField head

/-- The empty frame, as a response: kind 0x80, tag 0, result 0, no body (R127, R157). -/
def emptyResponse : Response where
  kind := 0x80#8
  tag := 0#8
  result := .ok
  body := .empty

/-- What a PULL shifts from byte 2 on: the frame fixed at the fall, or the empty frame (R127, R152). -/
def pulledFrame (head : Option Response) : List Byte := responseFrame (head.getD emptyResponse)

/-- The bytes that the part shifts in a transaction of `n` whole bytes: these, then 0x00 for every further byte (R152). -/
def shiftOut (n : Nat) (bs : List Byte) : List Byte := (bs ++ List.replicate n 0x00#8).take n

end Sys2Proof.Machine
end

