-- ==== Sys2Proof/Machine/Operands.lean ====
section
/-!
DEFINITION. Machine/Operands.lean: reading a request's body (R159, R160), and the same bodies as a host writes them.
-/

namespace Sys2Proof.Machine

/-- The slot and generation that a 16-bit handle value names (R3). -/
def handleOfValue (v : Nat) : Handle where
  slot := Fin.ofNat 64 v
  generation := Fin.ofNat 1024 (v / 64)

/-- A body that is exactly a handle: DOWNGRADE, RELEASE, QUERY, ACK_REVOKED (R160). -/
def parseHandle : List Byte → Option Handle
  | [a, b] => some (handleOfValue (leValue [a, b]))
  | _ => none

/-- A body that is a handle and a four-byte number: UPGRADE, RENEW (R160). -/
def parseHandleNumber : List Byte → Option (Handle × Nat)
  | [a, b, c, d, e, f] => some (handleOfValue (leValue [a, b]), leValue [c, d, e, f])
  | _ => none

/-- A body that is one byte: CANCEL, TAKE_NOTICES (R160). -/
def parseByte : List Byte → Option Byte
  | [a] => some a
  | _ => none

/-- A body that is SET's three fields: identifier, port number, value (R160). -/
def parseSet : List Byte → Option (Byte × Byte × Nat)
  | [i, p, a, b, c, d] => some (i, p, leValue [a, b, c, d])
  | _ => none

/-- The three fields of a READ or WRITE body, and the bytes after them; none where the body is too short to hold them (R96,
R98). -/
def parseAccess : List Byte → Option (Handle × Nat × Nat × List Byte)
  | a :: b :: c :: d :: e :: f :: g :: h :: rest =>
    some (handleOfValue (leValue [a, b]), leValue [c, d, e, f], leValue [g, h], rest)
  | _ => none

/-- The mode that a byte codes (R159). -/
def modeOfByte (b : Byte) : Option Mode :=
  if b = 0x01#8 then some .shared else if b = 0x02#8 then some .exclusive else none

/-- The span entries of an ACQUIRE body; none for a bad mode code, an invalid span or bytes left over (R22, R160). -/
def parseSpans : List Byte → Option (List ModeSpan)
  | [] => some []
  | m :: f0 :: f1 :: c :: rest =>
    match modeOfByte m, parseSpans rest with
    | some mode, some more =>
      let sp : Span := { first := leValue [f0, f1], count := c.toNat }
      if sp.valid then some ({ mode := mode, span := sp } :: more) else none
    | _, _ => none
  | _ => none

/-- What an ACQUIRE asks for, before its term and wait limit are clamped (R21). -/
structure AcquireRequest where
  term : Nat
  wait : Nat
  spans : List ModeSpan
deriving DecidableEq, Repr

/-- An ACQUIRE body: term, wait limit, span count of 1 to 4, and as many valid span entries (R22 step 4, R160). -/
def parseAcquire : List Byte → Option AcquireRequest
  | t0 :: t1 :: t2 :: t3 :: w0 :: w1 :: w2 :: w3 :: n :: rest =>
    match parseSpans rest with
    | some spans =>
      if 1 ≤ n.toNat ∧ n.toNat ≤ 4 ∧ spans.length = n.toNat then
        some { term := leValue [t0, t1, t2, t3], wait := leValue [w0, w1, w2, w3], spans := spans }
      else none
    | none => none
  | _ => none

/-! ### Bodies as a host writes them (R160) -/

/-- A handle as a body. -/
def handleBody (h : Handle) : List Byte := leBytes 2 h.value

/-- A handle and a number: UPGRADE, RENEW. -/
def handleNumberBody (h : Handle) (n : Nat) : List Byte := leBytes 2 h.value ++ leBytes 4 n

/-- SET's body. -/
def setBody (i p : Byte) (v : Nat) : List Byte := [i, p] ++ leBytes 4 v

/-- READ's body. -/
def readBody (h : Handle) (a n : Nat) : List Byte := leBytes 2 h.value ++ leBytes 4 a ++ leBytes 2 n

/-- WRITE's body. -/
def writeBody (h : Handle) (a : Nat) (bs : List Byte) : List Byte := readBody h a bs.length ++ bs

/-- One span entry of an ACQUIRE body. -/
def spanBody (m : ModeSpan) : List Byte := byteOf (modeCode m.mode) ++ leBytes 2 m.span.first ++ byteOf m.span.count

/-- ACQUIRE's body. -/
def acquireBody (r : AcquireRequest) : List Byte :=
  leBytes 4 r.term ++ leBytes 4 r.wait ++ byteOf r.spans.length ++ r.spans.flatMap spanBody

end Sys2Proof.Machine
end

