-- ==== Sys2Proof/Machine/Checks.lean ====
section
/-!
DEFINITION. Machine/Checks.lean: the three checks common to all kinds, in their order: admission (R113), phase (R114) and tag
(R115); and the settling of a request by its checks and its effect.
-/

namespace Sys2Proof.Machine

/-- Whether a kind is one that a FENCED port takes (R109, R113). -/
def takenFenced : Kind → Bool
  | .leave | .getConfig | .time | .sync | .query | .takeNotices | .ackRevoked => true
  | _ => false

/-- Whether a kind is one that a DETACHED port takes (R109, R113). -/
def takenDetached : Kind → Bool
  | .join | .getConfig | .time | .sync => true
  | _ => false

/-- Admission: the refusing answer, if any (R113). An ABSENT port takes no frame, so none of its frames comes here. -/
def admission (k : Kind) : PortState → Option Result
  | .absent => none
  | .detached => if takenDetached k then none else some .notJoined
  | .joined => if k = .join then some .state else none
  | .fenced => if takenFenced k then none else some .fenced

/-- The phase check of a kind: the refusing answer, if any (R114). -/
def phaseCheck (k : Kind) (ph : Phase) : Option Result :=
  match k with
  | .acquire | .upgrade | .downgrade | .renew | .release | .cancel | .read | .write =>
    if ph = .run then none else some .notRunning
  | .set | .start => if ph = .setup then none else some .notSetup
  | _ => none

/-- The tag is that of one of the port's waiting entries (R115). -/
def State.tagInUse (s : State) (p : Port) (tag : Tag) : Bool := s.waiting.any fun e => e.port == p && e.tag == tag

/-- Admission, phase and tag, in that order: the first refusing answer (R113 to R115). -/
def commonCheck (k : Kind) (p : Port) (tag : Tag) (s : State) : Option Result :=
  match admission k (s.port p).state with
  | some r => some r
  | none =>
    match phaseCheck k s.phase with
    | some r => some r
    | none => if s.tagInUse p tag then some .tagInUse else none

/-- A request settled by its checks: the first that fails gives the answer and nothing else (00_scope.md, Check orders); when
all pass, the request's effect. -/
def settle {α : Type} (k : Kind) (p : Port) (tag : Tag) (c : Except Result α) (effect : α → State → State)
    (s : State) : State :=
  match c with
  | .error r => answer p k tag r .empty s
  | .ok a => effect a s

/-- The checks of a kind that carries no body: the common ones, then the body's length (R156). -/
def emptyBodyChecks (k : Kind) (p : Port) (tag : Tag) (body : List Byte) (s : State) : Except Result Unit :=
  match commonCheck k p tag s with
  | some r => .error r
  | none => if body.isEmpty then .ok () else .error .range

/-- The checks of a kind whose body is a handle alone, up to the handle's resolution (R7, R156). -/
def handleChecks (k : Kind) (p : Port) (tag : Tag) (body : List Byte) (s : State) : Except Result Slot :=
  match commonCheck k p tag s with
  | some r => .error r
  | none =>
    match parseHandle body with
    | none => .error .range
    | some h => if s.resolves p h then .ok h.slot else .error .badHandle

/-- The checks of a kind whose body is a handle and a number, up to the handle's resolution (R7, R156). -/
def handleNumberChecks (k : Kind) (p : Port) (tag : Tag) (body : List Byte) (s : State) : Except Result (Slot × Nat) :=
  match commonCheck k p tag s with
  | some r => .error r
  | none =>
    match parseHandleNumber body with
    | none => .error .range
    | some (h, n) => if s.resolves p h then .ok (h.slot, n) else .error .badHandle

end Sys2Proof.Machine
end

