-- ==== Sys2Proof/Machine/Array.lean ====
section
/-!
DEFINITION. Machine/Array.lean: what a taken READ or WRITE frame does (chapter 6).
-/

namespace Sys2Proof.Machine

/-- The common checks and the handle step of READ and WRITE (R96 and R98, steps 1 to 4), then the tombstone step (step 5): the
live lease's tenure, the address, the length, and the bytes after the three fields. -/
def accessChecks (k : Kind) (p : Port) (tag : Tag) (body : List Byte) (s : State) :
    Except Result (Tenure × Nat × Nat × List Byte) :=
  match commonCheck k p tag s with
  | some r => .error r
  | none =>
    match parseAccess body with
    | none => .error .range
    | some (h, a, n, rest) =>
      if s.resolves p h then
        match (s.lease h.slot).live? with
        | none => .error .revoked
        | some t => .ok (t, a, n, rest)
      else .error .badHandle

/-- READ's checks (R96): the address and the length. -/
def readChecks (p : Port) (tag : Tag) (body : List Byte) (s : State) : Except Result (Nat × Nat) :=
  match accessChecks .read p tag body s with
  | .error r => .error r
  | .ok (t, a, n, rest) =>
    if ¬(1 ≤ n ∧ n ≤ 256) ∨ ¬rest.isEmpty then .error .range
    else if !withinSpan t.span a n then .error .range
    else .ok (a, n)

/-- A READ that passes: the read stamp and the bytes (R97). -/
def readEffect (p : Port) (tag : Tag) (a : Nat × Nat) (s : State) : State :=
  answer p .read tag .ok (.data (largestStamp s.stamps (touchedBlocks a.1 a.2)) (readBytes s.array a.1 a.2)) s

/-- READ taken (R96, R97). -/
def takeRead (p : Port) (tag : Tag) (body : List Byte) (s : State) : State :=
  settle .read p tag (readChecks p tag body s) (readEffect p tag) s

/-- WRITE's checks (R98): the lease's grant number, the address and the data bytes. -/
def writeChecks (p : Port) (tag : Tag) (body : List Byte) (s : State) : Except Result (Nat × Nat × List Byte) :=
  match accessChecks .write p tag body s with
  | .error r => .error r
  | .ok (t, a, n, bs) =>
    if t.mode ≠ .exclusive then .error .mode
    else if ¬(1 ≤ n ∧ n ≤ 256) ∨ bs.length ≠ n then .error .range
    else if !withinSpan t.span a n then .error .range
    else .ok (t.grant, a, bs)

/-- A WRITE that passes: the bytes stored, the touched blocks stamped (R99). -/
def writeEffect (p : Port) (tag : Tag) (w : Nat × Nat × List Byte) (s : State) : State :=
  answer p .write tag .ok .empty
    { s with
      array := writeBytes s.array w.2.1 w.2.2
      stamps := stampBlocks s.stamps w.1 (touchedBlocks w.2.1 w.2.2.length) }

/-- WRITE taken (R98, R99). -/
def takeWrite (p : Port) (tag : Tag) (body : List Byte) (s : State) : State :=
  settle .write p tag (writeChecks p tag body s) (writeEffect p tag) s

end Sys2Proof.Machine
end

