-- ==== Sys2Proof/Machine/Lease.lean ====
section
/-!
DEFINITION. Machine/Lease.lean: what a taken frame of the lease kinds does: ACQUIRE, CANCEL (chapter 2), UPGRADE, DOWNGRADE, RENEW,
RELEASE (chapter 3), QUERY (chapter 1).
-/

namespace Sys2Proof.Machine

/-! ### ACQUIRE -/

/-- Some two of these spans overlap. -/
def anyOverlap : List ModeSpan → Bool
  | [] => false
  | m :: ms => ms.any (fun n => m.span.overlaps n.span) || anyOverlap ms

/-- The spans of a port's live leases and of its waiting entries (R13). -/
def State.spansOf (s : State) (p : Port) : List ModeSpan :=
  (allSlots.filterMap fun i => (s.lease i).live?.bind fun t => if t.port = p then some t.modeSpan else none)
    ++ (s.entriesOf p).flatMap fun e => e.claim.spans

/-- Some span of a request self-overlaps (R13). -/
def selfOverlaps (p : Port) (spans : List ModeSpan) (s : State) : Bool :=
  anyOverlap spans || spans.any fun m => (s.spansOf p).any fun n => m.span.overlaps n.span

/-- ACQUIRE's checks, in R22's order; the request comes back with its term and wait limit clamped (R21). -/
def acquireChecks (p : Port) (tag : Tag) (body : List Byte) (s : State) : Except Result AcquireRequest :=
  match commonCheck .acquire p tag s with
  | some r => .error r
  | none =>
    match parseAcquire body with
    | none => .error .range
    | some a =>
      if selfOverlaps p a.spans s then .error .selfOverlap
      else if s.params.leaseQuota[p] < s.quotaCount p + a.spans.length then .error .quota
      else if !s.canSupply a.spans.length then .error .exhausted
      else .ok { a with term := s.params.clampTerm a.term, wait := s.params.clampWait a.wait }

/-- A request for these spans is grantable now (R23 case 1, R53 case 1). -/
def grantableNow (p : Port) (spans : List ModeSpan) (s : State) : Bool :=
  !blockedBy s.waiting p spans && (s.holdersOff p spans).isEmpty

/-- A request that is not grantable now settled by the last three cases of R23 and R53: CONFLICT, TABLE_BUSY, or a waiting entry
judged alone (R28, R41). -/
def waitOrRefuse (k : Kind) (p : Port) (tag : Tag) (c : Claim) (wait : Nat) (s : State) : State :=
  if wait = 0 then answer p k tag .conflict .empty s
  else
    match s.admissionSource? p, s.freeIndex? with
    | some src, some x =>
      let e : Entry := { index := x, port := p, tag := tag, claim := c, waitDeadline := s.after wait, source := src }
      judgeNew e (admitEntry e s)
    | _, _ => answer p k tag .tableBusy .empty s

/-- An ACQUIRE that passes its checks, settled (R23, R24). -/
def acquireEffect (p : Port) (tag : Tag) (a : AcquireRequest) (s : State) : State :=
  if grantableNow p a.spans s then
    let r := allocate p a.term a.spans s
    answer p .acquire tag .ok (.grants r.2) r.1
  else waitOrRefuse .acquire p tag (.acquire a.spans a.term) a.wait s

/-- ACQUIRE taken (R22, R23). -/
def takeAcquire (p : Port) (tag : Tag) (body : List Byte) (s : State) : State :=
  settle .acquire p tag (acquireChecks p tag body s) (acquireEffect p tag) s

/-! ### UPGRADE -/

/-- UPGRADE's checks (R47, R52): the slot, its lease's tenure, and the clamped wait limit. -/
def upgradeChecks (p : Port) (tag : Tag) (body : List Byte) (s : State) : Except Result (Slot × Tenure × Nat) :=
  match handleNumberChecks .upgrade p tag body s with
  | .error r => .error r
  | .ok (i, n) =>
    match s.lease i with
    | .free => .error .badHandle
    | .revoked _ _ _ => .error .revoked
    | .recalling _ _ _ _ => .error .recalled
    | .granted t _ _ u =>
      if t.mode ≠ .shared then .error .mode
      else if u.isSome then .error .state
      else if !s.canSupply 1 then .error .exhausted
      else .ok (i, t, s.params.clampWait n)

/-- An UPGRADE that passes its checks, settled (R53, R54). -/
def upgradeEffect (p : Port) (tag : Tag) (a : Slot × Tenure × Nat) (s : State) : State :=
  if grantableNow p [{ mode := .exclusive, span := a.2.1.span }] s then
    let s1 := upgradeRecord a.1 s
    answer p .upgrade tag .ok (upgradeBody a.1 s1) s1
  else waitOrRefuse .upgrade p tag (.upgrade (s.handleOf a.1) a.2.1.span) a.2.2 s

/-- UPGRADE taken (R52, R53). -/
def takeUpgrade (p : Port) (tag : Tag) (body : List Byte) (s : State) : State :=
  settle .upgrade p tag (upgradeChecks p tag body s) (upgradeEffect p tag) s

/-! ### DOWNGRADE -/

/-- DOWNGRADE's checks (R47, R57). -/
def downgradeChecks (p : Port) (tag : Tag) (body : List Byte) (s : State) : Except Result Slot :=
  match handleChecks .downgrade p tag body s with
  | .error r => .error r
  | .ok i =>
    match s.lease i with
    | .free => .error .badHandle
    | .revoked _ _ _ => .error .revoked
    | .recalling _ _ _ _ => .error .recalled
    | .granted t _ _ _ => if t.mode = .shared then .error .mode else .ok i

/-- A GRANTED lease made SHARED, every other field kept (R57). -/
def sharedRecord (i : Slot) (s : State) : State :=
  match s.lease i with
  | .granted t d w u => s.setLease i (.granted { t with mode := .shared } d w u)
  | _ => s

/-- A DOWNGRADE that passes: SHARED, its OK, a grant scan (R57). -/
def downgradeEffect (p : Port) (tag : Tag) (i : Slot) (s : State) : State :=
  grantScan (answer p .downgrade tag .ok .empty (sharedRecord i s))

/-- DOWNGRADE taken (R57). -/
def takeDowngrade (p : Port) (tag : Tag) (body : List Byte) (s : State) : State :=
  settle .downgrade p tag (downgradeChecks p tag body s) (downgradeEffect p tag) s

/-! ### RENEW -/

/-- RENEW's checks (R47, R48): the slot and the clamped term. -/
def renewChecks (p : Port) (tag : Tag) (body : List Byte) (s : State) : Except Result (Slot × Nat) :=
  match handleNumberChecks .renew p tag body s with
  | .error r => .error r
  | .ok (i, n) =>
    match s.lease i with
    | .free => .error .badHandle
    | .revoked _ _ _ => .error .revoked
    | .recalling _ _ _ _ => .error .recalled
    | .granted _ _ _ _ => .ok (i, s.params.clampTerm n)

/-- A GRANTED lease with a new deadline and warning tick (R1, R48). -/
def renewedRecord (i : Slot) (term : Nat) (s : State) : State :=
  match s.lease i with
  | .granted t _ _ u => s.setLease i (.granted t (s.after term) (s.params.warningTick (s.after term) term) u)
  | _ => s

/-- A port's EXPIRING notice for a slot's record removed (R48). -/
def removeExpiring (p : Port) (i : Slot) (s : State) : State :=
  s.modifyPort p fun h => { h with notices := h.notices.filter fun m => !(m.names i && m.kind == .expiring) }

/-- A RENEW that passes (R48). -/
def renewEffect (p : Port) (tag : Tag) (a : Slot × Nat) (s : State) : State :=
  answer p .renew tag .ok (.renewed (s.handleOf a.1) (s.after a.2)) (removeExpiring p a.1 (renewedRecord a.1 a.2 s))

/-- RENEW taken (R48). -/
def takeRenew (p : Port) (tag : Tag) (body : List Byte) (s : State) : State :=
  settle .renew p tag (renewChecks p tag body s) (renewEffect p tag) s

/-! ### RELEASE -/

/-- RELEASE's checks (R47, R60). -/
def releaseChecks (p : Port) (tag : Tag) (body : List Byte) (s : State) : Except Result Slot :=
  match handleChecks .release p tag body s with
  | .error r => .error r
  | .ok i =>
    match s.lease i with
    | .free => .error .badHandle
    | .revoked _ _ _ => .error .revoked
    | .granted _ _ _ _ => .ok i
    | .recalling _ _ _ _ => .ok i

/-- A RELEASE of a live lease: its pending upgrade ends CANCELLED, the record and its notice go, its OK, a grant scan
(R60). -/
def releaseEffect (p : Port) (tag : Tag) (i : Slot) (s : State) : State :=
  grantScan (answer p .release tag .ok .empty (removeNotice p i (freeRecord i (endUpgrade i .cancelled s))))

/-- RELEASE taken (R60). -/
def takeRelease (p : Port) (tag : Tag) (body : List Byte) (s : State) : State :=
  settle .release p tag (releaseChecks p tag body s) (releaseEffect p tag) s

/-! ### CANCEL -/

/-- CANCEL's checks, with the body's length before the lookup (R43, R156): the entry named. -/
def cancelChecks (p : Port) (tag : Tag) (body : List Byte) (s : State) : Except Result Entry :=
  match commonCheck .cancel p tag s with
  | some r => .error r
  | none =>
    match parseByte body with
    | none => .error .range
    | some named =>
      match s.entryWithTag? p named with
      | none => .error .notFound
      | some e => .ok e

/-- A CANCEL that finds its entry: the entry ends CANCELLED, then CANCEL's OK, then a grant scan (R43). -/
def cancelEffect (p : Port) (tag : Tag) (e : Entry) (s : State) : State :=
  grantScan (answer p .cancel tag .ok .empty (endEntry e .cancelled .empty s))

/-- CANCEL taken (R43). -/
def takeCancel (p : Port) (tag : Tag) (body : List Byte) (s : State) : State :=
  settle .cancel p tag (cancelChecks p tag body s) (cancelEffect p tag) s

/-! ### QUERY -/

/-- A QUERY that passes: the record's view and its span stamp (R18, R19). -/
def queryEffect (p : Port) (tag : Tag) (i : Slot) (s : State) : State :=
  let stamp := match (s.lease i).tenure? with
    | some t => s.spanStamp t.span
    | none => 0
  answer p .query tag .ok (.view (s.handleOf i) (s.lease i) stamp) s

/-- QUERY taken (R18). -/
def takeQuery (p : Port) (tag : Tag) (body : List Byte) (s : State) : State :=
  settle .query p tag (handleChecks .query p tag body s) (queryEffect p tag) s

end Sys2Proof.Machine
end

