-- ==== Sys2Proof/Machine/Notices.lean ====
section
/-!
DEFINITION. Machine/Notices.lean: what a taken TAKE_NOTICES (R137) or ACK_REVOKED (R74) frame does.
-/

namespace Sys2Proof.Machine

/-- TAKE_NOTICES's checks (R137): the max count. -/
def takeNoticesChecks (p : Port) (tag : Tag) (body : List Byte) (s : State) : Except Result Nat :=
  match commonCheck .takeNotices p tag s with
  | some r => .error r
  | none =>
    match parseByte body with
    | none => .error .range
    | some n => if 1 ≤ n.toNat ∧ n.toNat ≤ 16 then .ok n.toNat else .error .range

/-- A TAKE_NOTICES that passes: the oldest notices, up to the max count, removed and returned (R137). -/
def takeNoticesEffect (p : Port) (tag : Tag) (n : Nat) (s : State) : State :=
  answer p .takeNotices tag .ok (.notices ((s.port p).notices.take n))
    (s.modifyPort p fun h => { h with notices := h.notices.drop n })

/-- TAKE_NOTICES taken (R137). -/
def takeTakeNotices (p : Port) (tag : Tag) (body : List Byte) (s : State) : State :=
  settle .takeNotices p tag (takeNoticesChecks p tag body s) (takeNoticesEffect p tag) s

/-- ACK_REVOKED's checks (R74). -/
def ackRevokedChecks (p : Port) (tag : Tag) (body : List Byte) (s : State) : Except Result Slot :=
  match handleChecks .ackRevoked p tag body s with
  | .error r => .error r
  | .ok i =>
    match s.lease i with
    | .free => .error .badHandle
    | .granted _ _ _ _ => .error .state
    | .recalling _ _ _ _ => .error .state
    | .revoked _ _ _ => .ok i

/-- An ACK_REVOKED of a tombstone: its notice and its record go (R74). -/
def ackRevokedEffect (p : Port) (tag : Tag) (i : Slot) (s : State) : State :=
  answer p .ackRevoked tag .ok .empty (removeNotice p i (freeRecord i s))

/-- ACK_REVOKED taken (R74). -/
def takeAckRevoked (p : Port) (tag : Tag) (body : List Byte) (s : State) : State :=
  settle .ackRevoked p tag (ackRevokedChecks p tag body s) (ackRevokedEffect p tag) s

end Sys2Proof.Machine
end

