-- ==== Sys2Proof/Machine/Session.lean ====
section
/-!
DEFINITION. Machine/Session.lean: what a taken frame of the session, setup and clock kinds does: JOIN, LEAVE (chapter 7), START,
SET, GET_CONFIG (chapter 9), TIME (chapter 5), SYNC (chapter 8).
-/

namespace Sys2Proof.Machine

/-! ### JOIN, LEAVE -/

/-- A JOIN from a DETACHED port: the session begins with a strike count of 0 (R116). -/
def joinEffect (p : Port) (tag : Tag) (s : State) : State :=
  answer p .join tag .ok (.joined p s.phase s.tick) (s.modifyPort p fun h => { h with state := .joined, strikes := 0 })

/-- JOIN taken (R116). -/
def takeJoin (p : Port) (tag : Tag) (body : List Byte) (s : State) : State :=
  settle .join p tag (emptyBodyChecks .join p tag body s) (fun _ => joinEffect p tag) s

/-- A LEAVE that passes: DETACHED, teardown, its OK, then teardown's grant scan (R118, R119). -/
def leaveEffect (p : Port) (tag : Tag) (s : State) : State :=
  grantScan (answer p .leave tag .ok .empty (tearDown p .detached s))

/-- LEAVE taken (R118). -/
def takeLeave (p : Port) (tag : Tag) (body : List Byte) (s : State) : State :=
  settle .leave p tag (emptyBodyChecks .leave p tag body s) (fun _ => leaveEffect p tag) s

/-! ### START, SET, GET_CONFIG -/

/-- A START that passes: RUN, answered with the tick (R149). -/
def startEffect (p : Port) (tag : Tag) (s : State) : State :=
  answer p .start tag .ok (.count s.tick) { s with phase := .run }

/-- START taken (R149). -/
def takeStart (p : Port) (tag : Tag) (body : List Byte) (s : State) : State :=
  settle .start p tag (emptyBodyChecks .start p tag body s) (fun _ => startEffect p tag) s

/-- A value in a range, both ends included. -/
def inRange (lo hi v : Nat) : Bool := decide (lo ≤ v) && decide (v ≤ hi)

/-- The parameters after a SET of an identifier, port number and value, where SET's checks 5 to 8 pass: identifier, port
number, range, and for LEASE_QUOTA the sum (R144, R145). -/
def setParam (ps : Params) (i q : Byte) (v : Nat) : Option Params :=
  if i = 0x01#8 ∧ q = 0#8 then
    if h : v < 5 then some { ps with tickPeriod := ⟨v, h⟩ } else none
  else if i = 0x02#8 ∧ q = 0#8 then if inRange 1 16777215 v then some { ps with maxTerm := v } else none
  else if i = 0x03#8 ∧ q = 0#8 then if inRange 0 16777215 v then some { ps with maxWait := v } else none
  else if i = 0x04#8 ∧ q = 0#8 then if inRange 1 65535 v then some { ps with recallWindow := v } else none
  else if i = 0x05#8 ∧ q = 0#8 then if inRange 0 65535 v then some { ps with warnMargin := v } else none
  else if i = 0x06#8 ∧ q = 0#8 then if inRange 0 15 v then some { ps with fenceStrikes := v } else none
  else if i = 0x07#8 then
    if h : q.toNat < 4 then
      let quota := ps.leaseQuota.set q.toNat v
      if inRange 0 64 v && decide (quota.toList.sum ≤ 64) then some { ps with leaseQuota := quota } else none
    else none
  else if i = 0x08#8 then
    if h : q.toNat < 4 then
      if inRange 0 8 v then some { ps with reservedEntries := ps.reservedEntries.set q.toNat v } else none
    else none
  else none

/-- SET's checks (R145): the three fields and the parameters that result. -/
def setChecks (p : Port) (tag : Tag) (body : List Byte) (s : State) : Except Result (Byte × Byte × Nat × Params) :=
  match commonCheck .set p tag s with
  | some r => .error r
  | none =>
    match parseSet body with
    | none => .error .range
    | some (i, q, v) =>
      match setParam s.params i q v with
      | none => .error .badValue
      | some ps => .ok (i, q, v, ps)

/-- A SET that passes: the parameter takes its value, and a SET of TICK_PERIOD restarts the prescaler (R84, R146). -/
def setEffect (p : Port) (tag : Tag) (a : Byte × Byte × Nat × Params) (s : State) : State :=
  let s1 := { s with params := a.2.2.2, prescaler := if a.1 = 0x01#8 then 0 else s.prescaler }
  answer p .set tag .ok (.param a.1 a.2.1 a.2.2.1) s1

/-- SET taken (R145, R146). -/
def takeSet (p : Port) (tag : Tag) (body : List Byte) (s : State) : State :=
  settle .set p tag (setChecks p tag body s) (setEffect p tag) s

/-- A GET_CONFIG that passes (R148). -/
def getConfigEffect (p : Port) (tag : Tag) (s : State) : State :=
  answer p .getConfig tag .ok (.config s.phase s.params) s

/-- GET_CONFIG taken (R148). -/
def takeGetConfig (p : Port) (tag : Tag) (body : List Byte) (s : State) : State :=
  settle .getConfig p tag (emptyBodyChecks .getConfig p tag body s) (fun _ => getConfigEffect p tag) s

/-! ### TIME, SYNC -/

/-- A TIME that passes (R92). -/
def timeEffect (p : Port) (tag : Tag) (s : State) : State := answer p .time tag .ok (.count s.tick) s

/-- TIME taken (R92). -/
def takeTime (p : Port) (tag : Tag) (body : List Byte) (s : State) : State :=
  settle .time p tag (emptyBodyChecks .time p tag body s) (fun _ => timeEffect p tag) s

/-- A SYNC that passes: OVERRUN cleared, the tags of the port's waiting entries returned (R133). -/
def syncEffect (p : Port) (tag : Tag) (s : State) : State :=
  answer p .sync tag .ok (.tags ((s.entriesOf p).map (·.tag))) (s.modifyPort p fun h => { h with overrun := false })

/-- SYNC taken (R133). -/
def takeSync (p : Port) (tag : Tag) (body : List Byte) (s : State) : State :=
  settle .sync p tag (emptyBodyChecks .sync p tag body s) (fun _ => syncEffect p tag) s

end Sys2Proof.Machine
end

