-- ==== Sys2Proof/WellFormed.lean ====
section
/-!
DEFINITION. WellFormed.lean: which commands name an event of their row. An ill-formed command still has a meaning: the bytes
it carries are settled as whatever they are (R152, R154).
-/

namespace Sys2Proof

/-- The transaction types of R152. -/
def typePush : Byte := 0x5A#8
@[inherit_doc typePush] def typePull : Byte := 0xA6#8
@[inherit_doc typePush] def typeStatus : Byte := 0x3C#8

/-- Whether a transaction's first byte is one of the three types of R152. -/
def knownType (b : Byte) : Bool := b == typePush || b == typePull || b == typeStatus

/-- The command names an event of its row. -/
def Instr.wellFormed : Instr → Bool
  | .join _ _ body | .leave _ _ body | .start _ _ body | .set _ _ body | .getConfig _ _ body | .time _ _ body
  | .sync _ _ body | .acquire _ _ body | .upgrade _ _ body | .downgrade _ _ body | .renew _ _ body | .release _ _ body
  | .cancel _ _ body | .query _ _ body | .read _ _ body | .write _ _ body | .takeNotices _ _ body
  | .ackRevoked _ _ body => decide (body.length ≤ maxBody)
  | .badFrame _ frame => !frame.isEmpty && !frameIntact frame
  | .badKind _ kind _ body => (kindOfCode kind).isNone && decide (body.length ≤ maxBody)
  | .pushDiscarded _ frame => !frame.isEmpty
  | .pushInClearing _ frame => !frame.isEmpty
  | .pushNoFrame _ rest => decide (rest.length ≤ 1)
  | .pull _ n => decide (1 ≤ n)
  | .status _ n => decide (1 ≤ n)
  | .otherTransaction _ [] => true
  | .otherTransaction _ (b :: _) => !knownType b
  | .resetAsserted n => decide (Config.resetLowPeriods ≤ n)
  | .presentRises _ | .presentFalls _ | .powerOn | .clearingEnd | .resetDeasserted | .tickEvent | .leaseDeadline _
  | .warningTick _ | .recallDeadline _ | .waitDeadline _ | .csFalls _ => true

end Sys2Proof
end

