-- ==== Sys2Proof/Machine/Link.lean ====
section
/-!
DEFINITION. Machine/Link.lean: the SPI transaction of a port, from the fall of its chip select to the rise that settles it
(R111, R127, R131, R152 to R156), and what each transaction command does.

A command that ends a transaction settles the one in progress. Where the port has none, it is the whole transaction: its
fall, then its rise (log entry 1).
-/

namespace Sys2Proof.Machine

/-! ### The fall -/

/-- What is fixed at the fall of chip select on a port that answers: the status bytes and the frame that a PULL will shift, none
in CLEARING (R141, R152, R153). -/
def fixedAtFall (p : Port) (s : State) : Transaction :=
  .running (s.statusByte0 p) (s.statusByte1 p) (if s.phase = .clearing then none else (s.port p).queue.head?)

/-- Chip select falls: a transaction begins, or one that the part ignores until its rise (R111, R152). With chip select already
low there is no fall. -/
def chipSelectFalls (p : Port) (s : State) : State :=
  match (s.port p).transaction with
  | .none => s.modifyPort p fun h => { h with transaction := if s.answers p then fixedAtFall p s else .ignored }
  | _ => s

/-! ### The rise -/

/-- A transaction of `n` whole bytes ends: the bytes the part shifted, status bytes first, are these after them (R152); then its
settlement, given the frame fixed at the fall. One that the part ignores has no effect (R111). -/
def endTransaction (p : Port) (n : Nat) (shifted : Option Response → List Byte)
    (settlement : Option Response → State → State) (s : State) : State :=
  let s := chipSelectFalls p s
  match (s.port p).transaction with
  | .none => s
  | .ignored => s.modifyPort p fun h => { h with transaction := .none }
  | .running b0 b1 head =>
    settlement head
      (s.modifyPort p fun h => { h with transaction := .none, sdo := shiftOut n (b0 :: b1 :: shifted head) })

/-- A PUSH with `m` whole frame bytes settled at its rise (R154): no frame, CLEARING, credits, taken. An ABSENT port takes no
frame (R111). -/
def settlePush (p : Port) (m : Nat) (taken : State → State) (s : State) : State :=
  if m = 0 then s
  else if (s.port p).state = .absent then s
  else if s.phase = .clearing then s
  else if s.credits p = 0 then s.modifyPort p fun h => { h with overrun := true }
  else taken s

/-- A PUSH ends: `m` whole frame bytes after the type byte and byte 1 (R152, R154). -/
def endPush (p : Port) (m : Nat) (taken : State → State) (s : State) : State :=
  endTransaction p (m + 2) (fun _ => []) (fun _ => settlePush p m taken) s

/-- A PULL of `n` whole bytes settled: the head frame removed where every byte of it was shifted (R127). -/
def settlePull (p : Port) (n : Nat) (head : Option Response) (s : State) : State :=
  match head with
  | none => s
  | some r =>
    if (responseFrame r).length + 2 ≤ n then s.modifyPort p fun h => { h with queue := h.queue.tail } else s

/-! ### A taken frame (R155, R156) -/

/-- A taken frame answered BAD_FRAME (R155). -/
def answerBadFrame (p : Port) (kind : Byte) (tag : Tag) (s : State) : State :=
  queueResponse p (responseTo kind tag .badFrame .empty) s

/-- A taken frame answered BAD_KIND (R156). -/
def answerBadKind (p : Port) (kind : Byte) (tag : Tag) (s : State) : State :=
  queueResponse p (responseTo kind tag .badKind .empty) s

/-- An intact frame of a known kind handed to its owner (R156). -/
def takeKind : Kind → Port → Tag → List Byte → State → State
  | .join => takeJoin
  | .leave => takeLeave
  | .start => takeStart
  | .set => takeSet
  | .getConfig => takeGetConfig
  | .time => takeTime
  | .sync => takeSync
  | .acquire => takeAcquire
  | .upgrade => takeUpgrade
  | .downgrade => takeDowngrade
  | .renew => takeRenew
  | .release => takeRelease
  | .cancel => takeCancel
  | .query => takeQuery
  | .read => takeRead
  | .write => takeWrite
  | .takeNotices => takeTakeNotices
  | .ackRevoked => takeAckRevoked

/-- An intact frame with any kind byte (R156). -/
def takeIntact (p : Port) (kind : Byte) (tag : Tag) (body : List Byte) (s : State) : State :=
  match kindOfCode kind with
  | none => answerBadKind p kind tag s
  | some k => takeKind k p tag body s

/-- A taken frame, whatever its bytes: integrity, then kind (R155, R156). -/
def takeFrame (p : Port) (frame : List Byte) (s : State) : State :=
  if frameIntact frame then takeIntact p (frameKind frame) (frameTag frame) (frameBody frame) s
  else answerBadFrame p (frameKind frame) (frameTag frame) s

/-- The whole bytes of a frame with this body (R155). -/
def frameBytes (body : List Byte) : Nat := 6 + body.length

/-- A PUSH ends whose frame, with the right length and CRC, has this kind byte, tag and body; a body longer than a frame may carry
makes it a BAD_FRAME (R155). -/
def pushFrame (p : Port) (kind : Byte) (tag : Tag) (body : List Byte) (taken : State → State) (s : State) : State :=
  endPush p (frameBytes body)
    (fun s => if body.length ≤ maxBody then taken s else answerBadFrame p kind tag s) s

/-- A PUSH ends whose frame is these bytes. -/
def pushBytes (p : Port) (frame : List Byte) (s : State) : State := endPush p frame.length (takeFrame p frame) s

/-- A PUSH ends with these whole bytes after its type byte: the first of them is ignored (R152). -/
def pushRest (p : Port) (rest : List Byte) (s : State) : State :=
  endTransaction p (rest.length + 1) (fun _ => [])
    (fun _ => settlePush p (rest.length - 1) (takeFrame p (rest.drop 1))) s

/-- A PULL of `n` whole bytes ends (R127, R152). -/
def endPull (p : Port) (n : Nat) (s : State) : State := endTransaction p n pulledFrame (settlePull p n) s

/-- A transaction of `n` whole bytes ends that neither carries nor fetches a frame (R152, R153). -/
def endIdle (p : Port) (n : Nat) (s : State) : State := endTransaction p n (fun _ => []) (fun _ s => s) s

/-- A transaction ends in which the host shifted these whole bytes: settled by the type in the first of them (R152). -/
def endBytes (p : Port) (bs : List Byte) (s : State) : State :=
  match bs with
  | [] => endIdle p 0 s
  | b :: rest =>
    if b = typePush then pushRest p rest s
    else if b = typePull then endPull p (rest.length + 1) s
    else endIdle p (rest.length + 1) s

/-! ### The commands -/

/-- JOIN (R116). -/
def execJoin (p : Port) (tag : Tag) (body : List Byte) (s : State) : Host.Outcome State Fault Refusal :=
  .next (pushFrame p (kindCode .join) tag body (takeJoin p tag body) s)

/-- LEAVE (R118). -/
def execLeave (p : Port) (tag : Tag) (body : List Byte) (s : State) : Host.Outcome State Fault Refusal :=
  .next (pushFrame p (kindCode .leave) tag body (takeLeave p tag body) s)

/-- START (R149). -/
def execStart (p : Port) (tag : Tag) (body : List Byte) (s : State) : Host.Outcome State Fault Refusal :=
  .next (pushFrame p (kindCode .start) tag body (takeStart p tag body) s)

/-- SET (R145, R146). -/
def execSet (p : Port) (tag : Tag) (body : List Byte) (s : State) : Host.Outcome State Fault Refusal :=
  .next (pushFrame p (kindCode .set) tag body (takeSet p tag body) s)

/-- GET_CONFIG (R148). -/
def execGetConfig (p : Port) (tag : Tag) (body : List Byte) (s : State) : Host.Outcome State Fault Refusal :=
  .next (pushFrame p (kindCode .getConfig) tag body (takeGetConfig p tag body) s)

/-- TIME (R92). -/
def execTime (p : Port) (tag : Tag) (body : List Byte) (s : State) : Host.Outcome State Fault Refusal :=
  .next (pushFrame p (kindCode .time) tag body (takeTime p tag body) s)

/-- SYNC (R133). -/
def execSync (p : Port) (tag : Tag) (body : List Byte) (s : State) : Host.Outcome State Fault Refusal :=
  .next (pushFrame p (kindCode .sync) tag body (takeSync p tag body) s)

/-- ACQUIRE (R22, R23). -/
def execAcquire (p : Port) (tag : Tag) (body : List Byte) (s : State) : Host.Outcome State Fault Refusal :=
  .next (pushFrame p (kindCode .acquire) tag body (takeAcquire p tag body) s)

/-- UPGRADE (R52, R53). -/
def execUpgrade (p : Port) (tag : Tag) (body : List Byte) (s : State) : Host.Outcome State Fault Refusal :=
  .next (pushFrame p (kindCode .upgrade) tag body (takeUpgrade p tag body) s)

/-- DOWNGRADE (R57). -/
def execDowngrade (p : Port) (tag : Tag) (body : List Byte) (s : State) : Host.Outcome State Fault Refusal :=
  .next (pushFrame p (kindCode .downgrade) tag body (takeDowngrade p tag body) s)

/-- RENEW (R48). -/
def execRenew (p : Port) (tag : Tag) (body : List Byte) (s : State) : Host.Outcome State Fault Refusal :=
  .next (pushFrame p (kindCode .renew) tag body (takeRenew p tag body) s)

/-- RELEASE (R60). -/
def execRelease (p : Port) (tag : Tag) (body : List Byte) (s : State) : Host.Outcome State Fault Refusal :=
  .next (pushFrame p (kindCode .release) tag body (takeRelease p tag body) s)

/-- CANCEL (R43). -/
def execCancel (p : Port) (tag : Tag) (body : List Byte) (s : State) : Host.Outcome State Fault Refusal :=
  .next (pushFrame p (kindCode .cancel) tag body (takeCancel p tag body) s)

/-- QUERY (R18). -/
def execQuery (p : Port) (tag : Tag) (body : List Byte) (s : State) : Host.Outcome State Fault Refusal :=
  .next (pushFrame p (kindCode .query) tag body (takeQuery p tag body) s)

/-- READ (R96, R97). -/
def execRead (p : Port) (tag : Tag) (body : List Byte) (s : State) : Host.Outcome State Fault Refusal :=
  .next (pushFrame p (kindCode .read) tag body (takeRead p tag body) s)

/-- WRITE (R98, R99). -/
def execWrite (p : Port) (tag : Tag) (body : List Byte) (s : State) : Host.Outcome State Fault Refusal :=
  .next (pushFrame p (kindCode .write) tag body (takeWrite p tag body) s)

/-- TAKE_NOTICES (R137). -/
def execTakeNotices (p : Port) (tag : Tag) (body : List Byte) (s : State) : Host.Outcome State Fault Refusal :=
  .next (pushFrame p (kindCode .takeNotices) tag body (takeTakeNotices p tag body) s)

/-- ACK_REVOKED (R74). -/
def execAckRevoked (p : Port) (tag : Tag) (body : List Byte) (s : State) : Host.Outcome State Fault Refusal :=
  .next (pushFrame p (kindCode .ackRevoked) tag body (takeAckRevoked p tag body) s)

/-- BAD_FRAME (R155): the PUSH of these frame bytes, settled as they are. -/
def execBadFrame (p : Port) (frame : List Byte) (s : State) : Host.Outcome State Fault Refusal := .next (pushBytes p frame s)

/-- BAD_KIND (R156): the PUSH of an intact frame with this kind byte. -/
def execBadKind (p : Port) (kind : Byte) (tag : Tag) (body : List Byte) (s : State) :
    Host.Outcome State Fault Refusal :=
  .next (pushFrame p kind tag body (takeIntact p kind tag body) s)

/-- PUSH_DISCARDED (R131): the PUSH of these frame bytes; at 0 credits it is discarded and OVERRUN set. -/
def execPushDiscarded (p : Port) (frame : List Byte) (s : State) : Host.Outcome State Fault Refusal :=
  .next (pushBytes p frame s)

/-- PUSH_IN_CLEARING (R141): the PUSH of these frame bytes; in CLEARING it is discarded. -/
def execPushInClearing (p : Port) (frame : List Byte) (s : State) : Host.Outcome State Fault Refusal :=
  .next (pushBytes p frame s)

/-- PUSH_NO_FRAME (R154). -/
def execPushNoFrame (p : Port) (rest : List Byte) (s : State) : Host.Outcome State Fault Refusal := .next (pushRest p rest s)

/-- PULL (R127). -/
def execPull (p : Port) (n : Nat) (s : State) : Host.Outcome State Fault Refusal := .next (endPull p n s)

/-- STATUS (R153). -/
def execStatus (p : Port) (n : Nat) (s : State) : Host.Outcome State Fault Refusal := .next (endIdle p n s)

/-- OTHER_TRANSACTION (R152). -/
def execOtherTransaction (p : Port) (bs : List Byte) (s : State) : Host.Outcome State Fault Refusal := .next (endBytes p bs s)

/-- CS_FALLS (R152). -/
def execCsFalls (p : Port) (s : State) : Host.Outcome State Fault Refusal := .next (chipSelectFalls p s)

end Sys2Proof.Machine
end

