-- ==== Sys2Proof/Machine/Dispatch.lean ====
section
/-!
DEFINITION. Machine/Dispatch.lean: the meaning of every command, one arm per constructor of Instr.
-/

namespace Sys2Proof.Machine

def exec (i : Instr) (s : State) : Host.Outcome State Fault Refusal :=
  match i with
  | .join p tag body => Sys2Proof.Machine.execJoin p tag body s
  | .leave p tag body => Sys2Proof.Machine.execLeave p tag body s
  | .start p tag body => Sys2Proof.Machine.execStart p tag body s
  | .set p tag body => Sys2Proof.Machine.execSet p tag body s
  | .getConfig p tag body => Sys2Proof.Machine.execGetConfig p tag body s
  | .time p tag body => Sys2Proof.Machine.execTime p tag body s
  | .sync p tag body => Sys2Proof.Machine.execSync p tag body s
  | .acquire p tag body => Sys2Proof.Machine.execAcquire p tag body s
  | .upgrade p tag body => Sys2Proof.Machine.execUpgrade p tag body s
  | .downgrade p tag body => Sys2Proof.Machine.execDowngrade p tag body s
  | .renew p tag body => Sys2Proof.Machine.execRenew p tag body s
  | .release p tag body => Sys2Proof.Machine.execRelease p tag body s
  | .cancel p tag body => Sys2Proof.Machine.execCancel p tag body s
  | .query p tag body => Sys2Proof.Machine.execQuery p tag body s
  | .read p tag body => Sys2Proof.Machine.execRead p tag body s
  | .write p tag body => Sys2Proof.Machine.execWrite p tag body s
  | .takeNotices p tag body => Sys2Proof.Machine.execTakeNotices p tag body s
  | .ackRevoked p tag body => Sys2Proof.Machine.execAckRevoked p tag body s
  | .badFrame p frame => Sys2Proof.Machine.execBadFrame p frame s
  | .badKind p kind tag body => Sys2Proof.Machine.execBadKind p kind tag body s
  | .pushDiscarded p frame => Sys2Proof.Machine.execPushDiscarded p frame s
  | .pushInClearing p frame => Sys2Proof.Machine.execPushInClearing p frame s
  | .pushNoFrame p rest => Sys2Proof.Machine.execPushNoFrame p rest s
  | .pull p n => Sys2Proof.Machine.execPull p n s
  | .status p n => Sys2Proof.Machine.execStatus p n s
  | .otherTransaction p bs => Sys2Proof.Machine.execOtherTransaction p bs s
  | .presentRises p => Sys2Proof.Machine.execPresentRises p s
  | .presentFalls p => Sys2Proof.Machine.execPresentFalls p s
  | .powerOn => Sys2Proof.Machine.execPowerOn s
  | .clearingEnd => Sys2Proof.Machine.execClearingEnd s
  | .resetAsserted n => Sys2Proof.Machine.execResetAsserted n s
  | .resetDeasserted => Sys2Proof.Machine.execResetDeasserted s
  | .tickEvent => Sys2Proof.Machine.execTickEvent s
  | .leaseDeadline slot => Sys2Proof.Machine.execLeaseDeadline slot s
  | .warningTick slot => Sys2Proof.Machine.execWarningTick slot s
  | .recallDeadline slot => Sys2Proof.Machine.execRecallDeadline slot s
  | .waitDeadline x => Sys2Proof.Machine.execWaitDeadline x s
  | .csFalls p => Sys2Proof.Machine.execCsFalls p s

end Sys2Proof.Machine
end

