-- ==== Sys2Proof/Safety.lean ====
section
/-!
DEFINITION. Safety.lean: the terms the statements use: which pushes are taken, what a transaction alone does to the state, and the
laws the chapters state of the tables, as predicates of the state.
-/

namespace Sys2Proof.Machine

/-! ### Transactions -/

/-- The part settles a transaction of the port whose chip select rises now: the one in progress, or a whole one (R111, R152). -/
def settles (s : State) (p : Port) : Bool :=
  match (s.port p).transaction with
  | .running _ _ _ => true
  | .none => s.answers p
  | .ignored => false

/-- The status bytes of the transaction that ends: fixed at its fall (R153). -/
def shiftedStatus (s : State) (p : Port) : List Byte :=
  match (s.port p).transaction with
  | .running b0 b1 _ => [b0, b1]
  | _ => [s.statusByte0 p, s.statusByte1 p]

/-- The frame that the transaction that ends fixed for a PULL at its fall: none for an empty queue, and none in CLEARING (R127,
R141, R152). -/
def fixedHead (s : State) (p : Port) : Option Response :=
  match (s.port p).transaction with
  | .running _ _ head => head
  | _ => if s.phase = .clearing then none else (s.port p).queue.head?

/-- The state after a transaction of `n` whole bytes in which the part shifted its status bytes, some bytes more, and zeros; and
nothing else happened. -/
def afterTransaction (s : State) (p : Port) (n : Nat) (more : List Byte) : State :=
  s.modifyPort p fun h =>
    { h with transaction := .none, sdo := (shiftedStatus s p ++ more ++ List.replicate n 0x00#8).take n }

/-- The state after a PUSH of `m` frame bytes, but for what its frame does. -/
def afterPush (s : State) (p : Port) (m : Nat) : State :=
  s.modifyPort p fun h => { h with transaction := .none, sdo := shiftedStatus s p ++ List.replicate m 0x00#8 }

/-- A PUSH of the port whose chip select rises now, with a frame, is settled by the port's credits (R154). -/
def settlesPush (s : State) (p : Port) : Bool :=
  settles s p && (s.port p).state != .absent && s.phase != .clearing

/-- A frame pushed at the port now is taken (R154). -/
def takesFrame (s : State) (p : Port) : Bool := settlesPush s p && decide (0 < s.credits p)

/-- The command that pushes a frame of a kind. -/
def commandOf : Kind → Port → Tag → List Byte → Instr
  | .join => .join
  | .leave => .leave
  | .start => .start
  | .set => .set
  | .getConfig => .getConfig
  | .time => .time
  | .sync => .sync
  | .acquire => .acquire
  | .upgrade => .upgrade
  | .downgrade => .downgrade
  | .renew => .renew
  | .release => .release
  | .cancel => .cancel
  | .query => .query
  | .read => .read
  | .write => .write
  | .takeNotices => .takeNotices
  | .ackRevoked => .ackRevoked

/-- A command ends a PUSH of these frame bytes at a port (R152, R154). -/
def Pushes (c : Instr) (p : Port) (f : List Byte) : Prop :=
  (∃ k tag body, c = commandOf k p tag body ∧ f = requestFrame (kindCode k) tag body) ∨
  (∃ kind tag body, c = .badKind p kind tag body ∧ f = requestFrame kind tag body) ∨
  c = .badFrame p f ∨ c = .pushDiscarded p f ∨ c = .pushInClearing p f ∨
  (∃ b, c = .pushNoFrame p (b :: f)) ∨ ∃ b, c = .otherTransaction p (0x5A#8 :: b :: f)

/-- The length of the body, for the kinds that take a body of no other length (R160): of ACQUIRE and WRITE the length varies, and a
READ too long is refused only after its handle is resolved (R96). -/
def fixedLength? : Kind → Option Nat
  | .join | .leave | .start | .getConfig | .time | .sync => some 0
  | .cancel | .takeNotices => some 1
  | .downgrade | .release | .query | .ackRevoked => some 2
  | .set | .upgrade | .renew => some 6
  | .acquire | .read | .write => none

/-- A lease or array request with this tag passes its common checks: it is taken, from a JOINED port, in RUN, and no waiting entry
of the port has its tag (R113 to R115). -/
def working (s : State) (p : Port) (tag : Tag) : Bool :=
  takesFrame s p && (s.port p).state == .joined && s.phase == .run && !s.tagInUse p tag

/-- QUERY, ACK_REVOKED or TAKE_NOTICES with this tag passes its common checks: it is taken, from a JOINED or FENCED port, and no
waiting entry of the port has its tag (R113, R115). -/
def collecting (s : State) (p : Port) (tag : Tag) : Bool :=
  takesFrame s p && ((s.port p).state == .joined || (s.port p).state == .fenced) && !s.tagInUse p tag

/-- An ACQUIRE of these spans passes R22's steps 4 to 7. -/
def acquirable (s : State) (p : Port) (spans : List ModeSpan) : Bool :=
  decide (1 ≤ spans.length) && decide (spans.length ≤ 4) && spans.all (fun m => m.span.valid) &&
    !selfOverlaps p spans s && decide (s.quotaCount p + spans.length ≤ s.params.leaseQuota[p]) &&
    decide (s.grantCounter + spans.length ≤ Config.maxGrant)

/-- The FREE slots, ascending. -/
def State.freeSlots (s : State) : List Slot := allSlots.filter fun i => s.lease i == .free

/-! ### What lease traffic leaves alone -/

/-- Two states agree on all but ports, lease records, grant counter and waiting list. -/
def SameDevice (s t : State) : Prop :=
  t.prescaler = s.prescaler ∧ t.tick = s.tick ∧ t.array = s.array ∧ t.stamps = s.stamps ∧ t.phase = s.phase ∧
    t.resetAsserted = s.resetAsserted ∧ t.clearCount = s.clearCount ∧ t.params = s.params ∧ t.choices = s.choices ∧
    t.pending = s.pending

/-- Two ports agree on all but response queue and notice list, and the second's queue is the first's with responses added at its
tail. -/
def OnlyCollects (h k : HostPort) : Prop :=
  k.present = h.present ∧ k.state = h.state ∧ k.overrun = h.overrun ∧ k.strikes = h.strikes ∧
    k.fenceLine = h.fenceLine ∧ k.transaction = h.transaction ∧ k.sdo = h.sdo ∧ h.queue <+: k.queue

/-- What a teardown of a port leaves, before its grant scan, of all but the port itself: the port's entries are gone and its records
are FREE with their generations kept, and all else is as it was (R119). -/
def TornDown (p : Port) (s u : State) : Prop :=
  (∀ q, q ≠ p → u.port q = s.port q) ∧ u.waiting = s.waiting.filter (fun e => e.port != p) ∧
    (∀ i, u.record i = if s.holder? i = some p then { s.record i with state := .free } else s.record i) ∧
    u.grantCounter = s.grantCounter ∧ SameDevice s u

/-! ### The laws -/

/-- FENCE# is asserted exactly while the port is FENCED (R112). -/
def FenceLaw (s : State) : Prop := ∀ p, (s.port p).fenceLine = true ↔ (s.port p).state = .fenced

/-- An ABSENT or DETACHED port holds no lease records, waiting entries or notices; an ABSENT port also holds no responses
(R121). -/
def PortLaw (s : State) : Prop :=
  ∀ p, ((s.port p).state = .absent ∨ (s.port p).state = .detached →
      (∀ i, s.holder? i ≠ some p) ∧ (∀ e ∈ s.waiting, e.port ≠ p) ∧ (s.port p).notices = []) ∧
    ((s.port p).state = .absent → (s.port p).queue = [])

/-- Queued responses plus waiting entries never exceed 16 (R130). -/
def CreditLaw (s : State) : Prop := ∀ p, (s.port p).queue.length + (s.entriesOf p).length ≤ Config.queuePlaces

/-- Two live leases of different ports overlap only if both are SHARED (R12). -/
def ConflictLaw (s : State) : Prop :=
  ∀ i j ti tj, (s.lease i).live? = some ti → (s.lease j).live? = some tj →
    conflicts ti.port ti.modeSpan tj.port tj.modeSpan = false

/-- The span of a waiting UPGRADE entry is exactly that of its own lease, which is GRANTED with the entry's tag as its pending
upgrade (R13, R28, R37). -/
def UpgradeLaw (s : State) : Prop :=
  ∀ e ∈ s.waiting, ∀ h sp, e.claim = .upgrade h sp →
    ∃ t d w, s.lease h.slot = .granted t d w (some e.tag) ∧ t.port = e.port ∧ t.span = sp

/-- Two waiting entries of one port never share a tag (R30). -/
def TagLaw (s : State) : Prop := s.waiting.Pairwise fun a b => ¬(a.port = b.port ∧ a.tag = b.tag)

/-- The conflict law with the two laws of the waiting list that keep it. -/
def LeaseLaw (s : State) : Prop := ConflictLaw s ∧ UpgradeLaw s ∧ TagLaw s

/-- No two live leases of one port overlap, and no span of a port's waiting ACQUIRE overlaps another of its own request, a live lease
of the port or a span of another of its waiting entries (R13). -/
def SelfOverlapLaw (s : State) : Prop :=
  (∀ i j ti tj, i ≠ j → (s.lease i).live? = some ti → (s.lease j).live? = some tj → ti.port = tj.port →
    ti.span.overlaps tj.span = false) ∧
  ∀ e ∈ s.waiting, ∀ spans term, e.claim = .acquire spans term →
    spans.Pairwise (fun m n => m.span.overlaps n.span = false) ∧
    ∀ m ∈ spans,
      (∀ i t, (s.lease i).live? = some t → t.port = e.port → m.span.overlaps t.span = false) ∧
      ∀ f ∈ s.waiting, f.index ≠ e.index → f.port = e.port → ∀ n ∈ f.claim.spans, m.span.overlaps n.span = false

/-- Every block stamp and every grant number held is at most the last grant number issued, which is at most 4,294,967,295 (R16,
R102). -/
def StampLaw (s : State) : Prop :=
  s.grantCounter ≤ Config.maxGrant ∧ (∀ b, stampAt s.stamps b ≤ s.grantCounter) ∧
    ∀ i t, (s.lease i).tenure? = some t → t.grant ≤ s.grantCounter

/-- Every notice names a record of its own port that is not FREE, and no record has more than one notice (R136). -/
def NoticeLaw (s : State) : Prop :=
  ∀ p, (∀ n ∈ (s.port p).notices, s.resolves p n.handle = true) ∧
    (s.port p).notices.Pairwise fun m n => m.handle.slot ≠ n.handle.slot

/-- Leases and waiting entries exist only in RUN (R15). -/
def OnlyInRun (s : State) : Prop := s.phase ≠ .run → s.waiting = [] ∧ ∀ i, s.lease i = .free

/-- No port's quota count exceeds its LEASE_QUOTA, and the quotas sum to at most 64 (R14). -/
def QuotaLaw (s : State) : Prop :=
  (∀ p, s.quotaCount p ≤ s.params.leaseQuota[p]) ∧ s.params.leaseQuota.toList.sum ≤ 64

/-- The entries of a port with a source. -/
def State.entriesFrom (s : State) (p : Port) (src : Source) : List Entry := (s.entriesOf p).filter fun e => e.source == src

/-- The Request Table's law (R28): no two entries share an index; the SHARED_POOL entries are at most the shared pool; a port holds
at most its reserved entries as RESERVED, and SHARED_POOL entries only while those are all in use. -/
def TableLaw (s : State) : Prop :=
  s.waiting.Pairwise (fun a b => a.index ≠ b.index) ∧ s.poolUse ≤ s.params.sharedPool ∧
    ∀ p, (s.entriesFrom p .reserved).length ≤ s.params.reservedEntries[p] ∧
      (s.entriesFrom p .sharedPool ≠ [] → (s.entriesFrom p .reserved).length = s.params.reservedEntries[p])

/-- The array is in canonical form and lies in the address space (R94). -/
def ArrayLaw (s : State) : Prop := memoryWf s.array = true ∧ ∀ c ∈ s.array, c.1 < Config.arrayBytes

/-- Every span of a lease and of an entry is valid (R10). -/
def SpanLaw (s : State) : Prop :=
  (∀ i t, (s.lease i).tenure? = some t → t.span.valid = true) ∧
    ∀ e ∈ s.waiting, ∀ m ∈ e.claim.spans, m.span.valid = true

end Sys2Proof.Machine
end

