-- ==== Sys2Proof/Certificates/Slice0/Obligations.lean ====
section
/-!
DEFINITION. Certificates/Slice0/Obligations.lean: the statements for the provers. `answer p k tag r b` queues at port p the response of
kind k with result r and body b; `afterPush s p m` is s after a PUSH of m frame bytes but for what the frame does (Safety.lean).
An equation `exec c s = .next t` states the command's whole frame: what t does not name is as in s. A statement about a command that
ends a transaction takes it, on a port with none in progress, as the whole transaction: its fall and then its rise (the model's
choice, log entry 1). `settles`, `takesFrame`, `working` and `collecting` say in which states such a command is settled.
-/

open Sys2Proof Sys2Proof.Machine

/-! ### Steps and the clock -/

/-- A step runs the command at the front of the queue on the state with the queue's rest. The queue is the model's form of
00_scope.md's order of events. -/
def Obligations.StepRunsFrontCommand : Prop :=
  ∀ (c : Instr) (rest : List Instr) (s : State),
    step { s with pending := c :: rest } = exec c { s with pending := rest }

/-- With no command waiting and no deadline outstanding a step is one REFCLK period (the model's choice, log entry 4): the prescaler
advances, and where it would pass its top value, by the tick period's length in R82, it returns to 0 and the tick counter
advances; a held clock stands. -/
def Obligations.IdleStepCountsRefclk : Prop :=
  ∀ s : State, s.pending = [] → s.outstanding = [] → s.clearingRuns = false →
    (s.clockHeld = true → step s = .next s) ∧
    (s.clockHeld = false →
      let top := [200, 800, 6250, 50000, 400000].getD s.params.tickPeriod.val 0
      (s.prescaler + 1 < top → step s = .next { s with prescaler := s.prescaler + 1 }) ∧
      (top ≤ s.prescaler + 1 → step s = .next { s with prescaler := 0, tick := s.tick + 1 }))

/-- TICK_EVENT (R81, R83, R86): with no deadline outstanding the counter advances by 1, modulo 2^32, and the prescaler returns to 0; a
single outstanding deadline is taken first, before the counter advances. While the clock is held there is no tick event. That the
command then has no effect, and that it stands for the REFCLK periods left of the tick, is the model's choice (log entry 6). -/
def Obligations.TickEventAdvancesCounter : Prop :=
  ∀ s : State,
    (s.clockHeld = true → exec .tickEvent s = .next s) ∧
    (s.clockHeld = false → s.outstanding = [] →
      exec .tickEvent s = .next { s with tick := s.tick + 1, prescaler := 0 }) ∧
    (s.clockHeld = false → ∀ d, s.outstanding = [d] → (takeDeadline d s).outstanding = [] →
      exec .tickEvent s = .next { takeDeadline d s with tick := (takeDeadline d s).tick + 1, prescaler := 0 })

/-- LEASE_DEADLINE (R68, R70): where the lease deadline equals the counter, the live lease is revoked EXPIRED with no strike, a
pending upgrade having ended REVOKED, a REVOKED notice joins the holder's list, and a grant scan runs. That the command has no effect
where the deadline is not reached, or not armed, is the model's choice (log entry 7). -/
def Obligations.LeaseDeadlineRevokes : Prop :=
  ∀ (i : Slot) (s : State) (t : Tenure),
    let revoked := fun (u : State) => grantScan (addNotice t.port
      { handle := u.handleOf i, kind := .revoked .expired, span := t.span, tick := s.tick }
      (u.setLease i (.revoked t .expired s.tick)))
    (∀ w, s.lease i = .granted t s.tick w none → exec (.leaseDeadline i) s = .next (revoked s)) ∧
    (∀ w r, s.lease i = .recalling t s.tick w r → exec (.leaseDeadline i) s = .next (revoked s)) ∧
    (∀ w tag e sp, s.lease i = .granted t s.tick w (some tag) → s.entryWithTag? t.port tag = some e →
      e.claim = .upgrade (s.handleOf i) sp →
      exec (.leaseDeadline i) s = .next (revoked (endEntry e .revoked .empty s))) ∧
    ((s.lease i).deadline? ≠ some s.tick → exec (.leaseDeadline i) s = .next s)

/-- WARNING_TICK (R50): the reached warning tick is removed; a GRANTED lease's holder gets an EXPIRING notice with the lease
deadline, in place of any notice of the record, at the tail; a RECALLING lease's gets none. That the command has no effect where the
warning tick is not reached, or not armed, is the model's choice (log entry 7). -/
def Obligations.WarningTickTellsHolder : Prop :=
  ∀ (i : Slot) (s : State) (t : Tenure) (d : Tick),
    (∀ u, s.lease i = .granted t d (some s.tick) u → exec (.warningTick i) s = .next (addNotice t.port
      { handle := s.handleOf i, kind := .expiring, span := t.span, tick := d }
      (s.setLease i (.granted t d none u)))) ∧
    (∀ r, s.lease i = .recalling t d (some s.tick) r →
      exec (.warningTick i) s = .next (s.setLease i (.recalling t d none r))) ∧
    ((s.lease i).warning? ≠ some s.tick → exec (.warningTick i) s = .next s)

/-- RECALL_DEADLINE (R71, R75, R76): the recalling lease is revoked RECALL_TIMEOUT with its REVOKED notice, then one strike is counted,
up to 15, then the port is fenced where FENCE_STRIKES is above 0 and reached, then one grant scan runs. That the command has no effect
where the recall deadline is not reached, or not armed, is the model's choice (log entry 7). -/
def Obligations.RecallDeadlineStrikes : Prop :=
  ∀ (i : Slot) (s : State) (t : Tenure) (d : Tick) (w : Option Tick),
    let revoked := addNotice t.port
      { handle := s.handleOf i, kind := .revoked .recallTimeout, span := t.span, tick := s.tick }
      (s.setLease i (.revoked t .recallTimeout s.tick))
    let strikes := min ((s.port t.port).strikes + 1) 15
    let struck := revoked.modifyPort t.port fun h => { h with strikes := strikes }
    (s.lease i = .recalling t d w s.tick →
      (s.params.fenceStrikes = 0 ∨ strikes < s.params.fenceStrikes →
        exec (.recallDeadline i) s = .next (grantScan struck)) ∧
      (0 < s.params.fenceStrikes → s.params.fenceStrikes ≤ strikes →
        exec (.recallDeadline i) s = .next (grantScan (fencePort t.port struck)))) ∧
    ((s.lease i).recallAt? ≠ some s.tick → exec (.recallDeadline i) s = .next s)

/-- The fence (R77, R78): the port is FENCED with FENCE# asserted and its strike count kept; its waiting entries are gone, a FENCED response
for each queued in waiting-list order; each of its live leases is a tombstone with cause FENCED and the tick of the act, with a
REVOKED notice each, in ascending slot order at the end of its list; its tombstones, the other ports, their records and entries,
the grant counter and the device are as they were. -/
def Obligations.FenceTakesEveryLease : Prop :=
  ∀ (p : Port) (s : State),
    let t := fencePort p s
    let mine := allSlots.filter fun i => (s.lease i).live?.map (·.port) == some p
    (t.port p).state = .fenced ∧ (t.port p).fenceLine = true ∧ (t.port p).strikes = (s.port p).strikes ∧
    (t.port p).queue = (s.port p).queue ++
      (s.entriesOf p).map (fun e => responseTo (kindCode e.claim.kind) e.tag .fenced .empty) ∧
    (t.port p).notices = (s.port p).notices.filter (fun n => !mine.contains n.handle.slot) ++
      mine.filterMap (fun i => (s.lease i).live?.map fun l =>
        { handle := s.handleOf i, kind := .revoked .fenced, span := l.span, tick := s.tick }) ∧
    t.waiting = s.waiting.filter (fun e => e.port != p) ∧
    (∀ i l, (s.lease i).live? = some l → l.port = p → t.lease i = .revoked l .fenced s.tick) ∧
    (∀ i, i ∉ mine → t.lease i = s.lease i) ∧ (∀ i, (t.record i).generation = (s.record i).generation) ∧
    (∀ q, q ≠ p → t.port q = s.port q) ∧ t.grantCounter = s.grantCounter ∧ SameDevice s t

/-- WAIT_DEADLINE (R45): the entry whose wait deadline equals the counter ends WAIT_EXPIRED, and a grant scan runs. That the command has
no effect where the deadline is not reached, or its entry has left, is the model's choice (log entry 7). -/
def Obligations.WaitDeadlineEndsEntry : Prop :=
  ∀ (x : EntryIndex) (s : State),
    (∀ e, s.entryAt? x = some e → e.waitDeadline = s.tick →
      exec (.waitDeadline x) s = .next (grantScan (endEntry e .waitExpired .empty s))) ∧
    ((∀ e, s.entryAt? x = some e → e.waitDeadline ≠ s.tick) → exec (.waitDeadline x) s = .next s)

/-! ### Entries, grants, recalls and the scan -/

/-- An entry that leaves with a response (R29, R31), in a Request Table that meets its law: it alone leaves the waiting list, whose
order stands; where it was RESERVED and its port holds SHARED_POOL entries, the earliest of those becomes RESERVED; an UPGRADE's
lease loses its pending upgrade; the response joins its port's queue. -/
def Obligations.EndedEntryLeaves : Prop :=
  ∀ (before after : List Entry) (e : Entry) (r : Result) (b : Body) (s : State),
    s.waiting = before ++ e :: after → (∀ x ∈ before ++ after, x.index ≠ e.index) →
    let t := endEntry e r b s
    let pool := (before ++ after).filter fun x => x.port == e.port && x.source == .sharedPool
    ((e.source = .sharedPool ∨ pool = []) → t.waiting = before ++ after) ∧
    (∀ front first back, e.source = .reserved → before ++ after = front ++ first :: back → first.port = e.port →
      first.source = .sharedPool → (∀ x ∈ front, ¬(x.port = e.port ∧ x.source = .sharedPool)) →
      t.waiting = front ++ { first with source := .reserved } :: back) ∧
    (∀ h sp l d w u, e.claim = .upgrade h sp → s.lease h.slot = .granted l d w u →
      t.lease h.slot = .granted l d w none ∧ ∀ i, i ≠ h.slot → t.record i = s.record i) ∧
    (∀ spans term, e.claim = .acquire spans term → t.leases = s.leases) ∧
    (t.port e.port).queue = (s.port e.port).queue ++
      [{ kind := kindCode e.claim.kind ||| 0x80#8, tag := e.tag, result := r, body := b }] ∧
    (∀ q, q ≠ e.port → t.port q = s.port q) ∧ t.grantCounter = s.grantCounter ∧ SameDevice s t

/-- Allocation (R5, R16): n spans take the n lowest FREE slots in span order, each with its generation raised by 1 modulo 1024, GRANTED to
the port with the span's mode and span, the next grant number, the deadline now + term, and a warning tick where WARN_MARGIN is
above 0 and below the term; every other record stands. An UPGRADE grant allocates no record: no generation changes, and each record is
held by the port that held it. -/
def Obligations.AllocationTakesLowestFreeSlots : Prop :=
  ∀ (p : Port) (term : Nat) (spans : List ModeSpan) (s : State), spans.length ≤ s.freeSlots.length →
    let r := allocate p term spans s
    let deadline := s.tick + BitVec.ofNat 32 term
    let warning := if 0 < s.params.warnMargin ∧ s.params.warnMargin < term
      then some (deadline - BitVec.ofNat 32 s.params.warnMargin) else none
    (∀ (k : Nat) (i : Slot) (m : ModeSpan), s.freeSlots[k]? = some i → spans[k]? = some m →
      r.1.record i = { generation := (s.record i).generation + 1,
                       state := .granted { port := p, mode := m.mode, span := m.span, grant := s.grantCounter + k + 1 }
                         deadline warning none } ∧
      r.2[k]? = some { handle := { slot := i, generation := (s.record i).generation + 1 },
                       grant := s.grantCounter + k + 1, deadline := deadline, stamp := spanStampOf s.stamps m.span }) ∧
    r.2.length = spans.length ∧ r.1.grantCounter = s.grantCounter + spans.length ∧
    (∀ i, i ∉ s.freeSlots.take spans.length → r.1.record i = s.record i) ∧
    r.1.ports = s.ports ∧ r.1.waiting = s.waiting ∧ SameDevice s r.1 ∧
    ∀ i j, ((upgradeRecord i s).record j).generation = (s.record j).generation ∧ (upgradeRecord i s).holder? j = s.holder? j

/-- A recall begun on a GRANTED lease (R63, R64): RECALLING with its recall deadline RECALL_WINDOW ticks from now and every other field
kept, and a RECALL notice with that deadline at the tail of the holder's list in place of any notice of the record; a pending
upgrade's entry ends RECALLED first. A recall decision does nothing to a lease in another state. -/
def Obligations.RecallBegins : Prop :=
  ∀ (i : Slot) (s : State),
    (∀ t d w, s.lease i = .granted t d w none →
      let deadline := s.tick + BitVec.ofNat 32 s.params.recallWindow
      beginRecall i s = addNotice t.port { handle := s.handleOf i, kind := .recallBegun, span := t.span, tick := deadline }
        (s.setLease i (.recalling t d w deadline))) ∧
    (∀ t d w tag e sp, s.lease i = .granted t d w (some tag) → s.entryWithTag? t.port tag = some e →
      e.claim = .upgrade (s.handleOf i) sp →
      let u := endEntry e .recalled .empty s
      u.lease i = .granted t d w none ∧ beginRecall i s = beginRecall i u) ∧
    ((∀ t d w u, s.lease i ≠ .granted t d w u) → beginRecall i s = s)

/-- The grant scan's frame (R35, R40): it leaves the array, the stamps, the clock, the phase and the parameters alone; each port keeps all
but its notices and the responses added at its queue's tail; no entry joins the waiting list and those that stay keep their
order; the grant counter does not fall; and it queues nothing to a port without waiting entries. -/
def Obligations.GrantScanFrame : Prop :=
  ∀ s : State,
    SameDevice s (grantScan s) ∧ (∀ p, OnlyCollects (s.port p) ((grantScan s).port p)) ∧
    ((grantScan s).waiting.map (·.index)).Sublist (s.waiting.map (·.index)) ∧
    s.grantCounter ≤ (grantScan s).grantCounter ∧
    ∀ p, s.entriesOf p = [] → ((grantScan s).port p).queue = (s.port p).queue

/-- The walk judges the entries in list order (R32 to R38, R40, R42). An empty list is left as it is. A grantable head with numbers enough
is granted, an ACQUIRE with its records allocated and an UPGRADE with its lease EXCLUSIVE under the next grant number, answered OK;
without them it ends EXHAUSTED, an UPGRADE's lease losing its pending upgrade and no record else changed; the walk goes on with the
rest of the list. A head that is held off begins the recall of its holders-off in ascending slot order and stays, and entries
blocked behind it cause nothing, however many. In a walk of any list an entry that conflicts with an earlier one still waiting at its
end waits too, where no recall of its own lease has ended it RECALLED. -/
def Obligations.GrantScanJudgesInListOrder : Prop :=
  (∀ s : State, s.waiting = [] → grantScan s = s) ∧
  (∀ (e : Entry) (rest : List Entry) (s : State), s.waiting = e :: rest → (∀ x ∈ rest, x.index ≠ e.index) →
    let off := s.holdersOff e.port e.claim.spans
    let gone := { s with waiting := withoutEntry e s.waiting }
    (off ≠ [] → (∀ w ∈ rest, anyConflict e.port e.claim.spans w.port w.claim.spans = true) →
      grantScan s = beginRecalls off s) ∧
    (off = [] → ∀ spans term, e.claim = .acquire spans term →
      (s.grantCounter + spans.length ≤ Config.maxGrant →
        let r := allocate e.port term spans gone
        grantScan s = grantScan (answer e.port .acquire e.tag .ok (.grants r.2) r.1)) ∧
      (Config.maxGrant < s.grantCounter + spans.length →
        grantScan s = grantScan (answer e.port .acquire e.tag .exhausted .empty gone))) ∧
    (off = [] → ∀ i sp t d w, e.claim = .upgrade (s.handleOf i) sp → s.lease i = .granted t d w (some e.tag) →
      (s.grantCounter + 1 ≤ Config.maxGrant →
        grantScan s = grantScan (answer e.port .upgrade e.tag .ok
          (.upgraded { handle := s.handleOf i, grant := s.grantCounter + 1, deadline := d, stamp := spanStampOf s.stamps t.span })
          { gone.setLease i (.granted { t with mode := .exclusive, grant := s.grantCounter + 1 } d w none) with
            grantCounter := s.grantCounter + 1 })) ∧
      (Config.maxGrant < s.grantCounter + 1 →
        grantScan s = grantScan (answer e.port .upgrade e.tag .exhausted .empty (gone.setLease i (.granted t d w none)))))) ∧
  ∀ (front mid back : List Entry) (x w : Entry) (s : State), s.waiting = front ++ x :: mid ++ w :: back →
    s.waiting.Pairwise (fun a b => a.index ≠ b.index) →
    anyConflict x.port x.claim.spans w.port w.claim.spans = true →
    let t := grantScan s
    (∃ y ∈ t.waiting, y.index = x.index) →
    (∃ v ∈ t.waiting, v.index = w.index ∧ v.port = w.port ∧ v.tag = w.tag ∧ v.claim = w.claim) ∨
      responseTo (kindCode w.claim.kind) w.tag .recalled .empty ∈ (t.port w.port).queue.drop (s.port w.port).queue.length

/-! ### Sessions and setup -/

/-- JOIN (R116, R151): from a DETACHED port whose waiting entries do not have its tag, the port becomes JOINED with a strike count of 0
and is answered OK with port, phase, identity 0x4E426A, revision 1 and tick, behind the responses it holds; from a JOINED or FENCED
port it is answered STATE or FENCED and changes nothing. -/
def Obligations.JoinOpensSession : Prop :=
  ∀ (p : Port) (tag : Tag) (s : State), takesFrame s p →
    ((s.port p).state = .detached → s.tagInUse p tag = false →
      exec (.join p tag []) s = .next (answer p .join tag .ok (.joined p s.phase s.tick)
        ((afterPush s p 6).modifyPort p fun h => { h with state := .joined, strikes := 0 }))) ∧
    ((s.port p).state = .joined → exec (.join p tag []) s = .next (answer p .join tag .state .empty (afterPush s p 6))) ∧
    ((s.port p).state = .fenced → exec (.join p tag []) s = .next (answer p .join tag .fenced .empty (afterPush s p 6))) ∧
    bodyBytes (.joined p s.phase s.tick) = leBytes 1 p.val ++ leBytes 1 (phaseCode s.phase) ++
      [0x6A#8, 0x42#8, 0x4E#8, 0x01#8] ++ leBytes 4 s.tick.toNat

/-- LEAVE (R118, R119): the port becomes DETACHED holding no record, entry or notice, OVERRUN clear, strike count 0, FENCE# deasserted, with the OK
of the LEAVE alone in its queue; its freed records keep their generations; then a grant scan runs. The other ports with their records,
entries, queues and notices, the grant counter, the array, the stamps, the clock, the phase and the parameters stand, but for what
the scan does, and the scan leaves the port with nothing more. -/
def Obligations.LeaveTearsDownThePort : Prop :=
  ∀ (p : Port) (tag : Tag) (s : State), takesFrame s p → ((s.port p).state = .joined ∨ (s.port p).state = .fenced) →
    s.tagInUse p tag = false →
    let left : HostPort := { s.port p with
      state := .detached, queue := [responseTo (kindCode .leave) tag .ok .empty], notices := [], overrun := false,
      strikes := 0, fenceLine := false, transaction := .none, sdo := shiftedStatus s p ++ List.replicate 6 0x00#8 }
    ∃ u, exec (.leave p tag []) s = .next (grantScan u) ∧ u.port p = left ∧ TornDown p s u ∧
      let t := grantScan u
      t.port p = left ∧
      (∀ i, t.holder? i ≠ some p) ∧ t.entriesOf p = [] ∧ t.credits p = 15 ∧ s.grantCounter ≤ t.grantCounter ∧
      SameDevice s t ∧
      (s.waiting.all (fun e => e.port == p) →
        t.grantCounter = s.grantCounter ∧
        ∀ i, t.record i = if s.holder? i = some p then { (s.record i) with state := .free } else s.record i)

/-- START (R149): from a JOINED port in SETUP, the phase becomes RUN and the tick is returned; in RUN it is answered NOT_SETUP. -/
def Obligations.StartEntersRun : Prop :=
  ∀ (p : Port) (tag : Tag) (s : State), takesFrame s p → (s.port p).state = .joined →
    (s.phase = .setup → s.tagInUse p tag = false →
      exec (.start p tag []) s = .next (answer p .start tag .ok (.count s.tick) { afterPush s p 6 with phase := .run })) ∧
    (s.phase = .run → exec (.start p tag []) s = .next (answer p .start tag .notSetup .empty (afterPush s p 6)))

/-- SET in SETUP (R84, R144 to R146): each identifier sets its parameter, within its range, and answers with the value now in force; TICK_PERIOD
also restarts the prescaler; the LEASE_QUOTA values may sum to at most 64. A value out of range is answered BAD_VALUE and changes
nothing. -/
def Obligations.SetChangesOneParameter : Prop :=
  ∀ (p : Port) (tag : Tag) (s : State) (v : Nat), takesFrame s p → (s.port p).state = .joined → s.phase = .setup →
    s.tagInUse p tag = false → v < 4294967296 →
    let set := fun (i q : Byte) => exec (.set p tag (setBody i q v)) s
    let done := fun (i q : Byte) (ps : Params) =>
      Host.Outcome.next (ρ := Refusal) (φ := Fault) (answer p .set tag .ok (.param i q v) { afterPush s p 12 with params := ps })
    let bad := Host.Outcome.next (ρ := Refusal) (φ := Fault) (answer p .set tag .badValue .empty (afterPush s p 12))
    (∀ h : v < 5, set 1 0 = .next (answer p .set tag .ok (.param 1 0 v)
      { afterPush s p 12 with params := { s.params with tickPeriod := ⟨v, h⟩ }, prescaler := 0 })) ∧
    (5 ≤ v → set 1 0 = bad) ∧
    set 2 0 = (if 1 ≤ v ∧ v ≤ 16777215 then done 2 0 { s.params with maxTerm := v } else bad) ∧
    set 3 0 = (if v ≤ 16777215 then done 3 0 { s.params with maxWait := v } else bad) ∧
    set 4 0 = (if 1 ≤ v ∧ v ≤ 65535 then done 4 0 { s.params with recallWindow := v } else bad) ∧
    set 5 0 = (if v ≤ 65535 then done 5 0 { s.params with warnMargin := v } else bad) ∧
    set 6 0 = (if v ≤ 15 then done 6 0 { s.params with fenceStrikes := v } else bad) ∧
    (∀ q : Port,
      set 7 (BitVec.ofNat 8 q.val) =
        (if v ≤ 64 ∧ (s.params.leaseQuota.set q v).toList.sum ≤ 64
          then done 7 (BitVec.ofNat 8 q.val) { s.params with leaseQuota := s.params.leaseQuota.set q v } else bad) ∧
      set 8 (BitVec.ofNat 8 q.val) =
        (if v ≤ 8 then done 8 (BitVec.ofNat 8 q.val) { s.params with reservedEntries := s.params.reservedEntries.set q v }
          else bad)) ∧
    (∀ i q : Byte, (i = 0 ∨ 8 < i.toNat ∨ (i.toNat ≤ 6 ∧ q ≠ 0) ∨ 3 < q.toNat) → set i q = bad)

/-- TIME (R92): from a DETACHED, JOINED or FENCED port it is answered OK with the tick counter, or TAG_IN_USE, and changes nothing
else, in every phase but CLEARING. -/
def Obligations.TimeReadsTheCounter : Prop :=
  ∀ (p : Port) (tag : Tag) (s : State), takesFrame s p →
    (s.tagInUse p tag = true → exec (.time p tag []) s = .next (answer p .time tag .tagInUse .empty (afterPush s p 6))) ∧
    (s.tagInUse p tag = false → exec (.time p tag []) s = .next (answer p .time tag .ok (.count s.tick) (afterPush s p 6)))

/-- GET_CONFIG (R148): it is answered OK with the phase and every parameter, or TAG_IN_USE, and changes nothing else. The body ends with the
shared pool size, 32 less the sum of RESERVED_ENTRIES. -/
def Obligations.GetConfigReportsParameters : Prop :=
  ∀ (p : Port) (tag : Tag) (s : State), takesFrame s p →
    (s.tagInUse p tag = true →
      exec (.getConfig p tag []) s = .next (answer p .getConfig tag .tagInUse .empty (afterPush s p 6))) ∧
    (s.tagInUse p tag = false →
      exec (.getConfig p tag []) s = .next (answer p .getConfig tag .ok (.config s.phase s.params) (afterPush s p 6))) ∧
    (bodyBytes (.config s.phase s.params)).length = 24 ∧
    (bodyBytes (.config s.phase s.params)).getLast? =
      some (BitVec.ofNat 8 (32 - (s.params.reservedEntries[0] + s.params.reservedEntries[1] + s.params.reservedEntries[2] +
        s.params.reservedEntries[3])))

/-- SYNC (R133): OVERRUN is cleared and the OK lists the tags of the port's waiting entries in waiting-list order; where its tag is in use it is
answered TAG_IN_USE and OVERRUN stands. -/
def Obligations.SyncClearsOverrun : Prop :=
  ∀ (p : Port) (tag : Tag) (s : State), takesFrame s p →
    (s.tagInUse p tag = true → exec (.sync p tag []) s = .next (answer p .sync tag .tagInUse .empty (afterPush s p 6))) ∧
    (s.tagInUse p tag = false →
      exec (.sync p tag []) s = .next (answer p .sync tag .ok (.tags ((s.entriesOf p).map (·.tag)))
        ((afterPush s p 6).modifyPort p fun h => { h with overrun := false })))

/-- Admission, phase, tag and body length (R113 to R115, R156): a known kind that the port's state or the phase refuses is answered with its own kind and
tag, the result the tables give and no body, and does nothing else, whatever its tag and body; from a JOINED port in RUN, one that
passes both and has the tag of one of the port's waiting entries is answered TAG_IN_USE, and the entry is not touched. One that passes
all three is answered RANGE, with no other effect, where its kind's layout fixes another body length (R160; R137 step 3, R145 step 4)
and, for READ and WRITE, where the body is too short for handle, address and length (R96 and R98, step 4). -/
def Obligations.CommonChecksRefuse : Prop :=
  ∀ (k : Kind) (p : Port) (tag : Tag) (body : List Byte) (s : State), takesFrame s p → body.length ≤ 272 →
    let refused := fun (r : Result) =>
      exec (commandOf k p tag body) s = .next (answer p k tag r .empty (afterPush s p (6 + body.length)))
    ((s.port p).state = .detached → k ∉ [Kind.join, .getConfig, .time, .sync] → refused .notJoined) ∧
    ((s.port p).state = .fenced →
      k ∉ [Kind.takeNotices, .ackRevoked, .query, .sync, .time, .getConfig, .leave] → refused .fenced) ∧
    ((s.port p).state = .joined → k = .join → refused .state) ∧
    ((s.port p).state = .joined → s.phase = .setup →
      k ∈ [Kind.acquire, .upgrade, .downgrade, .renew, .release, .cancel, .read, .write] → refused .notRunning) ∧
    ((s.port p).state = .joined → s.phase = .run → k ∈ [Kind.set, .start] → refused .notSetup) ∧
    ((s.port p).state = .joined → s.phase = .run → k ∉ [Kind.join, .set, .start] →
      (∃ e ∈ s.waiting, e.port = p ∧ e.tag = tag) → refused .tagInUse) ∧
    (((s.port p).state = .detached ∧ k ∈ [Kind.join, .getConfig, .time, .sync] ∨
        (s.port p).state = .fenced ∧ k ∈ [Kind.takeNotices, .ackRevoked, .query, .sync, .time, .getConfig, .leave] ∨
        (s.port p).state = .joined ∧ k ≠ .join) →
      (s.phase = .setup → k ∉ [Kind.acquire, .upgrade, .downgrade, .renew, .release, .cancel, .read, .write]) →
      (s.phase = .run → k ∉ [Kind.set, .start]) → s.tagInUse p tag = false →
      (∀ n, fixedLength? k = some n → body.length ≠ n → refused .range) ∧
      (k ∈ [Kind.read, .write] → body.length < 8 → refused .range))

/-! ### Lease requests -/

/-- ACQUIRE granted at settlement (R23 case 1, R24): where no span conflicts with a waiting entry or with a live lease of another port, the records
are allocated with the clamped term and the OK carries their grant records; even with a full Request Table. -/
def Obligations.AcquireGrantsAtOnce : Prop :=
  ∀ (p : Port) (tag : Tag) (a : AcquireRequest) (s : State), working s p tag → acquirable s p a.spans →
    a.term < 4294967296 → a.wait < 4294967296 →
    (∀ e ∈ s.waiting, ∀ m ∈ e.claim.spans, ∀ n ∈ a.spans, conflicts e.port m p n = false) →
    (∀ i t, (s.lease i).live? = some t → ∀ n ∈ a.spans, conflicts t.port t.modeSpan p n = false) →
    let term := if a.term = 0 ∨ s.params.maxTerm < a.term then s.params.maxTerm else a.term
    let r := allocate p term a.spans (afterPush s p (15 + 4 * a.spans.length))
    exec (.acquire p tag (acquireBody a)) s = .next (answer p .acquire tag .ok (.grants r.2) r.1)

/-- An ACQUIRE that passes its checks but is not grantable now (R23 cases 2 to 4, R25, R26, R28, R41): with a clamped wait limit of 0 it is
answered CONFLICT, with no place for it TABLE_BUSY, with no other effect; else it becomes an entry at the tail of the waiting list
with the lowest index not in use, and where it is not blocked behind an earlier entry the recall of its holders-off begins. R28 always
finds an index: that a table without one answers TABLE_BUSY is the model's choice for a state no run reaches (log entry 12). -/
def Obligations.AcquireWaitsOrIsRefused : Prop :=
  ∀ (p : Port) (tag : Tag) (a : AcquireRequest) (s : State), working s p tag → acquirable s p a.spans →
    a.term < 4294967296 → a.wait < 4294967296 → grantableNow p a.spans s = false →
    let term := if a.term = 0 ∨ s.params.maxTerm < a.term then s.params.maxTerm else a.term
    let wait := min a.wait s.params.maxWait
    let now := afterPush s p (15 + 4 * a.spans.length)
    let run := exec (.acquire p tag (acquireBody a)) s
    (wait = 0 → run = .next (answer p .acquire tag .conflict .empty now)) ∧
    (0 < wait → (s.admissionSource? p = none ∨ s.freeIndex? = none) →
      run = .next (answer p .acquire tag .tableBusy .empty now)) ∧
    (∀ src x, 0 < wait → s.admissionSource? p = some src → s.freeIndex? = some x →
      let e : Entry := { index := x, port := p, tag := tag, claim := .acquire a.spans term,
                         waitDeadline := s.tick + BitVec.ofNat 32 wait, source := src }
      let admitted := { now with waiting := s.waiting ++ [e] }
      (blockedBy s.waiting p a.spans = true → run = .next admitted) ∧
      (blockedBy s.waiting p a.spans = false → run = .next (beginRecalls (s.holdersOff p a.spans) admitted)))

/-- The last four checks of ACQUIRE, in order (R22): a body that is not an ACQUIRE's or holds an invalid span RANGE, a self-overlap SELF_OVERLAP,
too many records QUOTA, too few grant numbers EXHAUSTED; each with no other effect. -/
def Obligations.AcquireChecksInOrder : Prop :=
  ∀ (p : Port) (tag : Tag) (body : List Byte) (s : State), working s p tag → body.length ≤ 272 →
    let refused := fun (r : Result) =>
      exec (.acquire p tag body) s = .next (answer p .acquire tag r .empty (afterPush s p (6 + body.length)))
    (parseAcquire body = none → refused .range) ∧
    (∀ a, parseAcquire body = some a →
      (selfOverlaps p a.spans s = true → refused .selfOverlap) ∧
      (selfOverlaps p a.spans s = false →
        (s.params.leaseQuota[p] < s.quotaCount p + a.spans.length → refused .quota) ∧
        (s.quotaCount p + a.spans.length ≤ s.params.leaseQuota[p] →
          Config.maxGrant < s.grantCounter + a.spans.length → refused .exhausted)))

/-- UPGRADE of a GRANTED SHARED lease with no pending upgrade (R53, R54): where the span, taken as EXCLUSIVE, is grantable now, the lease is EXCLUSIVE
under the next grant number and the OK carries its grant record; else with a clamped wait limit of 0 CONFLICT, with no place
TABLE_BUSY, and else an entry at the tail whose tag is the lease's pending upgrade, judged alone. R28 always finds an index: that a
table without one answers TABLE_BUSY is the model's choice for a state no run reaches (log entry 12). -/
def Obligations.UpgradeSettles : Prop :=
  ∀ (p : Port) (tag : Tag) (i : Slot) (t : Tenure) (d : Tick) (w : Option Tick) (limit : Nat) (s : State), working s p tag →
    s.lease i = .granted t d w none → t.port = p → t.mode = .shared → s.grantCounter + 1 ≤ Config.maxGrant →
    limit < 4294967296 →
    let wanted : List ModeSpan := [{ mode := .exclusive, span := t.span }]
    let wait := min limit s.params.maxWait
    let now := afterPush s p 12
    let run := exec (.upgrade p tag (handleNumberBody (s.handleOf i) limit)) s
    (grantableNow p wanted s = true → run = .next (answer p .upgrade tag .ok
      (.upgraded { handle := s.handleOf i, grant := s.grantCounter + 1, deadline := d, stamp := spanStampOf s.stamps t.span })
      { now.setLease i (.granted { t with mode := .exclusive, grant := s.grantCounter + 1 } d w none) with
        grantCounter := s.grantCounter + 1 })) ∧
    (grantableNow p wanted s = false →
      (wait = 0 → run = .next (answer p .upgrade tag .conflict .empty now)) ∧
      (0 < wait → (s.admissionSource? p = none ∨ s.freeIndex? = none) →
        run = .next (answer p .upgrade tag .tableBusy .empty now)) ∧
      (∀ src x, 0 < wait → s.admissionSource? p = some src → s.freeIndex? = some x →
        let e : Entry := { index := x, port := p, tag := tag, claim := .upgrade (s.handleOf i) t.span,
                           waitDeadline := s.tick + BitVec.ofNat 32 wait, source := src }
        let admitted := { now.setLease i (.granted t d w (some tag)) with waiting := s.waiting ++ [e] }
        (blockedBy s.waiting p wanted = true → run = .next admitted) ∧
        (blockedBy s.waiting p wanted = false → run = .next (beginRecalls (s.holdersOff p wanted) admitted))))

/-- DOWNGRADE of a GRANTED EXCLUSIVE lease (R57): SHARED with every other field kept, answered OK, then a grant scan, which with an empty waiting
list does nothing. -/
def Obligations.DowngradeMakesShared : Prop :=
  ∀ (p : Port) (tag : Tag) (i : Slot) (t : Tenure) (d : Tick) (w : Option Tick) (u : Option Tag) (s : State), working s p tag →
    s.lease i = .granted t d w u → t.port = p → t.mode = .exclusive →
    let t' := answer p .downgrade tag .ok .empty
      ((afterPush s p 8).setLease i (.granted { t with mode := .shared } d w u))
    exec (.downgrade p tag (handleBody (s.handleOf i))) s = .next (grantScan t') ∧ (s.waiting = [] → grantScan t' = t')

/-- RENEW of a GRANTED lease (R48, R90): the deadline is now + clamped term, the warning tick is set again or absent, the record's EXPIRING notice is
removed, and the OK gives the handle and the new deadline; all else stands. -/
def Obligations.RenewSetsDeadline : Prop :=
  ∀ (p : Port) (tag : Tag) (i : Slot) (t : Tenure) (d : Tick) (w : Option Tick) (u : Option Tag) (n : Nat) (s : State),
    working s p tag → s.lease i = .granted t d w u → t.port = p → n < 4294967296 →
    let term := if n = 0 ∨ s.params.maxTerm < n then s.params.maxTerm else n
    let deadline := s.tick + BitVec.ofNat 32 term
    let warning := if 0 < s.params.warnMargin ∧ s.params.warnMargin < term
      then some (deadline - BitVec.ofNat 32 s.params.warnMargin) else none
    exec (.renew p tag (handleNumberBody (s.handleOf i) n)) s = .next (answer p .renew tag .ok
      (.renewed (s.handleOf i) deadline)
      (((afterPush s p 12).setLease i (.granted t deadline warning u)).modifyPort p fun h =>
        { h with notices := h.notices.filter fun m => !(m.handle.slot == i && m.kind == .expiring) }))

/-- RELEASE of a live lease (R60): a pending upgrade's entry ends CANCELLED, the record is FREE with its generation kept, the notice that names it is
removed, OK is queued, and a grant scan runs, which with an empty waiting list does nothing. -/
def Obligations.ReleaseFreesTheRecord : Prop :=
  ∀ (p : Port) (tag : Tag) (i : Slot) (t : Tenure) (s : State), working s p tag → t.port = p →
    let run := exec (.release p tag (handleBody (s.handleOf i))) s
    let freed := fun (u : State) => answer p .release tag .ok .empty ((u.setLease i .free).modifyPort p fun h =>
      { h with notices := h.notices.filter fun m => !(m.handle.slot == i) })
    ((∃ d w, s.lease i = .granted t d w none) ∨ (∃ d w r, s.lease i = .recalling t d w r) →
      run = .next (grantScan (freed (afterPush s p 8)))) ∧
    (∀ d w named e sp, s.lease i = .granted t d w (some named) → s.entryWithTag? p named = some e →
      e.claim = .upgrade (s.handleOf i) sp →
      run = .next (grantScan (freed (endEntry e .cancelled .empty (afterPush s p 8))))) ∧
    (s.waiting = [] → grantScan (freed (afterPush s p 8)) = freed (afterPush s p 8))

/-- RENEW, UPGRADE, DOWNGRADE and RELEASE refused (R47, R48, R52, R57, R60, R72): a stale handle BAD_HANDLE, a tombstone REVOKED, a lease in
RECALLING, but for RELEASE, RECALLED; of a GRANTED lease UPGRADE is refused MODE where it is EXCLUSIVE, else STATE where it has a
pending upgrade, else EXHAUSTED where no grant number is left (R52 steps 7 to 9), and DOWNGRADE is refused MODE where it is SHARED
(R57 step 7); nothing else changes. -/
def Obligations.HoldingRequestsRefused : Prop :=
  ∀ (p : Port) (tag : Tag) (h : Handle) (n : Nat) (s : State), working s p tag → n < 4294967296 →
    let upgrade := fun (r : Result) =>
      exec (.upgrade p tag (handleNumberBody h n)) s = .next (answer p .upgrade tag r .empty (afterPush s p 12))
    let downgrade := fun (r : Result) =>
      exec (.downgrade p tag (handleBody h)) s = .next (answer p .downgrade tag r .empty (afterPush s p 8))
    let refused := fun (r : Result) =>
      exec (.renew p tag (handleNumberBody h n)) s = .next (answer p .renew tag r .empty (afterPush s p 12)) ∧
      upgrade r ∧ downgrade r
    let release := fun (r : Result) =>
      exec (.release p tag (handleBody h)) s = .next (answer p .release tag r .empty (afterPush s p 8))
    (s.resolves p h = false → refused .badHandle ∧ release .badHandle) ∧
    (s.resolves p h = true →
      (∀ t c k, s.lease h.slot = .revoked t c k → refused .revoked ∧ release .revoked) ∧
      (∀ t d w r, s.lease h.slot = .recalling t d w r → refused .recalled) ∧
      (∀ t d w u, s.lease h.slot = .granted t d w u →
        (t.mode = .exclusive → upgrade .mode) ∧
        (t.mode = .shared → downgrade .mode ∧ (u ≠ none → upgrade .state) ∧
          (u = none → Config.maxGrant < s.grantCounter + 1 → upgrade .exhausted))))

/-- CANCEL (R43): the entry of the sending port with the tag in the body ends CANCELLED, then CANCEL is answered OK, then a grant scan runs; with no
such entry the answer is NOT_FOUND and nothing else changes. -/
def Obligations.CancelEndsTheEntry : Prop :=
  ∀ (p : Port) (tag named : Tag) (s : State), working s p tag →
    (∀ e, s.entryWithTag? p named = some e →
      exec (.cancel p tag [named]) s = .next (grantScan
        (answer p .cancel tag .ok .empty (endEntry e .cancelled .empty (afterPush s p 7))))) ∧
    ((∀ e ∈ s.waiting, ¬(e.port = p ∧ e.tag = named)) →
      exec (.cancel p tag [named]) s = .next (answer p .cancel tag .notFound .empty (afterPush s p 7)))

/-- QUERY (R18, R19): on a handle that resolves, from a JOINED or FENCED port, it is answered OK with the record as it stands and the span stamp,
the largest stamp over its span, and changes nothing; a stale handle is answered BAD_HANDLE. -/
def Obligations.QueryShowsTheRecord : Prop :=
  ∀ (p : Port) (tag : Tag) (h : Handle) (s : State), collecting s p tag →
    (∀ t, s.resolves p h = true → (s.lease h.slot).tenure? = some t →
      ∃ stamp, exec (.query p tag (handleBody h)) s =
          .next (answer p .query tag .ok (.view h (s.lease h.slot) stamp) (afterPush s p 8)) ∧
        (∀ b, t.span.first ≤ b → b < t.span.first + t.span.count → stampAt s.stamps b ≤ stamp) ∧
        (stamp = 0 ∨ ∃ b, t.span.first ≤ b ∧ b < t.span.first + t.span.count ∧ stampAt s.stamps b = stamp)) ∧
    (s.resolves p h = false →
      exec (.query p tag (handleBody h)) s = .next (answer p .query tag .badHandle .empty (afterPush s p 8)))

/-! ### The array -/

/-- READ under a live lease of either mode (R97): the OK carries the length bytes in address order and the largest stamp of the blocks touched;
nothing else changes. -/
def Obligations.ReadReturnsBytesAndStamp : Prop :=
  ∀ (p : Port) (tag : Tag) (i : Slot) (t : Tenure) (a n : Nat) (s : State), working s p tag →
    (s.lease i).live? = some t → t.port = p → 1 ≤ n → n ≤ 256 → a < 4294967296 → t.span.first * 512 ≤ a →
    a + n ≤ (t.span.first + t.span.count) * 512 →
    ∃ stamp bytes,
      exec (.read p tag (readBody (s.handleOf i) a n)) s =
        .next (answer p .read tag .ok (.data stamp bytes) (afterPush s p 14)) ∧
      bytes.length = n ∧ (∀ k, k < n → bytes[k]? = some (readByte s.array (a + k))) ∧
      (∀ x, a ≤ x → x < a + n → stampAt s.stamps (x / 512) ≤ stamp) ∧
      (stamp = 0 ∨ ∃ x, a ≤ x ∧ x < a + n ∧ stampAt s.stamps (x / 512) = stamp)

/-- WRITE under a live EXCLUSIVE lease (R99): the data bytes stand at the addresses carried and every other byte reads as before; the stamp of every
block touched is the lease's grant number and every other stamp stands; OK is queued; nothing else changes. -/
def Obligations.WriteStoresAndStamps : Prop :=
  ∀ (p : Port) (tag : Tag) (i : Slot) (t : Tenure) (a : Nat) (bs : List Byte) (s : State), working s p tag →
    (s.lease i).live? = some t → t.port = p → t.mode = .exclusive → t.span.valid = true → 1 ≤ bs.length → bs.length ≤ 256 →
    t.span.first * 512 ≤ a → a + bs.length ≤ (t.span.first + t.span.count) * 512 → memoryWf s.array = true →
    ∃ array stamps,
      exec (.write p tag (writeBody (s.handleOf i) a bs)) s = .next (answer p .write tag .ok .empty
        { afterPush s p (14 + bs.length) with array := array, stamps := stamps }) ∧
      (∀ k, k < bs.length → some (readByte array (a + k)) = bs[k]?) ∧
      (∀ x, x < a ∨ a + bs.length ≤ x → readByte array x = readByte s.array x) ∧
      (∀ b, stampAt stamps b =
        if a / 512 ≤ b ∧ b ≤ (a + bs.length - 1) / 512 then t.grant else stampAt s.stamps b)

/-- READ and WRITE refused (R96, R98, R100): a stale handle BAD_HANDLE, a tombstone REVOKED; under a live lease, WRITE on SHARED MODE, and else a
length outside 1 to 256, a range outside the span, a READ with bytes beyond its fields or a WRITE whose data bytes are not as many as
its length RANGE. No byte and no stamp changes. -/
def Obligations.AccessesRefused : Prop :=
  ∀ (p : Port) (tag : Tag) (h : Handle) (a n : Nat) (bs : List Byte) (s : State), working s p tag → a < 4294967296 →
    n < 65536 → bs.length ≤ 264 →
    let read := fun (r : Result) =>
      exec (.read p tag (readBody h a n)) s = .next (answer p .read tag r .empty (afterPush s p 14))
    let write := fun (r : Result) =>
      exec (.write p tag (writeBody h a bs)) s = .next (answer p .write tag r .empty (afterPush s p (14 + bs.length)))
    let outside := fun (t : Tenure) (m : Nat) =>
      m = 0 ∨ 256 < m ∨ a < t.span.first * 512 ∨ (t.span.first + t.span.count) * 512 < a + m
    (s.resolves p h = false → read .badHandle ∧ write .badHandle) ∧
    (s.resolves p h = true →
      (∀ t c k, s.lease h.slot = .revoked t c k → read .revoked ∧ write .revoked) ∧
      (∀ t, (s.lease h.slot).live? = some t →
        (outside t n → read .range) ∧
        (bs ≠ [] → exec (.read p tag (readBody h a n ++ bs)) s =
          .next (answer p .read tag .range .empty (afterPush s p (14 + bs.length)))) ∧
        (t.mode = .shared → write .mode) ∧
        (t.mode = .exclusive → outside t bs.length → write .range) ∧
        (t.mode = .exclusive → n ≠ bs.length → exec (.write p tag (readBody h a n ++ bs)) s =
          .next (answer p .write tag .range .empty (afterPush s p (14 + bs.length))))))

/-! ### Notices and tombstones -/

/-- TAKE_NOTICES (R137): the oldest notices, up to the max count of 1 to 16, are removed and returned oldest first, and the rest stay; another max
count is answered RANGE. -/
def Obligations.TakeNoticesReturnsOldest : Prop :=
  ∀ (p : Port) (tag : Tag) (n : Byte) (s : State), collecting s p tag →
    (1 ≤ n.toNat → n.toNat ≤ 16 →
      ∃ taken left, (s.port p).notices = taken ++ left ∧ taken.length = min n.toNat (s.port p).notices.length ∧
        exec (.takeNotices p tag [n]) s = .next (answer p .takeNotices tag .ok (.notices taken)
          ((afterPush s p 7).modifyPort p fun h => { h with notices := left }))) ∧
    ((n = 0 ∨ 16 < n.toNat) →
      exec (.takeNotices p tag [n]) s = .next (answer p .takeNotices tag .range .empty (afterPush s p 7)))

/-- ACK_REVOKED (R74): a tombstone's record is FREE with its generation kept, its notice is gone and OK is queued, with no grant scan; a live lease is
answered STATE and a stale handle BAD_HANDLE, with no other effect. -/
def Obligations.AckRevokedFreesTombstone : Prop :=
  ∀ (p : Port) (tag : Tag) (h : Handle) (s : State), collecting s p tag →
    let run := exec (.ackRevoked p tag (handleBody h)) s
    (∀ t c k, s.resolves p h = true → s.lease h.slot = .revoked t c k →
      run = .next (answer p .ackRevoked tag .ok .empty (((afterPush s p 8).setLease h.slot .free).modifyPort p fun g =>
        { g with notices := g.notices.filter fun m => !(m.handle.slot == h.slot) }))) ∧
    (∀ t, s.resolves p h = true → (s.lease h.slot).live? = some t →
      run = .next (answer p .ackRevoked tag .state .empty (afterPush s p 8))) ∧
    (s.resolves p h = false → run = .next (answer p .ackRevoked tag .badHandle .empty (afterPush s p 8)))

/-! ### The link -/

/-- A taken frame that fails the integrity check of R155 is answered BAD_FRAME in any port state, with its kind byte with bit 7 set, its
tag, or 0 where fewer than two bytes arrived, and no body; an intact one whose kind byte is none of R156's codes, and so every one
with bit 7 set, is answered BAD_KIND. Nothing else changes. -/
def Obligations.UnreadableFramesAnswered : Prop :=
  ∀ (p : Port) (s : State), takesFrame s p →
    (∀ f : List Byte, f ≠ [] →
      let l := leValue ((f.drop 2).take 2)
      (f.length < 6 ∨ 272 < l ∨ f.length ≠ 4 + l + 2 ∨ f.drop (4 + l) ≠ crcField (f.take (4 + l))) →
      exec (.badFrame p f) s = .next (queueResponse p
        { kind := f.getD 0 0#8 ||| 0x80#8, tag := f.getD 1 0#8, result := .badFrame, body := .empty }
        (afterPush s p f.length))) ∧
    (∀ (kind : Byte) (tag : Tag) (body : List Byte), body.length ≤ 272 →
      kind ∉ [0x01#8, 0x02#8, 0x03#8, 0x04#8, 0x05#8, 0x06#8, 0x07#8, 0x10#8, 0x11#8, 0x12#8, 0x13#8, 0x14#8, 0x15#8,
        0x16#8, 0x20#8, 0x21#8, 0x30#8, 0x31#8] →
      exec (.badKind p kind tag body) s = .next (queueResponse p
        { kind := kind ||| 0x80#8, tag := tag, result := .badKind, body := .empty } (afterPush s p (6 + body.length))))

/-- At the rise that ends a PUSH the credits are looked at first (R131): at 0 the frame, whatever its bytes and also one of a known kind, is
discarded and OVERRUN set, and nothing else changes; above 0 it is taken. That the command PUSH_DISCARDED, given above 0 credits, is a
frame taken is the model's choice (log entry 8). -/
def Obligations.PushAtZeroCreditsDiscarded : Prop :=
  ∀ (p : Port) (f : List Byte) (s : State), settlesPush s p → f ≠ [] →
    (s.credits p = 0 →
      exec (.pushDiscarded p f) s =
        .next ((afterPush s p f.length).modifyPort p fun h => { h with overrun := true }) ∧
      ∀ k tag body, exec (commandOf k p tag body) s =
        .next ((afterPush s p (6 + body.length)).modifyPort p fun h => { h with overrun := true })) ∧
    (0 < s.credits p → exec (.pushDiscarded p f) s = .next (takeFrame p f (afterPush s p f.length)))

/-- Transactions that take and remove nothing (R111, R141, R152 to R154): a PUSH in CLEARING, a PUSH with no whole frame byte, a STATUS,
and one with no type or an unknown type end with the port's transaction over and its status bytes and zeros shifted, and nothing
else changed; one that the part ignores until its rise ends, whatever its bytes, with nothing changed but that it is over, and so does
one that begins and ends on a port that is ABSENT or while RESET# is asserted. -/
def Obligations.TransactionsWithoutFrame : Prop :=
  ∀ (p : Port) (s : State),
    (settles s p = true →
      (∀ f, s.phase = .clearing → exec (.pushInClearing p f) s = .next (afterPush s p f.length)) ∧
      (∀ rest, rest.length ≤ 1 → exec (.pushNoFrame p rest) s = .next (afterTransaction s p (rest.length + 1) [])) ∧
      (∀ n, exec (.status p n) s = .next (afterTransaction s p n [])) ∧
      (∀ bs, (∀ b, bs.head? = some b → b ≠ 0x5A#8 ∧ b ≠ 0xA6#8 ∧ b ≠ 0x3C#8) →
        exec (.otherTransaction p bs) s = .next (afterTransaction s p bs.length []))) ∧
    ((s.port p).transaction = .ignored ∨
        (s.port p).transaction = .none ∧ ((s.port p).state = .absent ∨ s.resetAsserted = true) →
      let ended := Host.Outcome.next (ρ := Refusal) (φ := Fault) (s.modifyPort p fun h => { h with transaction := .none })
      (∀ k tag body, exec (commandOf k p tag body) s = ended) ∧
      (∀ f, exec (.badFrame p f) s = ended ∧ exec (.pushDiscarded p f) s = ended ∧ exec (.pushInClearing p f) s = ended) ∧
      (∀ kind tag body, exec (.badKind p kind tag body) s = ended) ∧ (∀ rest, exec (.pushNoFrame p rest) s = ended) ∧
      (∀ n, exec (.pull p n) s = ended) ∧ (∀ n, exec (.status p n) s = ended) ∧
      ∀ bs, exec (.otherTransaction p bs) s = ended)

/-- PULL (R127, R157): it shifts, after the status bytes, the frame fixed at its fall and zeros after it; where every byte of the frame was shifted the
head of the queue is removed, and else it stays; with no frame fixed it shifts the empty frame of eight bytes and removes nothing. -/
def Obligations.PullRemovesTheShiftedHead : Prop :=
  ∀ (p : Port) (n : Nat) (s : State), settles s p = true →
    (∀ r, fixedHead s p = some r →
      let done := afterTransaction s p n (responseFrame r)
      ((responseFrame r).length + 2 ≤ n →
        exec (.pull p n) s = .next (done.modifyPort p fun h => { h with queue := h.queue.tail })) ∧
      (n < (responseFrame r).length + 2 → exec (.pull p n) s = .next done)) ∧
    (fixedHead s p = none →
      exec (.pull p n) s =
        .next (afterTransaction s p n ([0x80#8, 0x00#8, 0x00#8, 0x00#8, 0x00#8, 0x00#8] ++
          crcField [0x80#8, 0x00#8, 0x00#8, 0x00#8, 0x00#8, 0x00#8])))

/-- CS_FALLS (R111, R152, R153): on a port that answers it fixes the status bytes, whose bits are the credits, RESP pending, NOTICE pending, OVERRUN, and the
port state, the phase and READY, and the head frame; on one that is ABSENT or while RESET# is asserted the transaction is ignored. In
CLEARING a PULL shifts the empty frame (R141), and that no head frame is fixed there is the model's way to say so (log entry 17). With
a transaction in progress there is no fall, and that the command then has no effect is the model's choice (log entry 7). -/
def Obligations.ChipSelectFixesStatus : Prop :=
  ∀ (p : Port) (s : State),
    ((s.port p).transaction = .none → (s.port p).state ≠ .absent → s.resetAsserted = false →
      ∃ b0 b1 head, exec (.csFalls p) s = .next (s.modifyPort p fun h => { h with transaction := .running b0 b1 head }) ∧
        b0.toNat % 32 = 16 - ((s.port p).queue.length + (s.entriesOf p).length) ∧
        b0.getLsbD 5 = !(s.port p).queue.isEmpty ∧ b0.getLsbD 6 = !(s.port p).notices.isEmpty ∧
        b0.getLsbD 7 = (s.port p).overrun ∧
        b1.toNat % 4 = (match (s.port p).state with | .joined => 1 | .fenced => 2 | _ => 0) ∧
        b1.toNat / 4 % 4 = (match s.phase with | .clearing => 0 | .setup => 1 | .run => 2) ∧
        b1.getLsbD 4 = (s.phase != .clearing) ∧ b1.toNat < 32 ∧
        head = if s.phase = .clearing then none else (s.port p).queue.head?) ∧
    ((s.port p).transaction = .none → ((s.port p).state = .absent ∨ s.resetAsserted = true) →
      exec (.csFalls p) s = .next (s.modifyPort p fun h => { h with transaction := .ignored })) ∧
    ((s.port p).transaction ≠ .none → exec (.csFalls p) s = .next s)

/-! ### Frames as bytes -/

/-- The request frame's decoder and encoder agree (R154, R155, R158): a frame built with its length and CRC is intact and gives back its kind byte, tag and
body, for every body of up to 272 bytes. -/
def Obligations.RequestFrameRoundTrip : Prop :=
  ∀ (kind : Byte) (tag : Tag) (body : List Byte), body.length ≤ 272 →
    let f := requestFrame kind tag body
    frameIntact f = true ∧ frameKind f = kind ∧ frameTag f = tag ∧ frameBody f = body ∧ f.length = 6 + body.length

/-- The bytes on the link are the command (R152, R154 to R156): a transaction of type 0x5A whose frame bytes are an intact frame of a known kind does exactly
what the command of that kind does, in every state. That OTHER_TRANSACTION is settled by its bytes, whatever its row's name, and that a
request row stands for its whole frame, is the model's choice (log entry 8). -/
def Obligations.PushedBytesAreTheCommand : Prop :=
  ∀ (k : Kind) (p : Port) (tag : Tag) (body : List Byte) (byte1 : Byte) (s : State), body.length ≤ 272 →
    exec (.otherTransaction p (0x5A#8 :: byte1 :: requestFrame (kindCode k) tag body)) s = exec (commandOf k p tag body) s

/-- The request bodies' decoders and encoders agree (R159, R160): every handle, every number of its field's size and every ACQUIRE of 1 to 4 valid spans is read
back from the body that carries it. -/
def Obligations.RequestBodiesRoundTrip : Prop :=
  (∀ h, parseHandle (handleBody h) = some h) ∧
  (∀ h n, n < 4294967296 → parseHandleNumber (handleNumberBody h n) = some (h, n)) ∧
  (∀ i q v, v < 4294967296 → parseSet (setBody i q v) = some (i, q, v)) ∧
  (∀ h a n, a < 4294967296 → n < 65536 → parseAccess (readBody h a n) = some (h, a, n, [])) ∧
  (∀ h a (bs : List Byte), a < 4294967296 → bs.length < 65536 →
    parseAccess (writeBody h a bs) = some (h, a, bs.length, bs)) ∧
  ∀ r : AcquireRequest, r.term < 4294967296 → r.wait < 4294967296 → 1 ≤ r.spans.length → r.spans.length ≤ 4 →
    (∀ m ∈ r.spans, m.span.valid = true) → parseAcquire (acquireBody r) = some r

/-- Handles (R3): a handle's value is generation × 64 + slot, every 16-bit value names slot (value modulo 64) and generation (value divided by 64), and grant
records, notices and views begin with it. -/
def Obligations.HandleValues : Prop :=
  (∀ h : Handle, h.value = h.generation.val * 64 + h.slot.val ∧ h.value < 65536 ∧ handleOfValue h.value = h) ∧
  (∀ v, v < 65536 → (handleOfValue v).slot.val = v % 64 ∧ (handleOfValue v).generation.val = v / 64 ∧
    (handleOfValue v).value = v) ∧
  (∀ g, (grantBytes g).take 2 = leBytes 2 g.handle.value) ∧ (∀ n, (noticeBytes n).take 2 = leBytes 2 n.handle.value) ∧
  ∀ h l st, (viewBytes h l st).take 2 = leBytes 2 h.value

/-! ### PRESENT, power-on and RESET# -/

/-- PRESENT (R110, R111, R119): its rise makes an ABSENT port DETACHED, but not while RESET# is asserted. Its fall abandons a transaction in
progress and tears a port that is not ABSENT down to ABSENT, holding nothing, its freed records keeping their generations, and then a
grant scan runs; the other ports with their records, entries, queues and notices, the grant counter and the device stand, but for
what the scan does, and the scan leaves the port with nothing. That a command for a level that does not change has no effect is the
model's choice (log entry 7). -/
def Obligations.PresentMoves : Prop :=
  ∀ (p : Port) (s : State),
    let gone := if (s.port p).transaction = .none then Transaction.none else .ignored
    ((s.port p).present = false → (s.port p).state = .absent →
      exec (.presentRises p) s = .next (s.modifyPort p fun h =>
        { h with present := true, state := if s.resetAsserted then .absent else .detached })) ∧
    ((s.port p).present = true → exec (.presentRises p) s = .next s) ∧
    ((s.port p).present = true → (s.port p).state = .absent →
      exec (.presentFalls p) s = .next (s.modifyPort p fun h => { h with present := false, transaction := gone })) ∧
    ((s.port p).present = true → (s.port p).state ≠ .absent →
      let bare : HostPort := { present := false, state := .absent, queue := [], notices := [], overrun := false, strikes := 0,
                               fenceLine := false, sdo := (s.port p).sdo, transaction := gone }
      ∃ u, exec (.presentFalls p) s = .next (grantScan u) ∧ u.port p = bare ∧ TornDown p s u ∧
        let t := grantScan u
        t.port p = bare ∧ (∀ i, t.holder? i ≠ some p) ∧ t.entriesOf p = [] ∧ SameDevice s t) ∧
    ((s.port p).present = false → exec (.presentFalls p) s = .next s)

/-- POWER_ON (R141): CLEARING, RESET# not taken as asserted (log entry 5), every record FREE with generation 0, the grant counter 0, no entry, the clock at 0,
every stamp 0, every parameter at its value after reset, and every port DETACHED or ABSENT by its PRESENT with nothing in it. -/
def Obligations.PowerOnState : Prop :=
  ∀ s : State, ∃ t, exec .powerOn s = .next t ∧ t.phase = .clearing ∧ t.resetAsserted = false ∧ t.clearCount = 0 ∧
    (∀ i, t.record i = { generation := 0, state := .free }) ∧ t.grantCounter = 0 ∧ t.waiting = [] ∧ t.tick = 0 ∧
    t.prescaler = 0 ∧ (∀ b, stampAt t.stamps b = 0) ∧
    t.params = { tickPeriod := 2, maxTerm := 80000, maxWait := 80000, recallWindow := 800, warnMargin := 0,
                 fenceStrikes := 3, leaseQuota := #v[16, 16, 16, 16], reservedEntries := #v[4, 4, 4, 4] } ∧
    (∀ p, t.port p = { present := (s.port p).present, state := if (s.port p).present then .detached else .absent,
                       queue := [], notices := [], overrun := false, strikes := 0, fenceLine := false,
                       transaction := .none, sdo := [] }) ∧
    t.pending = s.pending ∧ t.choices = s.choices

/-- CLEARING_END (R105, R142): every byte and every stamp reads 0, and the part is in SETUP with the clock at 0, or, with RESET# asserted, still in CLEARING; the count
of 16,384 REFCLK periods brings it about. That the command stands for the periods left, and that a step with an empty queue is one
REFCLK period, is the model's choice (log entries 6 and 4). -/
def Obligations.ClearingEnds : Prop :=
  ∀ s : State, s.phase = .clearing → s.clearCount < 16384 →
    (∃ t, exec .clearingEnd s = .next t ∧ (∀ a, readByte t.array a = 0) ∧ (∀ b, stampAt t.stamps b = 0) ∧
      t.phase = (if s.resetAsserted then .clearing else .setup) ∧ t.tick = 0 ∧ t.prescaler = 0 ∧ t.clearingRuns = false ∧
      t.ports = s.ports ∧ t.leases = s.leases ∧ t.waiting = s.waiting ∧ t.grantCounter = s.grantCounter ∧
      t.params = s.params ∧ t.resetAsserted = s.resetAsserted) ∧
    (s.pending = [] → s.outstanding = [] →
      (s.clearCount + 1 < 16384 → step s = .next { s with clearCount := s.clearCount + 1 }) ∧
      (s.clearCount + 1 = 16384 → step s = exec .clearingEnd s))

/-- RESET# (R106, R143): low for fewer than 50 REFCLK periods it is ignored; taken as asserted, it leaves every record FREE with generation 0, the grant
counter 0, no entry, the clock at 0 and held, every stamp 0, every parameter at its value after reset, every port empty with its
transaction abandoned, the array's bytes as they were, and the phase SETUP unless in CLEARING; at its deassertion the same tables stand,
each port's state is by its PRESENT, and the phase is SETUP once clearing has ended. That the port state is by PRESENT at the assertion
already is read from R124 by inference (log entry 9), and that RESET_DEASSERTED without an assertion has no effect is the model's
choice (log entry 7). -/
def Obligations.ResetLine : Prop :=
  ∀ s : State,
    (∀ n, n < 50 → exec (.resetAsserted n) s = .next s) ∧
    (let empty := fun (t : State) =>
      (∀ i, t.record i = { generation := 0, state := .free }) ∧ t.grantCounter = 0 ∧ t.waiting = [] ∧ t.tick = 0 ∧
      t.prescaler = 0 ∧ (∀ b, stampAt t.stamps b = 0) ∧ t.array = s.array ∧ t.clearCount = s.clearCount ∧
      t.params = { tickPeriod := 2, maxTerm := 80000, maxWait := 80000, recallWindow := 800, warnMargin := 0,
                   fenceStrikes := 3, leaseQuota := #v[16, 16, 16, 16], reservedEntries := #v[4, 4, 4, 4] } ∧
      ∀ p, t.port p = { present := (s.port p).present, state := if (s.port p).present then .detached else .absent,
                        queue := [], notices := [], overrun := false, strikes := 0, fenceLine := false,
                        sdo := (s.port p).sdo,
                        transaction := if (s.port p).transaction = .none then .none else .ignored }
    (∀ n, 50 ≤ n → s.resetAsserted = false → ∃ t, exec (.resetAsserted n) s = .next t ∧ empty t ∧ t.resetAsserted = true ∧
      t.clockHeld = true ∧ t.phase = if s.phase = .clearing then .clearing else .setup) ∧
    (s.resetAsserted = true → ∃ t, exec .resetDeasserted s = .next t ∧ empty t ∧ t.resetAsserted = false ∧
      t.phase = if s.phase = .clearing ∧ s.clearCount < 16384 then .clearing else .setup) ∧
    (s.resetAsserted = false → exec .resetDeasserted s = .next s))

/-! ### Invariants and whole-machine rules -/

/-- Every step keeps the credit law (R130): for every port, queued responses plus waiting entries never exceed 16. -/
def Obligations.StepKeepsCreditLaw : Prop :=
  ∀ s t : State, CreditLaw s → step s = .next t → CreditLaw t

/-- Every step keeps the conflict law (R12): two live leases of different ports overlap only if both are SHARED; with it, that every waiting
UPGRADE names its own GRANTED lease with its span and that no two waiting entries of a port share a tag; and with those the law of
R13: no two live leases of one port overlap, and no span of a waiting ACQUIRE overlaps another span of its request or of its port's
live leases and waiting entries. -/
def Obligations.StepKeepsLeaseLaw : Prop :=
  ∀ s t : State, LeaseLaw s → step s = .next t → LeaseLaw t ∧ (SelfOverlapLaw s → SelfOverlapLaw t)

/-- Every step keeps the port law and the fence law (R112, R121): an ABSENT or DETACHED port holds no record, entry or notice, an ABSENT one no response, and FENCE# is
asserted exactly while the port is FENCED. -/
def Obligations.StepKeepsPortLaws : Prop :=
  ∀ s t : State, (PortLaw s → step s = .next t → PortLaw t) ∧ (FenceLaw s → step s = .next t → FenceLaw t)

/-- Every step keeps the stamp law (R16, R102): every block stamp, and the grant number of every record, is at most the last grant number issued, and that is
at most 4,294,967,295. -/
def Obligations.StepKeepsStampLaw : Prop :=
  ∀ s t : State, StampLaw s → step s = .next t → StampLaw t

/-- Every step keeps the notice law (R136): every notice names a record of its own port that is live or a tombstone, and no record has more than one notice. -/
def Obligations.StepKeepsNoticeLaw : Prop :=
  ∀ s t : State, NoticeLaw s → step s = .next t → NoticeLaw t

/-- Every step keeps leases and entries to the RUN phase (R15), and with that the quota law (R14) and the Request Table's law
(R28). -/
def Obligations.StepKeepsQuotaAndTableLaws : Prop :=
  ∀ s t : State, OnlyInRun s → step s = .next t →
    OnlyInRun t ∧ (QuotaLaw s → QuotaLaw t) ∧ (TableLaw s → TableLaw t)

/-- Every step keeps the array in its canonical form and in its 262,144 bytes, and every span valid (R10, R94, R95). -/
def Obligations.StepKeepsArrayLaw : Prop :=
  ∀ s t : State, ArrayLaw s ∧ SpanLaw s → step s = .next t → ArrayLaw t ∧ SpanLaw t

/-- The laws hold right after power-on. -/
def Obligations.ResetMeetsTheLaws : Prop :=
  CreditLaw State.reset ∧ LeaseLaw State.reset ∧ SelfOverlapLaw State.reset ∧ PortLaw State.reset ∧ FenceLaw State.reset ∧
    StampLaw State.reset ∧ NoticeLaw State.reset ∧ OnlyInRun State.reset ∧ QuotaLaw State.reset ∧ TableLaw State.reset ∧ ArrayLaw State.reset ∧
    SpanLaw State.reset

/-- A byte of the array changes only by power-on clearing, or by a WRITE taken from a port that at that moment holds a live EXCLUSIVE lease
whose span covers every byte written (R99): the step's command is a transaction at that port that pushes an intact WRITE frame, whose
handle is the lease's, and the byte is one of those it writes. -/
def Obligations.BytesChangeOnlyUnderExclusiveLease : Prop :=
  ∀ (s t : State) (a : Nat), step s = .next t → memoryWf s.array = true → readByte t.array a ≠ readByte s.array a →
    s.phase = .clearing ∨ s.pending.head? = some .powerOn ∨
      ∃ (c : Instr) (f : List Byte) (h : Handle) (first n : Nat) (bs : List Byte) (l : Tenure),
        s.pending.head? = some c ∧ Pushes c l.port f ∧ frameIntact f = true ∧ frameKind f = 0x21#8 ∧
        parseAccess (frameBody f) = some (h, first, n, bs) ∧ bs.length = n ∧
        (s.port l.port).state = .joined ∧ s.phase = .run ∧
        s.resolves l.port h = true ∧ (s.lease h.slot).live? = some l ∧ l.mode = .exclusive ∧
        l.span.first * 512 ≤ first ∧ first + n ≤ (l.span.first + l.span.count) * 512 ∧
        first ≤ a ∧ a < first + n ∧ some (readByte t.array a) = bs[a - first]?

/-- A lease that has entered RECALLING never returns to GRANTED (R66): after a step its slot is RECALLING with the recall deadline it had, a tombstone of it, or
FREE, or it has been freed and allocated again under the next generation. -/
def Obligations.RecallingNeverReturnsToGranted : Prop :=
  ∀ (s t : State) (i : Slot) (l : Tenure) (d : Tick) (w : Option Tick) (r : Tick), s.lease i = .recalling l d w r →
    step s = .next t →
    (∃ w', t.lease i = .recalling l d w' r) ∨ (∃ c k, t.lease i = .revoked l c k) ∨ t.lease i = .free ∨
      (t.record i).generation = (s.record i).generation + 1

/-- Between resets the configuration parameters change only in the SETUP phase (R146): a step that changes one starts in SETUP or runs POWER_ON, RESET_ASSERTED or
RESET_DEASSERTED. -/
def Obligations.ParametersChangeOnlyInSetup : Prop :=
  ∀ s t : State, step s = .next t → t.params ≠ s.params →
    s.phase = .setup ∨ s.pending.head? = some .powerOn ∨ (∃ n, s.pending.head? = some (.resetAsserted n)) ∨
      s.pending.head? = some .resetDeasserted
end

