-- ==== Sys2Proof/Laws/Frames.lean ====
section
/-!
SUPPORT. Laws/Frames.lean: numbers as bytes and back (R159), and the two fixed parts of a request frame's length (R155, R158).
-/

namespace Sys2Proof

@[simp] theorem length_leBytes (k n : Nat) : (leBytes k n).length = k := by
  induction k generalizing n with
  | zero => rfl
  | succ k ih => simp [leBytes, ih]

/-- A number that fits in its field is read back from the field's bytes. -/
theorem leValue_leBytes (k n : Nat) (h : n < 256 ^ k) : leValue (leBytes k n) = n := by
  induction k generalizing n with
  | zero => simp at h; subst h; rfl
  | succ k ih =>
    have hq : n / 256 < 256 ^ k := by
      rw [Nat.div_lt_iff_lt_mul (by decide)]; rwa [Nat.pow_succ] at h
    simp only [leBytes, leValue, ih _ hq, BitVec.toNat_ofNat]
    omega

/-- Two bytes read back a number below 65,536. -/
theorem leValue_leBytes_two (n : Nat) (h : n < 65536) : leValue [BitVec.ofNat 8 n, BitVec.ofNat 8 (n / 256)] = n :=
  leValue_leBytes 2 n h

/-- Four bytes read back a number below 4,294,967,296. -/
theorem leValue_leBytes_four (n : Nat) (h : n < 4294967296) :
    leValue [BitVec.ofNat 8 n, BitVec.ofNat 8 (n / 256), BitVec.ofNat 8 (n / 256 / 256),
      BitVec.ofNat 8 (n / 256 / 256 / 256)] = n :=
  leValue_leBytes 4 n h

@[simp] theorem length_crcField (bs : List Byte) : (crcField bs).length = 2 := rfl

/-- A request frame is four header bytes, its body and two CRC bytes. -/
theorem length_requestFrame (kind : Byte) (tag : Tag) (body : List Byte) :
    (requestFrame kind tag body).length = 6 + body.length := by
  simp [requestFrame, leBytes]; omega

end Sys2Proof
end

