-- ==== Sys2Proof/Laws/State.lean ====
section
/-!
SUPPORT. Laws/State.lean: what each field reads as after each update of one port or one record, so that no proof unfolds a record
update.
-/

namespace Sys2Proof.Machine

variable (s : State) (p q : Port) (i j : Slot) (l : LeaseState) (f : HostPort → HostPort)

/-! ### One port changed -/

@[simp] theorem State.port_modifyPort_self : (s.modifyPort p f).port p = f (s.port p) := by
  simp [State.modifyPort, State.port]

theorem State.port_modifyPort_of_ne (h : q ≠ p) : (s.modifyPort p f).port q = s.port q := by
  have : p.val ≠ q.val := fun e => h (Fin.ext e.symm)
  simp [State.modifyPort, State.port, this]

theorem State.port_modifyPort : (s.modifyPort p f).port q = if q = p then f (s.port q) else s.port q := by
  split
  · subst_vars; simp
  · exact s.port_modifyPort_of_ne p q f ‹_›

@[simp] theorem State.modifyPort_leases : (s.modifyPort p f).leases = s.leases := rfl
@[simp] theorem State.modifyPort_grantCounter : (s.modifyPort p f).grantCounter = s.grantCounter := rfl
@[simp] theorem State.modifyPort_waiting : (s.modifyPort p f).waiting = s.waiting := rfl
@[simp] theorem State.modifyPort_prescaler : (s.modifyPort p f).prescaler = s.prescaler := rfl
@[simp] theorem State.modifyPort_tick : (s.modifyPort p f).tick = s.tick := rfl
@[simp] theorem State.modifyPort_array : (s.modifyPort p f).array = s.array := rfl
@[simp] theorem State.modifyPort_stamps : (s.modifyPort p f).stamps = s.stamps := rfl
@[simp] theorem State.modifyPort_phase : (s.modifyPort p f).phase = s.phase := rfl
@[simp] theorem State.modifyPort_resetAsserted : (s.modifyPort p f).resetAsserted = s.resetAsserted := rfl
@[simp] theorem State.modifyPort_clearCount : (s.modifyPort p f).clearCount = s.clearCount := rfl
@[simp] theorem State.modifyPort_params : (s.modifyPort p f).params = s.params := rfl
@[simp] theorem State.modifyPort_choices : (s.modifyPort p f).choices = s.choices := rfl
@[simp] theorem State.modifyPort_pending : (s.modifyPort p f).pending = s.pending := rfl

theorem State.modifyPort_modifyPort (g : HostPort → HostPort) :
    (s.modifyPort p f).modifyPort p g = s.modifyPort p fun h => g (f h) := by
  simp [State.modifyPort]

theorem State.modifyPort_comm (g : HostPort → HostPort) (h : p ≠ q) :
    (s.modifyPort p f).modifyPort q g = (s.modifyPort q g).modifyPort p f := by
  have e : p.val ≠ q.val := fun e => h (Fin.ext e)
  have e' : q.val ≠ p.val := fun e => h (Fin.ext e.symm)
  simp only [State.modifyPort]
  congr 1
  rw [Vector.set_comm _ _ e]
  simp [e, e']

theorem State.modifyPort_id : s.modifyPort p (fun h => h) = s := by
  simp [State.modifyPort]

theorem State.modifyPort_congr {g : HostPort → HostPort} (h : f (s.port p) = g (s.port p)) :
    s.modifyPort p f = s.modifyPort p g := by
  unfold State.modifyPort
  rw [show s.ports[p] = s.port p from rfl, h]

/-! ### What is read of records, entries and the clock after a change of a port -/

@[simp] theorem State.record_modifyPort : (s.modifyPort p f).record i = s.record i := rfl
@[simp] theorem State.lease_modifyPort : (s.modifyPort p f).lease i = s.lease i := rfl
@[simp] theorem State.handleOf_modifyPort : (s.modifyPort p f).handleOf i = s.handleOf i := rfl
@[simp] theorem State.holder?_modifyPort : (s.modifyPort p f).holder? i = s.holder? i := rfl
@[simp] theorem State.resolves_modifyPort (h : Handle) : (s.modifyPort p f).resolves q h = s.resolves q h := rfl
@[simp] theorem State.freeSlot?_modifyPort : (s.modifyPort p f).freeSlot? = s.freeSlot? := rfl
@[simp] theorem State.holdersOff_modifyPort (ms : List ModeSpan) :
    (s.modifyPort p f).holdersOff q ms = s.holdersOff q ms := rfl
@[simp] theorem State.entriesOf_modifyPort : (s.modifyPort p f).entriesOf q = s.entriesOf q := rfl
@[simp] theorem State.slotsOf_modifyPort : (s.modifyPort p f).slotsOf q = s.slotsOf q := rfl
@[simp] theorem State.quotaCount_modifyPort : (s.modifyPort p f).quotaCount q = s.quotaCount q := rfl
@[simp] theorem State.canSupply_modifyPort (n : Nat) : (s.modifyPort p f).canSupply n = s.canSupply n := rfl
@[simp] theorem State.entryWithTag?_modifyPort (tag : Tag) :
    (s.modifyPort p f).entryWithTag? q tag = s.entryWithTag? q tag := rfl
@[simp] theorem State.entryAt?_modifyPort (x : EntryIndex) : (s.modifyPort p f).entryAt? x = s.entryAt? x := rfl
@[simp] theorem State.poolUse_modifyPort : (s.modifyPort p f).poolUse = s.poolUse := rfl
@[simp] theorem State.freeIndex?_modifyPort : (s.modifyPort p f).freeIndex? = s.freeIndex? := rfl
@[simp] theorem State.admissionSource?_modifyPort :
    (s.modifyPort p f).admissionSource? q = s.admissionSource? q := rfl
@[simp] theorem State.after_modifyPort (n : Nat) : (s.modifyPort p f).after n = s.after n := rfl
@[simp] theorem State.spanStamp_modifyPort (sp : Span) : (s.modifyPort p f).spanStamp sp = s.spanStamp sp := rfl

/-! ### One record's state changed -/

@[simp] theorem State.record_setLease_self : (s.setLease i l).record i = { s.record i with state := l } := by
  simp [State.setLease, State.record]

theorem State.record_setLease_of_ne (h : j ≠ i) : (s.setLease i l).record j = s.record j := by
  have : i.val ≠ j.val := fun e => h (Fin.ext e.symm)
  simp [State.setLease, State.record, this]

@[simp] theorem State.lease_setLease_self : (s.setLease i l).lease i = l := by simp [State.lease]

theorem State.lease_setLease_of_ne (h : j ≠ i) : (s.setLease i l).lease j = s.lease j := by
  simp [State.lease, s.record_setLease_of_ne i j l h]

theorem State.lease_setLease : (s.setLease i l).lease j = if j = i then l else s.lease j := by
  split
  · subst_vars; simp
  · exact s.lease_setLease_of_ne i j l ‹_›

@[simp] theorem State.generation_setLease : ((s.setLease i l).record j).generation = (s.record j).generation := by
  by_cases h : j = i
  · subst h; simp
  · rw [s.record_setLease_of_ne i j l h]

@[simp] theorem State.handleOf_setLease : (s.setLease i l).handleOf j = s.handleOf j := by
  simp [State.handleOf]

@[simp] theorem State.setLease_setLease (k : LeaseState) : (s.setLease i l).setLease i k = s.setLease i k := by
  simp [State.setLease]

theorem State.setLease_same (h : s.lease i = l) : s.setLease i l = s := by
  subst h
  have e : ({ s.leases[i] with state := s.leases[i].state } : LeaseRecord) = s.leases[i] := rfl
  simp only [State.setLease, State.lease, State.record, e]
  simp

@[simp] theorem State.port_setLease : (s.setLease i l).port p = s.port p := rfl
@[simp] theorem State.setLease_ports : (s.setLease i l).ports = s.ports := rfl
@[simp] theorem State.setLease_grantCounter : (s.setLease i l).grantCounter = s.grantCounter := rfl
@[simp] theorem State.setLease_waiting : (s.setLease i l).waiting = s.waiting := rfl
@[simp] theorem State.setLease_prescaler : (s.setLease i l).prescaler = s.prescaler := rfl
@[simp] theorem State.setLease_tick : (s.setLease i l).tick = s.tick := rfl
@[simp] theorem State.setLease_array : (s.setLease i l).array = s.array := rfl
@[simp] theorem State.setLease_stamps : (s.setLease i l).stamps = s.stamps := rfl
@[simp] theorem State.setLease_phase : (s.setLease i l).phase = s.phase := rfl
@[simp] theorem State.setLease_resetAsserted : (s.setLease i l).resetAsserted = s.resetAsserted := rfl
@[simp] theorem State.setLease_clearCount : (s.setLease i l).clearCount = s.clearCount := rfl
@[simp] theorem State.setLease_params : (s.setLease i l).params = s.params := rfl
@[simp] theorem State.setLease_choices : (s.setLease i l).choices = s.choices := rfl
@[simp] theorem State.setLease_pending : (s.setLease i l).pending = s.pending := rfl

theorem State.setLease_modifyPort : (s.setLease i l).modifyPort p f = (s.modifyPort p f).setLease i l := rfl

/-! ### A port's records changed -/

variable (g : LeaseState → LeaseState)

@[simp] theorem LeaseRecord.generation_changeHeld (r : LeaseRecord) : (r.changeHeld p g).generation = r.generation := by
  unfold LeaseRecord.changeHeld; split <;> rfl

theorem LeaseRecord.state_changeHeld (r : LeaseRecord) :
    (r.changeHeld p g).state = if r.state.holder? = some p then g r.state else r.state := by
  unfold LeaseRecord.changeHeld; split <;> rfl

@[simp] theorem State.record_changeHeld : (s.changeHeld p g).record i = (s.record i).changeHeld p g := by
  simp [State.changeHeld, State.record]

theorem State.lease_changeHeld :
    (s.changeHeld p g).lease i = if s.holder? i = some p then g (s.lease i) else s.lease i := by
  show ((s.changeHeld p g).record i).state = _
  rw [State.record_changeHeld]
  exact LeaseRecord.state_changeHeld p g (s.record i)

@[simp] theorem State.handleOf_changeHeld : (s.changeHeld p g).handleOf i = s.handleOf i := by
  simp [State.handleOf]

@[simp] theorem State.port_changeHeld : (s.changeHeld p g).port q = s.port q := rfl
@[simp] theorem State.changeHeld_grantCounter : (s.changeHeld p g).grantCounter = s.grantCounter := rfl
@[simp] theorem State.changeHeld_waiting : (s.changeHeld p g).waiting = s.waiting := rfl
@[simp] theorem State.changeHeld_prescaler : (s.changeHeld p g).prescaler = s.prescaler := rfl
@[simp] theorem State.changeHeld_tick : (s.changeHeld p g).tick = s.tick := rfl
@[simp] theorem State.changeHeld_array : (s.changeHeld p g).array = s.array := rfl
@[simp] theorem State.changeHeld_stamps : (s.changeHeld p g).stamps = s.stamps := rfl
@[simp] theorem State.changeHeld_phase : (s.changeHeld p g).phase = s.phase := rfl
@[simp] theorem State.changeHeld_resetAsserted : (s.changeHeld p g).resetAsserted = s.resetAsserted := rfl
@[simp] theorem State.changeHeld_clearCount : (s.changeHeld p g).clearCount = s.clearCount := rfl
@[simp] theorem State.changeHeld_params : (s.changeHeld p g).params = s.params := rfl
@[simp] theorem State.changeHeld_choices : (s.changeHeld p g).choices = s.choices := rfl
@[simp] theorem State.changeHeld_pending : (s.changeHeld p g).pending = s.pending := rfl

/-! ### The handle that names a slot's record -/

@[simp] theorem State.handleOf_slot : (s.handleOf i).slot = i := rfl
@[simp] theorem State.handleOf_generation : (s.handleOf i).generation = (s.record i).generation := rfl

/-- The handle that the table gives for a slot resolves for the port that holds its record, and for no other (R7). -/
theorem State.resolves_handleOf : s.resolves p (s.handleOf i) = true ↔ s.holder? i = some p := by
  simp [State.resolves, State.holder?, State.handleOf]

/-! ### The state right after power-on -/

@[simp] theorem State.reset_port : State.reset.port p = HostPort.reset false := by
  simp [State.reset, State.port]

@[simp] theorem State.reset_record : State.reset.record i = LeaseRecord.reset := by
  simp [State.reset, State.record]

@[simp] theorem State.reset_lease : State.reset.lease i = .free := by
  simp [State.lease, LeaseRecord.reset]

end Sys2Proof.Machine
end

