-- ==== Sys2Proof/Laws/Link.lean ====
section
/-!
SUPPORT. Laws/Link.lean: what the end of a transaction does, said once for each kind of transaction (R111, R127, R152 to R156), and that
every request command is the PUSH of its frame.
-/

namespace Sys2Proof.Machine

variable {s : State} {p : Port}

/-! ### The end of a transaction -/

/-- The rise of a transaction that the part settles is its settlement on the state after the transaction alone. -/
theorem endTransaction_settled (n : Nat) (shifted : Option Response → List Byte)
    (settlement : Option Response → State → State) (h : settles s p = true) :
    endTransaction p n shifted settlement s =
      settlement (fixedHead s p) (afterTransaction s p n (shifted (fixedHead s p))) := by
  unfold settles at h
  unfold endTransaction chipSelectFalls afterTransaction fixedHead shiftedStatus
  rcases ht : (s.port p).transaction with _ | ⟨b0, b1, head⟩ | _
  · simp only [ht] at h
    simp only [State.port_modifyPort_self, h, if_true, fixedAtFall, State.modifyPort_modifyPort, shiftOut]
    rfl
  · simp [shiftOut, ht]
  · simp [ht] at h

/-- The rise of a transaction that the part ignores is the end of it and nothing else (R111). -/
theorem endTransaction_ignored (n : Nat) (shifted : Option Response → List Byte)
    (settlement : Option Response → State → State) (h : (s.port p).transaction = .ignored) :
    endTransaction p n shifted settlement s = s.modifyPort p fun h => { h with transaction := .none } := by
  simp [endTransaction, chipSelectFalls, h]

/-- A transaction on a port that does not answer, from its fall to its rise, leaves the port as it was (R111). -/
theorem endTransaction_silent (n : Nat) (shifted : Option Response → List Byte)
    (settlement : Option Response → State → State) (h : (s.port p).transaction = .none) (ha : s.answers p = false) :
    endTransaction p n shifted settlement s = s := by
  have e : (fun g : HostPort => { g with transaction := Transaction.none }) (s.port p) = s.port p := by
    rw [← h]
  simp only [endTransaction, chipSelectFalls, h, State.port_modifyPort_self, ha, State.modifyPort_modifyPort]
  show s.modifyPort p (fun g => { g with transaction := .none }) = s
  unfold State.modifyPort
  rw [show s.ports[p] = s.port p from rfl, e]
  simp [State.port]

/-! ### Ports after a PUSH -/

theorem afterPush_eq (s : State) (p : Port) (m : Nat) : afterTransaction s p (m + 2) [] = afterPush s p m := by
  have h : ∀ b0 b1 : Byte, ([b0, b1] ++ [] ++ List.replicate (m + 2) 0x00#8).take (m + 2) = [b0, b1] ++ List.replicate m 0x00#8 := by
    intro b0 b1
    simp only [List.append_nil, List.cons_append, List.nil_append, List.take_succ_cons, List.take_replicate]
    congr 3; omega
  unfold afterTransaction afterPush shiftedStatus
  split <;> simp only [h]

section
variable (s p) (q : Port) (m : Nat) (i : Slot)

@[simp] theorem afterPush_port_self : (afterPush s p m).port p =
    { s.port p with transaction := .none, sdo := shiftedStatus s p ++ List.replicate m 0x00#8 } := by simp [afterPush]
theorem afterPush_port_of_ne (h : q ≠ p) : (afterPush s p m).port q = s.port q := State.port_modifyPort_of_ne s p q _ h
@[simp] theorem afterPush_lease : (afterPush s p m).lease i = s.lease i := rfl
@[simp] theorem afterPush_record : (afterPush s p m).record i = s.record i := rfl
@[simp] theorem afterPush_handleOf : (afterPush s p m).handleOf i = s.handleOf i := rfl
@[simp] theorem afterPush_resolves (h : Handle) : (afterPush s p m).resolves q h = s.resolves q h := rfl
@[simp] theorem afterPush_waiting : (afterPush s p m).waiting = s.waiting := rfl
@[simp] theorem afterPush_phase : (afterPush s p m).phase = s.phase := rfl
@[simp] theorem afterPush_tick : (afterPush s p m).tick = s.tick := rfl
@[simp] theorem afterPush_params : (afterPush s p m).params = s.params := rfl
@[simp] theorem afterPush_array : (afterPush s p m).array = s.array := rfl
@[simp] theorem afterPush_stamps : (afterPush s p m).stamps = s.stamps := rfl
@[simp] theorem afterPush_grantCounter : (afterPush s p m).grantCounter = s.grantCounter := rfl
@[simp] theorem afterPush_tagInUse (tag : Tag) : (afterPush s p m).tagInUse q tag = s.tagInUse q tag := rfl
@[simp] theorem afterPush_credits : (afterPush s p m).credits q = s.credits q := by
  unfold State.credits
  by_cases h : q = p
  · subst h; simp [State.entriesOf]
  · rw [afterPush_port_of_ne s p q m h]; rfl

end

/-! ### A PUSH settled -/

theorem settles_of_settlesPush (h : settlesPush s p = true) : settles s p = true := by
  simp only [settlesPush, Bool.and_eq_true] at h; exact h.1.1

theorem settlesPush_of_takesFrame (h : takesFrame s p = true) : settlesPush s p = true := by
  simp only [takesFrame, Bool.and_eq_true] at h; exact h.1

theorem takesFrame_of_working {tag : Tag} (h : working s p tag = true) : takesFrame s p = true := by
  simp only [working, Bool.and_eq_true] at h; exact h.1.1.1

theorem takesFrame_of_collecting {tag : Tag} (h : collecting s p tag = true) : takesFrame s p = true := by
  simp only [collecting, Bool.and_eq_true] at h; exact h.1.1

/-- A PUSH that is taken (R154): its frame's effect on the state after the transaction. -/
theorem endPush_taken (m : Nat) (taken : State → State) (h : takesFrame s p = true) (hm : m ≠ 0) :
    endPush p m taken s = taken (afterPush s p m) := by
  have hp := settlesPush_of_takesFrame h
  simp only [takesFrame, settlesPush, Bool.and_eq_true, bne_iff_ne, ne_eq, decide_eq_true_eq] at h
  obtain ⟨⟨⟨-, h1⟩, h2⟩, h3⟩ := h
  rw [endPush, endTransaction_settled _ _ _ (settles_of_settlesPush hp), afterPush_eq]
  simp [settlePush, hm, h1, h2, Nat.ne_of_gt h3]

/-- A PUSH at 0 credits (R131): the frame is discarded and OVERRUN set. -/
theorem endPush_discarded (m : Nat) (taken : State → State) (h : settlesPush s p = true) (hc : s.credits p = 0)
    (hm : m ≠ 0) :
    endPush p m taken s = (afterPush s p m).modifyPort p fun h => { h with overrun := true } := by
  have hs := settles_of_settlesPush h
  simp only [settlesPush, Bool.and_eq_true, bne_iff_ne, ne_eq] at h
  obtain ⟨⟨-, h1⟩, h2⟩ := h
  rw [endPush, endTransaction_settled _ _ _ hs, afterPush_eq]
  simp [settlePush, hm, h1, h2, hc]

/-- A PUSH of an intact frame that is taken. -/
theorem pushFrame_taken (kind : Byte) (tag : Tag) (body : List Byte) (taken : State → State) (h : takesFrame s p = true)
    (hb : body.length ≤ 272) : pushFrame p kind tag body taken s = taken (afterPush s p (6 + body.length)) := by
  rw [pushFrame, endPush_taken _ _ h (by simp [frameBytes])]
  simp [maxBody, hb, frameBytes]

/-- Every request command is the PUSH of its frame, whose effect is its kind's. -/
theorem exec_commandOf (k : Kind) (p : Port) (tag : Tag) (body : List Byte) (s : State) :
    exec (commandOf k p tag body) s = .next (pushFrame p (kindCode k) tag body (takeKind k p tag body) s) := by
  cases k <;> rfl

/-- A request command whose frame is taken. -/
theorem exec_commandOf_taken (k : Kind) (tag : Tag) (body : List Byte) (h : takesFrame s p = true)
    (hb : body.length ≤ 272) :
    exec (commandOf k p tag body) s = .next (takeKind k p tag body (afterPush s p (6 + body.length))) := by
  rw [exec_commandOf, pushFrame_taken _ _ _ _ h hb]

/-! ### The common checks after a PUSH -/

/-- The common checks look at the port's state, the phase and the waiting entries, and a PUSH changes none of them. -/
theorem commonCheck_afterPush (k : Kind) (tag : Tag) (m : Nat) :
    commonCheck k p tag (afterPush s p m) = commonCheck k p tag s := by
  unfold commonCheck
  rw [afterPush_port_self]
  rfl

theorem commonCheck_working (k : Kind) (tag : Tag) (h : working s p tag = true) (hk : k ∉ [Kind.join, .set, .start]) :
    commonCheck k p tag s = none := by
  simp only [working, Bool.and_eq_true, beq_iff_eq, Bool.not_eq_true'] at h
  obtain ⟨⟨⟨-, hj⟩, hr⟩, ht⟩ := h
  cases k <;> simp [commonCheck, admission, phaseCheck, hj, hr, ht] at hk ⊢

theorem commonCheck_collecting (k : Kind) (tag : Tag) (h : collecting s p tag = true)
    (hk : k ∈ [Kind.query, .takeNotices, .ackRevoked]) : commonCheck k p tag s = none := by
  simp only [collecting, Bool.and_eq_true, Bool.or_eq_true, beq_iff_eq, Bool.not_eq_true'] at h
  obtain ⟨⟨-, hj⟩, ht⟩ := h
  simp only [List.mem_cons, List.not_mem_nil, or_false] at hk
  rcases hk with rfl | rfl | rfl <;> rcases hj with hj | hj <;>
    simp [commonCheck, admission, phaseCheck, takenFenced, hj, ht]

end Sys2Proof.Machine
end

