-- ==== Sys2Proof/Laws/Memory.lean ====
section
/-!
SUPPORT. Laws/Memory.lean: the array and the stamps. Every operation on the array keeps its canonical form; a byte written reads back
and every other byte reads as before; so of stamps.
-/

namespace Sys2Proof.Machine

/-! ### The canonical form -/

/-- Every listed address is above `a`. -/
theorem memoryWf_cons {a : Nat} {v : Byte} {m : Memory} :
    memoryWf ((a, v) :: m) = true ↔ v ≠ unlistedByte ∧ (∀ c ∈ m.head?, a < c.1) ∧ memoryWf m = true := by
  cases m with
  | nil => simp [memoryWf]
  | cons c m => obtain ⟨b, w⟩ := c; simp [memoryWf, and_assoc]

/-- In canonical form an address below the first listed one reads as unlisted. -/
theorem readByte_below {m : Memory} {a : Nat} (h : memoryWf m = true) (ha : ∀ c ∈ m.head?, a < c.1) :
    readByte m a = unlistedByte := by
  induction m with
  | nil => rfl
  | cons c m ih =>
    obtain ⟨b, v⟩ := c
    obtain ⟨-, hb, hm⟩ := memoryWf_cons.mp h
    have hab : a < b := ha (b, v) rfl
    simp only [readByte, if_neg (Nat.ne_of_gt hab)]
    exact ih hm fun c hc => Nat.lt_trans hab (hb c hc)

/-- The first address listed after a write is the written one or the first one before. -/
theorem writeByte_head? {m : Memory} {a b : Nat} {v : Byte} (h : memoryWf m = true) (hm : ∀ c ∈ m.head?, b < c.1)
    (hab : b < a) : ∀ c ∈ (writeByte m a v).head?, b < c.1 := by
  cases m with
  | nil => unfold writeByte; split <;> simp_all
  | cons c m =>
    obtain ⟨x, w⟩ := c
    obtain ⟨-, hx, -⟩ := memoryWf_cons.mp h
    have hbx : b < x := hm (x, w) rfl
    unfold writeByte
    split
    · split <;> simp_all
    · split
      · split
        · exact fun c hc => Nat.lt_trans hbx (hx c hc)
        · simp_all
      · simp_all

/-- A write keeps the canonical form. -/
theorem memoryWf_writeByte (m : Memory) (a : Nat) (v : Byte) (h : memoryWf m = true) : memoryWf (writeByte m a v) = true := by
  induction m with
  | nil => unfold writeByte; split <;> simp_all [memoryWf]
  | cons c m ih =>
    obtain ⟨b, w⟩ := c
    obtain ⟨hw, hb, hm⟩ := memoryWf_cons.mp h
    unfold writeByte
    split
    · split
      · exact h
      · exact memoryWf_cons.mpr ⟨‹_›, by simpa using ‹a < b›, h⟩
    · split
      · subst_vars
        split
        · exact hm
        · exact memoryWf_cons.mpr ⟨‹_›, hb, hm⟩
      · exact memoryWf_cons.mpr ⟨hw, writeByte_head? hm hb (by omega), ih hm⟩

theorem memoryWf_writeBytes (m : Memory) (a : Nat) (vs : List Byte) (h : memoryWf m = true) :
    memoryWf (writeBytes m a vs) = true := by
  induction vs generalizing m a with
  | nil => exact h
  | cons v vs ih => exact ih _ _ (memoryWf_writeByte m a v h)

/-- The array right after power-on is in canonical form. -/
theorem memoryWf_reset : memoryWf State.reset.array = true := rfl

/-- Two arrays in canonical form whose bytes read alike are equal. -/
theorem memory_ext {m n : Memory} (hm : memoryWf m = true) (hn : memoryWf n = true)
    (h : ∀ a, readByte m a = readByte n a) : m = n := by
  induction m generalizing n with
  | nil =>
    cases n with
    | nil => rfl
    | cons c n =>
      obtain ⟨b, w⟩ := c
      have := h b
      simp [readByte] at this
      exact absurd this.symm (memoryWf_cons.mp hn).1
  | cons c m ih =>
    obtain ⟨a, v⟩ := c
    obtain ⟨hv, ha, hm'⟩ := memoryWf_cons.mp hm
    have hav := h a
    simp only [readByte, if_pos] at hav
    cases n with
    | nil => exact absurd hav hv
    | cons d n =>
      obtain ⟨b, w⟩ := d
      obtain ⟨hw, hb, hn'⟩ := memoryWf_cons.mp hn
      have hab : a = b := by
        rcases Nat.lt_trichotomy a b with lt | eq | gt
        · rw [readByte_below hn (by simpa using lt)] at hav; exact absurd hav hv
        · exact eq
        · have hbw := h b
          rw [readByte_below hm (by simpa using gt)] at hbw
          simp [readByte] at hbw
          exact absurd hbw.symm hw
      subst hab
      simp [readByte] at hav
      subst hav
      congr 1
      refine ih hm' hn' fun x => ?_
      have hx := h x
      simp only [readByte] at hx
      by_cases hax : a = x
      · subst hax; rw [readByte_below hm' ha, readByte_below hn' hb]
      · simpa [hax] using hx

/-! ### Read after write -/

theorem readByte_writeByte_self (m : Memory) (a : Nat) (v : Byte) (h : memoryWf m = true) :
    readByte (writeByte m a v) a = v := by
  induction m with
  | nil => unfold writeByte; split <;> simp_all [readByte]
  | cons c m ih =>
    obtain ⟨b, w⟩ := c
    obtain ⟨-, hb, hm⟩ := memoryWf_cons.mp h
    unfold writeByte
    split
    · split
      · rw [readByte_below h (by simpa using ‹a < b›)]; exact (‹v = unlistedByte›).symm
      · simp [readByte]
    · split
      · subst_vars
        split
        · rw [readByte_below hm hb]; exact (‹v = unlistedByte›).symm
        · simp [readByte]
      · simp only [readByte]; rw [if_neg (by omega)]; exact ih hm

theorem readByte_writeByte_of_ne (m : Memory) (a x : Nat) (v : Byte) (hx : x ≠ a) :
    readByte (writeByte m a v) x = readByte m x := by
  have hne : a ≠ x := fun e => hx e.symm
  induction m with
  | nil => unfold writeByte; split <;> simp [readByte, hne]
  | cons c m ih =>
    obtain ⟨b, w⟩ := c
    unfold writeByte
    split
    · split <;> simp [readByte, hne]
    · split
      · subst_vars; split <;> simp [readByte, hne]
      · simp only [readByte, ih]

theorem readByte_writeBytes_of_outside (m : Memory) (a x : Nat) (vs : List Byte) (hx : x < a ∨ a + vs.length ≤ x) :
    readByte (writeBytes m a vs) x = readByte m x := by
  induction vs generalizing m a with
  | nil => rfl
  | cons v vs ih =>
    simp only [List.length_cons] at hx
    rw [writeBytes, ih _ _ (by omega), readByte_writeByte_of_ne m a x v (by omega)]

theorem readByte_writeBytes (m : Memory) (a k : Nat) (vs : List Byte) (hm : memoryWf m = true) (hk : k < vs.length) :
    some (readByte (writeBytes m a vs) (a + k)) = vs[k]? := by
  induction vs generalizing m a k with
  | nil => simp at hk
  | cons v vs ih =>
    cases k with
    | zero =>
      rw [writeBytes, readByte_writeBytes_of_outside _ _ _ _ (by omega)]
      simp [readByte_writeByte_self m a v hm]
    | succ k =>
      have := ih (writeByte m a v) (a + 1) k (memoryWf_writeByte m a v hm) (by simpa using hk)
      rw [writeBytes, show a + (k + 1) = a + 1 + k by omega, this]; rfl

theorem length_readBytes (m : Memory) (a n : Nat) : (readBytes m a n).length = n := by simp [readBytes]

theorem getElem?_readBytes (m : Memory) (a n k : Nat) (hk : k < n) : (readBytes m a n)[k]? = some (readByte m (a + k)) := by
  simp [readBytes, hk]

/-! ### The addresses that a write can list -/

theorem writeByte_bound (m : Memory) (a n : Nat) (v : Byte) (ha : a < n) (h : ∀ c ∈ m, c.1 < n) :
    ∀ c ∈ writeByte m a v, c.1 < n := by
  induction m with
  | nil => unfold writeByte; split <;> simp [ha]
  | cons c m ih =>
    obtain ⟨b, w⟩ := c
    have hb : b < n := h (b, w) (by simp)
    have hm : ∀ c ∈ m, c.1 < n := fun c hc => h c (by simp [hc])
    unfold writeByte
    split
    · split
      · exact h
      · intro c hc; rcases List.mem_cons.mp hc with rfl | hc; exacts [ha, h c hc]
    · split
      · split
        · exact hm
        · intro c hc; rcases List.mem_cons.mp hc with rfl | hc; exacts [ha, hm c hc]
      · intro c hc; rcases List.mem_cons.mp hc with rfl | hc; exacts [hb, ih hm c hc]

theorem writeBytes_bound (m : Memory) (a n : Nat) (vs : List Byte) (ha : a + vs.length ≤ n) (h : ∀ c ∈ m, c.1 < n) :
    ∀ c ∈ writeBytes m a vs, c.1 < n := by
  induction vs generalizing m a with
  | nil => exact h
  | cons v vs ih =>
    simp only [List.length_cons] at ha
    exact ih _ _ (by omega) (writeByte_bound m a n v (by omega) h)

/-! ### Stamps -/

theorem stampAt_stampBlocks (stamps : Vector Nat 512) (g b : Nat) (blocks : List Nat) :
    stampAt (stampBlocks stamps g blocks) b = if b ∈ blocks ∧ b < 512 then g else stampAt stamps b := by
  induction blocks generalizing stamps with
  | nil => simp [stampBlocks]
  | cons x xs ih =>
    have step : stampBlocks stamps g (x :: xs) = stampBlocks (stamps.setIfInBounds x g) g xs := rfl
    have set : stampAt (stamps.setIfInBounds x g) b = if b = x ∧ b < 512 then g else stampAt stamps b := by
      simp only [stampAt, Vector.getElem?_setIfInBounds]
      by_cases hx : x = b
      · subst hx
        by_cases hb : x < 512 <;> simp [hb]
      · have : ¬b = x := fun e => hx e.symm
        simp [hx, this]
    rw [step, ih, set]
    by_cases hb : b < 512
    · by_cases hx : b = x <;> simp [hb, hx, List.mem_cons]
      intro _ h; omega
    · simp [hb]

/-- The largest stamp is above every stamp of the blocks and is one of them, or 0 (R97, R103). -/
theorem le_largestStamp (stamps : Vector Nat 512) (blocks : List Nat) (b : Nat) (hb : b ∈ blocks) :
    stampAt stamps b ≤ largestStamp stamps blocks := by
  have mono : ∀ (l : List Nat) (m : Nat), m ≤ l.foldl (fun m b => max m (stampAt stamps b)) m := by
    intro l
    induction l with
    | nil => exact fun m => Nat.le_refl m
    | cons x l ih => exact fun m => Nat.le_trans (Nat.le_max_left _ _) (ih _)
  have main : ∀ (l : List Nat) (m : Nat), b ∈ l → stampAt stamps b ≤ l.foldl (fun m b => max m (stampAt stamps b)) m := by
    intro l
    induction l with
    | nil => intro m h; simp at h
    | cons x l ih =>
      intro m h
      rcases List.mem_cons.mp h with rfl | h
      · exact Nat.le_trans (Nat.le_max_right _ _) (mono l _)
      · exact ih _ h
  exact main blocks 0 hb

theorem largestStamp_cases (stamps : Vector Nat 512) (blocks : List Nat) :
    largestStamp stamps blocks = 0 ∨ ∃ b ∈ blocks, stampAt stamps b = largestStamp stamps blocks := by
  have main : ∀ (l : List Nat) (m : Nat), l.foldl (fun m b => max m (stampAt stamps b)) m = m ∨
      ∃ b ∈ l, stampAt stamps b = l.foldl (fun m b => max m (stampAt stamps b)) m := by
    intro l
    induction l with
    | nil => exact fun m => .inl rfl
    | cons x l ih =>
      intro m
      rcases ih (max m (stampAt stamps x)) with h | ⟨b, hb, e⟩
      · rcases Nat.le_total m (stampAt stamps x) with hle | hle
        · exact .inr ⟨x, by simp, by simp only [List.foldl_cons]; rw [h, Nat.max_eq_right hle]⟩
        · exact .inl (by simp only [List.foldl_cons]; rw [h, Nat.max_eq_left hle])
      · exact .inr ⟨b, by simp [hb], e⟩
  exact main blocks 0

theorem mem_spanBlocks (sp : Span) (b : Nat) : b ∈ spanBlocks sp ↔ sp.first ≤ b ∧ b < sp.first + sp.count := by
  simp only [spanBlocks, List.mem_map, List.mem_range]
  constructor
  · rintro ⟨k, hk, rfl⟩; omega
  · rintro ⟨h1, h2⟩; exact ⟨b - sp.first, by omega, by omega⟩

/-- The blocks that an access touches are those of its bytes (R94). -/
theorem mem_touchedBlocks (a n b : Nat) : b ∈ touchedBlocks a n ↔ ∃ x, a ≤ x ∧ x < a + n ∧ x / 512 = b := by
  unfold touchedBlocks
  split
  · constructor
    · simp
    · rintro ⟨x, h1, h2, -⟩; omega
  · simp only [List.mem_map, List.mem_range, blockOf, Config.blockBytes]
    constructor
    · rintro ⟨k, hk, rfl⟩
      by_cases h0 : k = 0
      · exact ⟨a, by omega, by omega, by omega⟩
      · exact ⟨(a / 512 + k) * 512, by omega, by omega, by omega⟩
    · rintro ⟨x, h1, h2, rfl⟩
      exact ⟨x / 512 - a / 512, by omega, by omega⟩

end Sys2Proof.Machine
end

