-- ==== Sys2Proof/Laws/Ops.lean ====
section
/-!
SUPPORT. Laws/Ops.lean: for each shared operation, once, everything it can do: queueing, notices, an entry's end, allocation, recall,
revocation, the fence, teardown, and the walk of the grant scan.
-/

namespace Sys2Proof.Machine

variable (s : State) (p q : Port) (i j : Slot) (e : Entry) (r : Result) (b : Body)

/-! ### Responses and notices -/

theorem answer_eq (k : Kind) (tag : Tag) : answer p k tag r b s =
    s.modifyPort p fun h => { h with queue := h.queue ++ [{ kind := kindCode k ||| 0x80#8, tag := tag, result := r, body := b }] } :=
  rfl

/-! ### An entry's leaving (R29, R31) -/

/-- Where no entry has the index, none is taken out. -/
theorem filter_index_ne {es : List Entry} {x : EntryIndex} (h : ∀ a ∈ es, a.index ≠ x) :
    es.filter (fun a => a.index != x) = es := by
  rw [List.filter_eq_self]; simpa using h

/-- In a list whose other entries have other indexes, an entry's leaving takes it alone, and gives its source back. -/
theorem withoutEntry_split {before after : List Entry} (h : ∀ a ∈ before ++ after, a.index ≠ e.index) :
    withoutEntry e (before ++ e :: after) =
      if e.source = .reserved then promoteFirst e.port (before ++ after) else before ++ after := by
  have : (before ++ e :: after).filter (fun a => a.index != e.index) = before ++ after := by
    rw [List.filter_append, filter_index_ne fun a ha => h a (List.mem_append_left _ ha), List.filter_cons]
    simp only [bne_self_eq_false, Bool.false_eq_true, if_false]
    rw [filter_index_ne fun a ha => h a (List.mem_append_right _ ha)]
  simp only [withoutEntry, this]

/-- A port without SHARED_POOL entries has none to change. -/
theorem promoteFirst_none {es : List Entry} (h : ∀ a ∈ es, ¬(a.port = p ∧ a.source = .sharedPool)) :
    promoteFirst p es = es := by
  induction es with
  | nil => rfl
  | cons a es ih =>
    simp only [promoteFirst, if_neg (h a (by simp))]
    rw [ih fun x hx => h x (by simp [hx])]

/-- The port's earliest SHARED_POOL entry, and it alone, becomes RESERVED (R29). -/
theorem promoteFirst_first {front back : List Entry} {first : Entry} (hp : first.port = p)
    (hs : first.source = .sharedPool) (h : ∀ a ∈ front, ¬(a.port = p ∧ a.source = .sharedPool)) :
    promoteFirst p (front ++ first :: back) = front ++ { first with source := .reserved } :: back := by
  induction front with
  | nil => simp [promoteFirst, hp, hs]
  | cons a es ih =>
    simp only [List.cons_append, promoteFirst, if_neg (h a (by simp))]
    rw [ih fun x hx => h x (by simp [hx])]

/-- The change of a source changes nothing else of any entry. -/
theorem map_promoteFirst {α : Type} (g : Entry → α) (hg : ∀ (a : Entry) c, g { a with source := c } = g a) (es : List Entry) :
    (promoteFirst p es).map g = es.map g := by
  induction es with
  | nil => rfl
  | cons a es ih => unfold promoteFirst; split <;> simp [hg, ih]

/-- What the entries that stay hold, but for their sources, is what they held (R29, R31). -/
theorem map_withoutEntry {α : Type} (g : Entry → α) (hg : ∀ (a : Entry) c, g { a with source := c } = g a) (es : List Entry) :
    (withoutEntry e es).map g = (es.filter fun x => x.index != e.index).map g := by
  unfold withoutEntry
  split
  · exact map_promoteFirst _ g hg _
  · rfl

@[simp] theorem port_entryLeaves : (entryLeaves e s).port p = s.port p := by unfold entryLeaves; split <;> rfl
@[simp] theorem ports_entryLeaves : (entryLeaves e s).ports = s.ports := by unfold entryLeaves; split <;> rfl
@[simp] theorem waiting_entryLeaves : (entryLeaves e s).waiting = withoutEntry e s.waiting := by
  unfold entryLeaves; split <;> rfl
@[simp] theorem grantCounter_entryLeaves : (entryLeaves e s).grantCounter = s.grantCounter := by
  unfold entryLeaves; split <;> rfl
@[simp] theorem tick_entryLeaves : (entryLeaves e s).tick = s.tick := by unfold entryLeaves; split <;> rfl
@[simp] theorem params_entryLeaves : (entryLeaves e s).params = s.params := by unfold entryLeaves; split <;> rfl
@[simp] theorem stamps_entryLeaves : (entryLeaves e s).stamps = s.stamps := by unfold entryLeaves; split <;> rfl

/-- Only an UPGRADE's lease loses anything, and that its pending upgrade (R31). -/
theorem lease_entryLeaves : (entryLeaves e s).lease i =
    match e.claim with
    | .acquire _ _ => s.lease i
    | .upgrade h _ => if i = h.slot then (s.lease i).withoutUpgrade else s.lease i := by
  unfold entryLeaves
  cases e.claim with
  | acquire => rfl
  | upgrade h sp =>
    dsimp only
    rw [State.lease_setLease]
    split
    · subst_vars; rfl
    · rfl

@[simp] theorem generation_entryLeaves : ((entryLeaves e s).record i).generation = (s.record i).generation := by
  unfold entryLeaves
  split
  · rfl
  · rw [State.generation_setLease]; rfl

/-- An entry ended: it leaves, and its response joins its port's queue (R31). -/
theorem endEntry_eq : endEntry e r b s = (entryLeaves e s).modifyPort e.port fun h =>
    { h with queue := h.queue ++ [{ kind := kindCode e.claim.kind ||| 0x80#8, tag := e.tag, result := r, body := b }] } := rfl

/-! ### Record states -/

@[simp] theorem LeaseState.tenure?_withoutUpgrade (l : LeaseState) : l.withoutUpgrade.tenure? = l.tenure? := by
  cases l <;> rfl
@[simp] theorem LeaseState.live?_withoutUpgrade (l : LeaseState) : l.withoutUpgrade.live? = l.live? := by cases l <;> rfl
@[simp] theorem LeaseState.holder?_withoutUpgrade (l : LeaseState) : l.withoutUpgrade.holder? = l.holder? := by
  simp [LeaseState.holder?]

/-- A live lease's tenure is its record's. -/
theorem LeaseState.tenure?_of_live? {l : LeaseState} {t : Tenure} (h : l.live? = some t) : l.tenure? = some t := by
  cases l <;> simp_all [LeaseState.live?, LeaseState.tenure?]

/-! ### A pending upgrade's end (R60, R63, R68) -/

/-- What ending a slot's pending upgrade can do: nothing, or the end of the entry of the holder with the tag. -/
theorem endUpgrade_cases : endUpgrade i r s = s ∨
    ∃ t d w tag e, s.lease i = .granted t d w (some tag) ∧ s.entryWithTag? t.port tag = some e ∧
      endUpgrade i r s = endEntry e r .empty s := by
  unfold endUpgrade
  split
  · split
    · exact .inr ⟨_, _, _, _, _, ‹_›, ‹_›, rfl⟩
    · exact .inl rfl
  · exact .inl rfl

theorem endUpgrade_granted_none {t : Tenure} {d : Tick} {w : Option Tick} (h : s.lease i = .granted t d w none) :
    endUpgrade i r s = s := by simp [endUpgrade, h]

theorem endUpgrade_recalling {t : Tenure} {d : Tick} {w : Option Tick} {k : Tick} (h : s.lease i = .recalling t d w k) :
    endUpgrade i r s = s := by simp [endUpgrade, h]

theorem endUpgrade_pending {t : Tenure} {d : Tick} {w : Option Tick} {tag : Tag} (h : s.lease i = .granted t d w (some tag))
    (he : s.entryWithTag? t.port tag = some e) : endUpgrade i r s = endEntry e r .empty s := by simp [endUpgrade, h, he]

/-! ### Recall (R63, R64) -/

/-- A recall begun on a GRANTED lease without a pending upgrade. -/
theorem beginRecall_granted {t : Tenure} {d : Tick} {w : Option Tick} (h : s.lease i = .granted t d w none) :
    beginRecall i s = addNotice t.port
      { handle := s.handleOf i, kind := .recallBegun, span := t.span, tick := s.after s.params.recallWindow }
      (s.setLease i (.recalling t d w (s.after s.params.recallWindow))) := by
  simp [beginRecall, endUpgrade_granted_none _ _ _ h, h]

/-- A recall decision does nothing to a lease that is not GRANTED. -/
theorem beginRecall_not_granted (h : ∀ t d w u, s.lease i ≠ .granted t d w u) : beginRecall i s = s := by
  have hu : endUpgrade i .recalled s = s := by
    unfold endUpgrade
    split
    · exact absurd ‹_› (h _ _ _ _)
    · rfl
  unfold beginRecall
  rw [hu]
  dsimp only
  split
  · exact absurd ‹_› (h _ _ _ _)
  · rfl

/-! ### Allocation (R5, R16) -/

theorem record_allocateIn (term : Nat) (m : ModeSpan) : (allocateIn i p term m s).record j =
    if j = i then
      { generation := (s.record i).generation + 1,
        state := .granted { port := p, mode := m.mode, span := m.span, grant := s.grantCounter + 1 } (s.after term)
          (s.params.warningTick (s.after term) term) none }
    else s.record j := by
  split
  · subst_vars; simp [allocateIn, State.record]
  · have : i.val ≠ j.val := fun x => ‹¬j = i› (Fin.ext x.symm)
    simp [allocateIn, State.record, this]

@[simp] theorem port_allocateIn (term : Nat) (m : ModeSpan) : (allocateIn i p term m s).port q = s.port q := rfl
@[simp] theorem waiting_allocateIn (term : Nat) (m : ModeSpan) : (allocateIn i p term m s).waiting = s.waiting := rfl
@[simp] theorem grantCounter_allocateIn (term : Nat) (m : ModeSpan) :
    (allocateIn i p term m s).grantCounter = s.grantCounter + 1 := rfl

/-- The slot allocated is FREE and every lower slot is not (R5). -/
theorem freeSlot?_some (h : s.freeSlot? = some i) : s.lease i = .free := by
  simpa using List.find?_some h

/-! ### The walk (R35) -/

/-- What a visit can do: nothing where the entry has left or is blocked; the grant of a grantable entry; the recalls of the
holders-off of one that is held off (R32 to R35). -/
theorem visitEntry_cases (x : EntryIndex) : visitEntry s x = s ∨
    ∃ e, s.entryAt? x = some e ∧ blockedBy (earlierThan x s.waiting) e.port e.claim.spans = false ∧
      (s.holdersOff e.port e.claim.spans = [] ∧ visitEntry s x = grantEntry e s ∨
       s.holdersOff e.port e.claim.spans ≠ [] ∧ visitEntry s x = beginRecalls (s.holdersOff e.port e.claim.spans) s) := by
  unfold visitEntry
  split
  · exact .inl rfl
  · rename_i e he
    split
    · exact .inl rfl
    · rename_i hb
      right
      refine ⟨e, he, by simpa using hb, ?_⟩
      split
      · rename_i hh
        exact .inl ⟨by simpa using hh, rfl⟩
      · rename_i hh
        exact .inr ⟨by simpa using hh, rfl⟩

/-- What each recall keeps, the recalls of a list keep. -/
theorem beginRecalls_induction {P : State → Prop} (step : ∀ s i, P s → P (beginRecall i s)) (is : List Slot) (s : State)
    (h : P s) : P (beginRecalls is s) := by
  induction is generalizing s with
  | nil => exact h
  | cons i is ih => exact ih _ (step s i h)

/-- What each grant and each recall of the walk keeps, the grant scan keeps. -/
theorem grantScan_induction {P : State → Prop} (recalled : ∀ s i, P s → P (beginRecall i s))
    (granted : ∀ s e, P s → e ∈ s.waiting → s.entryAt? e.index = some e →
      blockedBy (earlierThan e.index s.waiting) e.port e.claim.spans = false →
      s.holdersOff e.port e.claim.spans = [] → P (grantEntry e s)) (s : State) (h : P s) : P (grantScan s) := by
  have walk : ∀ (xs : List EntryIndex) (s : State), P s → P (xs.foldl visitEntry s) := by
    intro xs
    induction xs with
    | nil => exact fun s h => h
    | cons x xs ih =>
      intro s h
      apply ih
      rcases visitEntry_cases s x with hv | ⟨e, he, hb, ⟨ho, hv⟩ | ⟨-, hv⟩⟩ <;> rw [hv]
      · exact h
      · have hx : e.index = x := by simpa using List.find?_some he
        subst hx
        exact granted s e h (List.mem_of_find?_eq_some he) he hb ho
      · exact beginRecalls_induction recalled _ s h
  exact walk _ s h

/-- With no entry waiting the grant scan does nothing. -/
theorem grantScan_nil (h : s.waiting = []) : grantScan s = s := by simp [grantScan, h]

/-- A grant takes the entry alone from the list, whether it is granted or ends EXHAUSTED (R31, R36 to R38). -/
theorem waiting_grantEntry : (grantEntry e s).waiting = withoutEntry e s.waiting := by
  have allocated : ∀ (term : Nat) (ms : List ModeSpan) (u : State), (allocate e.port term ms u).1.waiting = u.waiting := by
    intro term ms
    induction ms with
    | nil => exact fun _ => rfl
    | cons m ms ih => intro u; simp only [allocate]; split <;> [rfl; exact ih _]
  have upgraded : ∀ (i : Slot) (u : State), (upgradeRecord i u).waiting = u.waiting := by
    intro i u; unfold upgradeRecord; split <;> rfl
  unfold grantEntry
  split <;> split
  · exact (allocated _ _ _).trans (waiting_entryLeaves s e)
  · exact waiting_entryLeaves s e
  · exact (upgraded _ _).trans (waiting_entryLeaves s e)
  · exact waiting_entryLeaves s e

/-! ### Admission (R28, R41) -/

/-- The place that an entry is admitted to is not in use. -/
theorem freeIndex?_some {x : EntryIndex} (h : s.freeIndex? = some x) : ∀ a ∈ s.waiting, a.index ≠ x := by
  have := List.find?_some h
  simpa using this

/-- A newly admitted entry stands at the tail, so that it is judged against every other entry (R41). -/
theorem judgeNew_tail {es : List Entry} (hw : s.waiting = es ++ [e]) (hx : ∀ a ∈ es, a.index ≠ e.index) :
    judgeNew e s = if blockedBy es e.port e.claim.spans then s
      else beginRecalls (s.holdersOff e.port e.claim.spans) s := by
  have : earlierThan e.index s.waiting = es := by
    rw [hw, earlierThan, List.takeWhile_append_of_pos (by simpa using hx)]
    simp
  rw [judgeNew, this]

/-! ### Revocation (R68) -/

/-- A live lease without a pending upgrade revoked. -/
theorem revoke_live {t : Tenure} (c : Cause) (h : (s.lease i).live? = some t)
    (hu : ∀ d w u, s.lease i = .granted t d w u → u = none) :
    revoke i c s = addNotice t.port
      { handle := s.handleOf i, kind := .revoked c, span := t.span, tick := s.tick } (s.setLease i (.revoked t c s.tick)) := by
  have he : endUpgrade i .revoked s = s := by
    cases hl : s.lease i with
    | granted t' d w u =>
      have ht : t' = t := by simpa [hl, LeaseState.live?] using h
      subst ht
      have := hu d w u hl
      subst this
      exact endUpgrade_granted_none _ _ _ hl
    | _ => simp [endUpgrade, hl]
  simp [revoke, he, h]

/-! ### A port's entries and records dropped (R77, R119) -/

@[simp] theorem port_dropEntriesOf : (dropEntriesOf p s).port q = s.port q := rfl
@[simp] theorem waiting_dropEntriesOf : (dropEntriesOf p s).waiting = s.waiting.filter fun e => e.port != p := rfl

/-- Only pending upgrades of the port's leases go with its entries (R31). -/
theorem lease_dropEntriesOf : (dropEntriesOf p s).lease i =
    if s.holder? i = some p then (s.lease i).withoutUpgrade else s.lease i := State.lease_changeHeld _ _ _ _

@[simp] theorem generation_dropEntriesOf : ((dropEntriesOf p s).record i).generation = (s.record i).generation := by
  rw [dropEntriesOf, State.record_changeHeld, LeaseRecord.generation_changeHeld]; rfl

@[simp] theorem holder?_dropEntriesOf : (dropEntriesOf p s).holder? i = s.holder? i := by
  show ((dropEntriesOf p s).lease i).holder? = (s.lease i).holder?
  rw [lease_dropEntriesOf]
  split
  · exact LeaseState.holder?_withoutUpgrade _
  · rfl

/-- A torn-down port holds nothing (R119). -/
@[simp] theorem port_tearDown_self (st : PortState) : (tearDown p st s).port p =
    { s.port p with
      state := st, queue := [], notices := [], overrun := false, strikes := 0, fenceLine := false } := by
  simp [tearDown]

theorem port_tearDown_of_ne (st : PortState) (h : q ≠ p) : (tearDown p st s).port q = s.port q := by
  simp [tearDown, State.port_modifyPort_of_ne _ _ _ _ h]

@[simp] theorem waiting_tearDown (st : PortState) :
    (tearDown p st s).waiting = s.waiting.filter fun e => e.port != p := rfl

/-- Teardown frees the port's records, each with its generation kept, and no other (R119). -/
theorem record_tearDown (st : PortState) : (tearDown p st s).record i =
    if s.holder? i = some p then { (s.record i) with state := .free } else s.record i := by
  have key : ((dropEntriesOf p s).record i).changeHeld p (fun _ => .free) =
      if s.holder? i = some p then { (s.record i) with state := .free } else s.record i := by
    have hh : ((dropEntriesOf p s).record i).state.holder? = s.holder? i := holder?_dropEntriesOf s p i
    have hl : ((dropEntriesOf p s).record i).state = _ := lease_dropEntriesOf s p i
    have hg := generation_dropEntriesOf s p i
    by_cases h : s.holder? i = some p
    · rw [if_pos h, LeaseRecord.changeHeld, if_pos (hh.trans h), hg]
    · rw [if_neg h] at hl ⊢
      rw [LeaseRecord.changeHeld, if_neg fun e => h (hh.symm.trans e)]
      generalize (dropEntriesOf p s).record i = r at *
      obtain ⟨g, l⟩ := r
      subst hg hl
      rfl
  simpa [tearDown] using key

/-- Teardown leaves all but the port, its entries and its records as it was (R119). -/
theorem tornDown_tearDown (st : PortState) : TornDown p s (tearDown p st s) :=
  ⟨fun q h => port_tearDown_of_ne s p q st h, rfl, fun i => record_tearDown s p i st, rfl,
    rfl, rfl, rfl, rfl, rfl, rfl, rfl, rfl, rfl, rfl⟩

end Sys2Proof.Machine
end

