-- ==== Sys2Proof/Laws/Step.lean ====
section
/-!
SUPPORT. Laws/Step.lean: everything a step can do, once, as the moves it is made of. A property that every move keeps, every step
keeps (`Kept.step`).
-/

namespace Sys2Proof.Machine

/-- A property of the state that the part keeps in every move that several commands share. -/
structure Moves (P : State → Prop) : Prop where
  /-- The model's own fields, the prescaler, the tick counter and the clearing's count change. -/
  counted : ∀ s l n c k t, P s → P { s with pending := l, choices := n, clearCount := c, prescaler := k, tick := t }
  /-- A port's PRESENT level, OVERRUN, strike count or transaction changes. -/
  quiet : ∀ s p f, (∀ h : HostPort, (f h).state = h.state ∧ (f h).queue = h.queue ∧ (f h).notices = h.notices ∧
    (f h).fenceLine = h.fenceLine) → P s → P (s.modifyPort p f)
  /-- A PULL removes the head of a queue. -/
  pulled : ∀ s p, P s → P (s.modifyPort p fun h => { h with queue := h.queue.tail })
  /-- A request is answered. -/
  responded : ∀ s p r, 0 < s.credits p → (s.port p).state ≠ .absent → P s → P (queueResponse p r s)
  /-- Some of a port's notices are removed. -/
  noticesTaken : ∀ s p (g : List Notice → List Notice), (∀ ns : List Notice, (g ns).Sublist ns) → P s →
    P (s.modifyPort p fun h => { h with notices := g h.notices })
  /-- A DETACHED port joins. -/
  sessionOpened : ∀ s p, (s.port p).state = .detached → P s →
    P (s.modifyPort p fun h => { h with state := .joined, strikes := 0 })
  /-- PRESENT rises on an ABSENT port. -/
  appeared : ∀ s p, (s.port p).state = .absent → P s → P (s.modifyPort p fun h => { h with state := .detached })
  /-- A waiting entry ends with a response. -/
  ended : ∀ s e r b, e ∈ s.waiting → P s → P (endEntry e r b s)
  /-- A recall begins. -/
  recallBegun : ∀ s i, P s → P (beginRecall i s)
  /-- A live lease is revoked. -/
  revoked : ∀ s i c, P s → P (revoke i c s)
  /-- A port is fenced. -/
  fenced : ∀ s p, P s → P (fencePort p s)
  /-- The walk grants an entry, or ends it EXHAUSTED. -/
  entryGranted : ∀ s e, e ∈ s.waiting → s.entryAt? e.index = some e →
    blockedBy (earlierThan e.index s.waiting) e.port e.claim.spans = false →
    s.holdersOff e.port e.claim.spans = [] → P s → P (grantEntry e s)
  /-- An ACQUIRE is granted when it is taken. -/
  acquired : ∀ s p term spans, s.phase = .run → (s.port p).state = .joined → acquirable s p spans = true →
    grantableNow p spans s = true → P s → P (allocate p term spans s).1
  /-- An UPGRADE is granted when it is taken. -/
  upgradedNow : ∀ s p i t d w, s.lease i = .granted t d w none → t.port = p →
    grantableNow p [{ mode := .exclusive, span := t.span }] s = true → s.canSupply 1 = true → P s → P (upgradeRecord i s)
  /-- An ACQUIRE becomes a waiting entry. -/
  acquireAdmitted : ∀ s e spans term, s.phase = .run → (s.port e.port).state = .joined → 0 < s.credits e.port →
    s.tagInUse e.port e.tag = false → s.admissionSource? e.port = some e.source → s.freeIndex? = some e.index →
    e.claim = .acquire spans term → acquirable s e.port spans = true → P s → P (admitEntry e s)
  /-- An UPGRADE becomes a waiting entry. -/
  upgradeAdmitted : ∀ s e i t d w, s.phase = .run → (s.port e.port).state = .joined → 0 < s.credits e.port →
    s.tagInUse e.port e.tag = false → s.admissionSource? e.port = some e.source → s.freeIndex? = some e.index →
    s.lease i = .granted t d w none → t.port = e.port → e.claim = .upgrade (s.handleOf i) t.span → P s → P (admitEntry e s)
  /-- DOWNGRADE. -/
  shared : ∀ s i t d w u, s.lease i = .granted t d w u → P s →
    P (s.setLease i (.granted { t with mode := .shared } d w u))
  /-- A GRANTED lease's deadline and warning tick change. -/
  retimed : ∀ s i t d w u d' w', s.lease i = .granted t d w u → P s → P (s.setLease i (.granted t d' w' u))
  /-- A RECALLING lease's warning tick goes. -/
  unwarned : ∀ s i t d w r w', s.lease i = .recalling t d w r → P s → P (s.setLease i (.recalling t d w' r))
  /-- An EXPIRING notice joins the holder's list. -/
  warned : ∀ s i t d w u, s.lease i = .granted t d w u → P s →
    P (addNotice t.port { handle := s.handleOf i, kind := .expiring, span := t.span, tick := d } s)

/-- What a command that is no reset leads to: `A` holds before it and up to its settlement, `P` through the moves that several
commands share, and `Q` at its end. -/
structure Acts (A P Q : State → Prop) : Prop where
  /-- A command leaves the queue. -/
  taken : ∀ s l, A s → A { s with pending := l }
  /-- A transaction begins or ends, OVERRUN is set, or PRESENT changes. -/
  settles : ∀ s p f, (∀ h : HostPort, (f h).state = h.state ∧ (f h).queue = h.queue ∧ (f h).notices = h.notices ∧
    (f h).fenceLine = h.fenceLine) → A s → A (s.modifyPort p f)
  /-- The shared moves keep `P`. -/
  moves : Moves P
  /-- They keep `Q`. -/
  later : Moves Q
  /-- A command that has done nothing yet. -/
  begun : ∀ s, A s → P s
  /-- A command that does nothing more. -/
  done : ∀ s, P s → Q s
  /-- START. -/
  started : ∀ s, s.phase = .setup → A s → Q { s with phase := .run }
  /-- SET. -/
  configured : ∀ s i q v ps, s.phase = .setup → setParam s.params i q v = some ps → A s → Q { s with params := ps }
  /-- A port is torn down. -/
  tornDown : ∀ s p st, st = .absent ∨ st = .detached → A s → Q (tearDown p st s)
  /-- RELEASE. -/
  released : ∀ s p i t r, (s.lease i).live? = some t → t.port = p → A s →
    Q (removeNotice p i (freeRecord i (endUpgrade i r s)))
  /-- ACK_REVOKED. -/
  acked : ∀ s p i t c k, s.lease i = .revoked t c k → t.port = p → A s → Q (removeNotice p i (freeRecord i s))
  /-- WRITE. -/
  written : ∀ s p i t a bs, s.phase = .run → (s.port p).state = .joined → (s.lease i).live? = some t → t.port = p →
    t.mode = .exclusive → 1 ≤ bs.length → withinSpan t.span a bs.length = true → A s →
    Q { s with array := writeBytes s.array a bs, stamps := stampBlocks s.stamps t.grant (touchedBlocks a bs.length) }
  /-- CLEARING_END. -/
  cleared : ∀ s, s.phase = .clearing → A s → Q (clearingEndAct s)

/-- A property of the state that every move of the part keeps. -/
structure Kept (P : State → Prop) : Prop extends Moves P where
  /-- START. -/
  started : ∀ s, s.phase = .setup → P s → P { s with phase := .run }
  /-- SET. -/
  configured : ∀ s i q v ps, s.phase = .setup → setParam s.params i q v = some ps → P s → P { s with params := ps }
  /-- A port is torn down. -/
  tornDown : ∀ s p st, st = .absent ∨ st = .detached → P s → P (tearDown p st s)
  /-- RELEASE. -/
  released : ∀ s p i t r, (s.lease i).live? = some t → t.port = p → P s →
    P (removeNotice p i (freeRecord i (endUpgrade i r s)))
  /-- ACK_REVOKED. -/
  acked : ∀ s p i t c k, s.lease i = .revoked t c k → t.port = p → P s → P (removeNotice p i (freeRecord i s))
  /-- WRITE. -/
  written : ∀ s p i t a bs, s.phase = .run → (s.port p).state = .joined → (s.lease i).live? = some t → t.port = p →
    t.mode = .exclusive → 1 ≤ bs.length → withinSpan t.span a bs.length = true → P s →
    P { s with array := writeBytes s.array a bs, stamps := stampBlocks s.stamps t.grant (touchedBlocks a bs.length) }
  /-- POWER_ON. -/
  poweredOn : ∀ s, P s → P (powerOnAct s)
  /-- RESET_ASSERTED. -/
  resetTaken : ∀ s, P s → P (resetAssertedAct s)
  /-- RESET_DEASSERTED. -/
  resetReleased : ∀ s, P s → P (resetDeassertedAct s)
  /-- CLEARING_END. -/
  cleared : ∀ s, s.phase = .clearing → P s → P (clearingEndAct s)

/-! ### Credits: a settlement that ends an entry has a place for its answer -/

/-- A port's entries, counted. -/
theorem length_entriesOf (s : State) (q : Port) : (s.entriesOf q).length = (s.waiting.map (·.port)).count q := by
  rw [State.entriesOf, List.count, List.countP_map, List.countP_eq_length_filter]
  rfl

/-- Fewer entries of a port pass a filter that one of them fails. -/
theorem countP_filter_lt {es : List Entry} {e : Entry} {f g : Entry → Bool} (he : e ∈ es) (hf : f e = false) (hg : g e = true) :
    (es.filter f).countP g + 1 ≤ es.countP g := by
  induction es with
  | nil => simp at he
  | cons a es ih =>
    rcases List.mem_cons.mp he with rfl | he
    · simp only [List.filter_cons, hf, Bool.false_eq_true, if_false, List.countP_cons, hg, if_true]
      exact Nat.add_le_add_right (List.Sublist.countP_le List.filter_sublist) 1
    · have := ih he
      cases ha : f a <;> simp only [List.filter_cons, ha, Bool.false_eq_true, if_false, if_true, List.countP_cons] <;> omega

/-- An entry that ends takes one place of its port's queue and gives back at least one entry's. -/
theorem load_endEntry (s : State) (e : Entry) (r : Result) (b : Body) (he : e ∈ s.waiting) (q : Port) :
    ((endEntry e r b s).port q).queue.length + ((endEntry e r b s).entriesOf q).length ≤
      (s.port q).queue.length + (s.entriesOf q).length := by
  have hw : ((endEntry e r b s).entriesOf q).length = (s.waiting.filter fun x => x.index != e.index).countP (·.port == q) := by
    rw [length_entriesOf, endEntry_eq, State.modifyPort_waiting, waiting_entryLeaves,
      map_withoutEntry e (·.port) (fun _ _ => rfl), List.count, List.countP_map]
    rfl
  have hs : (s.entriesOf q).length = s.waiting.countP (·.port == q) := by
    rw [length_entriesOf, List.count, List.countP_map]; rfl
  rw [hw, hs]
  by_cases h : q = e.port
  · subst h
    have := countP_filter_lt (f := fun x => x.index != e.index) (g := (·.port == e.port)) he (by simp) (by simp)
    rw [endEntry_eq, State.port_modifyPort_self, port_entryLeaves]
    simp only [List.length_append, List.length_singleton]
    omega
  · rw [endEntry_eq, State.port_modifyPort_of_ne _ _ _ _ h, port_entryLeaves]
    exact Nat.add_le_add_left (List.Sublist.countP_le List.filter_sublist) _

theorem credits_endEntry (s : State) (e : Entry) (r : Result) (b : Body) (he : e ∈ s.waiting) (q : Port) :
    s.credits q ≤ (endEntry e r b s).credits q := by
  have := load_endEntry s e r b he q
  simp only [State.credits]
  omega

theorem credits_endUpgrade (s : State) (i : Slot) (r : Result) (q : Port) : s.credits q ≤ (endUpgrade i r s).credits q := by
  rcases endUpgrade_cases s i r with h | ⟨_, _, _, _, e, -, he, h⟩ <;> rw [h]
  exact credits_endEntry s e r .empty (List.mem_of_find?_eq_some he) q

/-- The end of an entry leaves every port in its state. -/
theorem state_endUpgrade (s : State) (i : Slot) (r : Result) (q : Port) :
    ((endUpgrade i r s).port q).state = (s.port q).state := by
  rcases endUpgrade_cases s i r with h | ⟨_, _, _, _, e, -, -, h⟩ <;> rw [h]
  rw [endEntry_eq, State.port_modifyPort]
  split <;> simp

/-- A change of a port that keeps its queue keeps every port's credits. -/
theorem credits_modifyPort (s : State) (p q : Port) (f : HostPort → HostPort) (h : (f (s.port p)).queue = (s.port p).queue) :
    (s.modifyPort p f).credits q = s.credits q := by
  simp only [State.credits, State.entriesOf_modifyPort, State.port_modifyPort]
  split
  · subst_vars; rw [h]
  · rfl

@[simp] theorem credits_removeNotice (s : State) (p q : Port) (i : Slot) : (removeNotice p i s).credits q = s.credits q :=
  credits_modifyPort s p q _ rfl

@[simp] theorem credits_freeRecord (s : State) (q : Port) (i : Slot) : (freeRecord i s).credits q = s.credits q := rfl

@[simp] theorem state_removeNotice (s : State) (p q : Port) (i : Slot) :
    ((removeNotice p i s).port q).state = (s.port q).state := by
  rw [removeNotice, State.port_modifyPort]
  split <;> rfl

@[simp] theorem state_freeRecord (s : State) (q : Port) (i : Slot) :
    ((freeRecord i s).port q).state = (s.port q).state := rfl

/-! ### What passing the checks says -/

/-- A frame of the port is taken: it has credits, is not ABSENT, and the part is not in CLEARING (R154). -/
structure Taken (s : State) (p : Port) : Prop where
  credit : 0 < s.credits p
  fitted : (s.port p).state ≠ .absent
  ready : s.phase ≠ .clearing

theorem taken_afterPush {s : State} {p : Port} (m : Nat) (h : takesFrame s p = true) : Taken (afterPush s p m) p := by
  simp only [takesFrame, settlesPush, Bool.and_eq_true, bne_iff_ne, ne_eq, decide_eq_true_eq] at h
  exact ⟨by simpa using h.2, by simpa using h.1.1.2, by simpa using h.1.2⟩

/-- The common checks pass: admission, phase and tag each do (R113 to R115). -/
theorem commonCheck_none {k : Kind} {p : Port} {tag : Tag} {s : State} (h : commonCheck k p tag s = none) :
    admission k (s.port p).state = none ∧ phaseCheck k s.phase = none ∧ s.tagInUse p tag = false := by
  unfold commonCheck at h
  split at h
  · simp at h
  · split at h
    · simp at h
    · split at h
      · simp at h
      · simp_all

/-- A lease or array request that passes its common checks comes from a JOINED port in RUN (R113, R114). -/
theorem running_of_commonCheck {k : Kind} {p : Port} {tag : Tag} {s : State} (ht : Taken s p)
    (h : commonCheck k p tag s = none) (hk : phaseCheck k .setup = some .notRunning) :
    s.phase = .run ∧ (s.port p).state = .joined := by
  obtain ⟨ha, hp, -⟩ := commonCheck_none h
  refine ⟨?_, ?_⟩
  · cases k <;> simp [phaseCheck] at hk hp ⊢ <;> exact hp
  · have := ht.fitted
    cases hs : (s.port p).state <;> cases k <;>
      simp_all [admission, takenDetached, takenFenced, phaseCheck]

theorem emptyBodyChecks_ok {k : Kind} {p : Port} {tag : Tag} {body : List Byte} {s : State}
    (h : emptyBodyChecks k p tag body s = .ok ()) : commonCheck k p tag s = none := by
  unfold emptyBodyChecks at h
  split at h
  · simp at h
  · assumption

/-- A handle's checks pass: the slot's record is the port's own, and not FREE (R7). -/
theorem handleChecks_ok {k : Kind} {p : Port} {tag : Tag} {body : List Byte} {s : State} {i : Slot}
    (h : handleChecks k p tag body s = .ok i) : commonCheck k p tag s = none ∧ s.holder? i = some p := by
  unfold handleChecks at h
  split at h
  · simp at h
  · split at h
    · simp at h
    · split at h
      · rename_i hc _ _ _ hr
        simp only [Except.ok.injEq] at h
        subst h
        simp only [State.resolves, Bool.and_eq_true, beq_iff_eq] at hr
        exact ⟨hc, hr.2⟩
      · simp at h

theorem handleNumberChecks_ok {k : Kind} {p : Port} {tag : Tag} {body : List Byte} {s : State} {i : Slot} {n : Nat}
    (h : handleNumberChecks k p tag body s = .ok (i, n)) : commonCheck k p tag s = none ∧ s.holder? i = some p := by
  unfold handleNumberChecks at h
  split at h
  · simp at h
  · split at h
    · simp at h
    · split at h
      · rename_i hc _ _ _ _ hr
        simp only [Except.ok.injEq, Prod.mk.injEq] at h
        obtain ⟨rfl, rfl⟩ := h
        simp only [State.resolves, Bool.and_eq_true, beq_iff_eq] at hr
        exact ⟨hc, hr.2⟩
      · simp at h

/-- The port that holds a record with a tenure is the tenure's. -/
theorem port_of_holder? {s : State} {i : Slot} {p : Port} {t : Tenure} (h : s.holder? i = some p)
    (ht : (s.lease i).tenure? = some t) : t.port = p := by
  simpa [State.holder?, LeaseState.holder?, ht] using h

/-- The spans read from an ACQUIRE body are valid. -/
theorem parseSpans_valid (bs : List Byte) : ∀ ms, parseSpans bs = some ms → ∀ m ∈ ms, m.span.valid = true := by
  induction bs using parseSpans.induct with
  | case1 => intro ms h; simp [parseSpans] at h; subst h; simp
  | case2 m f0 f1 c rest mode more hr hm sp hv ih =>
    intro ms h
    simp only [parseSpans, hm, hr] at h
    rw [if_pos hv] at h
    simp only [Option.some.injEq] at h
    subst h
    intro x hx
    rcases List.mem_cons.mp hx with rfl | hx
    · exact hv
    · exact ih more hr x hx
  | case3 m f0 f1 c rest mode more hr hm sp hv ih =>
    intro ms h
    simp only [parseSpans, hm, hr] at h
    rw [if_neg hv] at h
    simp at h
  | case4 m f0 f1 c rest hx ih =>
    intro ms h
    simp only [parseSpans] at h
    simp at h
  | case5 t h1 h2 => intro ms h; simp [parseSpans] at h

/-! ### What the shared moves keep -/

namespace Moves

variable {P : State → Prop} (K : Moves P) {s : State} {p : Port} {tag : Tag} {body : List Byte}
include K

theorem scan (h : P s) : P (grantScan s) :=
  grantScan_induction K.recallBegun (fun s e h he ha hb ho => K.entryGranted s e he ha hb ho h) s h

theorem judged (e : Entry) (h : P s) : P (judgeNew e s) := by
  unfold judgeNew
  split
  · exact h
  · exact beginRecalls_induction K.recallBegun _ s h

theorem answered (ht : Taken s p) (k : Kind) (r : Result) (b : Body) (h : P s) : P (answer p k tag r b s) :=
  K.responded s p _ ht.credit ht.fitted h

theorem settled {α : Type} (ht : Taken s p) (k : Kind) (c : Except Result α) (effect : α → State → State)
    (he : ∀ a, c = .ok a → P (effect a s)) (h : P s) : P (settle k p tag c effect s) := by
  unfold settle
  split
  · exact K.answered ht _ _ _ h
  · exact he _ rfl

theorem takeJoin (ht : Taken s p) (h : P s) : P (takeJoin p tag body s) := by
  refine K.settled ht _ _ _ (fun _ hc => ?_) h
  have hd : (s.port p).state = .detached := by
    have ha := (commonCheck_none (emptyBodyChecks_ok hc)).1
    have := ht.fitted
    cases hs : (s.port p).state <;> simp_all [admission, takenFenced]
  refine K.responded _ p _ ?_ (by simp) (K.sessionOpened s p hd h)
  rw [credits_modifyPort s p p _ rfl]
  exact ht.credit

theorem takeGetConfig (ht : Taken s p) (h : P s) : P (takeGetConfig p tag body s) :=
  K.settled ht _ _ _ (fun _ _ => K.answered ht _ _ _ h) h

theorem takeTime (ht : Taken s p) (h : P s) : P (takeTime p tag body s) :=
  K.settled ht _ _ _ (fun _ _ => K.answered ht _ _ _ h) h

theorem takeSync (ht : Taken s p) (h : P s) : P (takeSync p tag body s) := by
  refine K.settled ht _ _ _ (fun _ _ => K.responded _ p _ ?_ ?_ (K.quiet s p _ (by simp) h)) h
  · rw [credits_modifyPort s p p _ rfl]; exact ht.credit
  · simpa using ht.fitted

theorem takeQuery (ht : Taken s p) (h : P s) : P (takeQuery p tag body s) :=
  K.settled ht _ _ _ (fun _ _ => K.answered ht _ _ _ h) h

theorem takeTakeNotices (ht : Taken s p) (h : P s) : P (takeTakeNotices p tag body s) := by
  refine K.settled ht _ _ _ (fun n _ => K.responded _ p _ ?_ ?_
    (K.noticesTaken s p (fun ns => ns.drop n) (fun ns => List.drop_sublist n ns) h)) h
  · rw [credits_modifyPort s p p _ rfl]; exact ht.credit
  · simpa using ht.fitted

theorem takeCancel (ht : Taken s p) (h : P s) : P (takeCancel p tag body s) := by
  refine K.settled ht _ _ _ (fun e hc => K.scan ?_) h
  have he : e ∈ s.waiting := by
    unfold cancelChecks at hc
    split at hc
    · simp at hc
    · split at hc
      · simp at hc
      · split at hc
        · simp at hc
        · simp only [Except.ok.injEq] at hc
          subst hc
          exact List.mem_of_find?_eq_some ‹_›
  refine K.responded _ p _ ?_ ?_ (K.ended s e .cancelled .empty he h)
  · exact Nat.lt_of_lt_of_le ht.credit (credits_endEntry s e .cancelled .empty he p)
  · rw [endEntry_eq, State.port_modifyPort]
    split <;> simpa using ht.fitted

theorem takeDowngrade (ht : Taken s p) (h : P s) : P (takeDowngrade p tag body s) := by
  refine K.settled ht _ _ _ (fun i hc => K.scan ?_) h
  unfold sharedRecord
  split
  · rename_i t d w u hl
    exact K.responded _ p _ ht.credit ht.fitted (K.shared s i t d w u hl h)
  · exact K.answered ht _ _ _ h

theorem takeRenew (ht : Taken s p) (h : P s) : P (takeRenew p tag body s) := by
  refine K.settled ht _ _ _ (fun a hc => ?_) h
  have hr : P (renewedRecord a.1 a.2 s) := by
    unfold renewedRecord
    split
    · exact K.retimed s a.1 _ _ _ _ _ _ ‹_› h
    · exact h
  have hs : Taken (renewedRecord a.1 a.2 s) p := by unfold renewedRecord; split <;> exact ⟨ht.credit, ht.fitted, ht.ready⟩
  have he : P (removeExpiring p a.1 (renewedRecord a.1 a.2 s)) :=
    K.noticesTaken _ p (fun ns => ns.filter _) (fun _ => List.filter_sublist) hr
  refine K.responded _ p _ ?_ ?_ he
  · rw [removeExpiring, credits_modifyPort _ p p _ rfl]; exact hs.credit
  · simpa [removeExpiring] using hs.fitted

theorem waited (ht : Taken s p) (k : Kind) (c : Claim) (wait : Nat)
    (ha : ∀ e : Entry, e.port = p → e.tag = tag → e.claim = c → s.admissionSource? p = some e.source →
      s.freeIndex? = some e.index → P (admitEntry e s)) (h : P s) : P (waitOrRefuse k p tag c wait s) := by
  unfold waitOrRefuse
  split
  · exact K.answered ht _ _ _ h
  · split
    · exact K.judged _ (ha _ rfl rfl rfl ‹_› ‹_›)
    · exact K.answered ht _ _ _ h

theorem takeAcquire (ht : Taken s p) (h : P s) : P (takeAcquire p tag body s) := by
  refine K.settled ht _ _ _ (fun a hc => ?_) h
  have hok : commonCheck .acquire p tag s = none ∧ acquirable s p a.spans = true := by
    unfold acquireChecks at hc
    split at hc
    · simp at hc
    · rename_i hcc
      refine ⟨hcc, ?_⟩
      split at hc
      · simp at hc
      · rename_i b hb
        split at hc
        · simp at hc
        · rename_i h1
          split at hc
          · simp at hc
          · rename_i h2
            split at hc
            · simp at hc
            · rename_i h3
              simp only [Except.ok.injEq] at hc
              subst hc
              have hspans : 1 ≤ b.spans.length ∧ b.spans.length ≤ 4 ∧ ∀ m ∈ b.spans, m.span.valid = true := by
                unfold parseAcquire at hb
                split at hb
                · split at hb
                  · rename_i spans hsp
                    split at hb
                    · rename_i hn
                      simp only [Option.some.injEq] at hb
                      subst hb
                      obtain ⟨hn1, hn2, hn3⟩ := hn
                      exact ⟨hn3 ▸ hn1, hn3 ▸ hn2, parseSpans_valid _ _ hsp⟩
                    · simp at hb
                  · simp at hb
                · simp at hb
              simp only [Bool.not_eq_true', Bool.not_eq_false, State.canSupply] at h3
              simp only [acquirable, Bool.and_eq_true, decide_eq_true_eq, List.all_eq_true, Bool.not_eq_true']
              exact ⟨⟨⟨⟨⟨hspans.1, hspans.2.1⟩, hspans.2.2⟩, by simpa using h1⟩, Nat.not_lt.mp h2⟩,
                of_decide_eq_true h3⟩
  obtain ⟨hrun, hj⟩ := running_of_commonCheck ht hok.1 rfl
  unfold acquireEffect
  split
  · rename_i hg
    have hp : ∀ ms u, ((allocate p a.term ms u).1).ports = u.ports ∧ ((allocate p a.term ms u).1).waiting = u.waiting := by
      intro ms
      induction ms with
      | nil => exact fun u => ⟨rfl, rfl⟩
      | cons m ms ih =>
        intro u
        simp only [allocate]
        split
        · exact ⟨rfl, rfl⟩
        · exact ih _
    refine K.responded _ p _ ?_ ?_ (K.acquired s p a.term a.spans hrun hj hok.2 hg h)
    · have := ht.credit
      simp only [State.credits, State.port, State.entriesOf, hp] at this ⊢
      exact this
    · have := ht.fitted
      simp only [State.port, hp] at this ⊢
      exact this
  · refine K.waited ht _ _ _ (fun e hep het hec hsrc hx => ?_) h
    subst hep het
    exact K.acquireAdmitted s e a.spans a.term hrun hj ht.credit (commonCheck_none hok.1).2.2 hsrc hx hec hok.2 h

theorem takeUpgrade (ht : Taken s p) (h : P s) : P (takeUpgrade p tag body s) := by
  refine K.settled ht _ _ _ (fun a hc => ?_) h
  obtain ⟨i, t, n⟩ := a
  have hok : commonCheck .upgrade p tag s = none ∧ s.canSupply 1 = true ∧ t.port = p ∧
      ∃ d w, s.lease i = .granted t d w none := by
    unfold upgradeChecks at hc
    split at hc
    · simp at hc
    · rename_i j m hj
      obtain ⟨hcc, hh⟩ := handleNumberChecks_ok hj
      split at hc
      · simp at hc
      · simp at hc
      · simp at hc
      · rename_i t' d w u hl
        split at hc
        · simp at hc
        · split at hc
          · simp at hc
          · split at hc
            · simp at hc
            · rename_i h1 h2 h3
              simp only [Except.ok.injEq, Prod.mk.injEq] at hc
              obtain ⟨rfl, rfl, -⟩ := hc
              have hu : u = none := by simpa using h2
              subst hu
              exact ⟨hcc, by simpa using h3, port_of_holder? hh (by simp [hl, LeaseState.tenure?]), d, w, hl⟩
  obtain ⟨hcc, hcs, hp, d, w, hl⟩ := hok
  obtain ⟨hrun, hj⟩ := running_of_commonCheck ht hcc rfl
  unfold upgradeEffect
  split
  · rename_i hg
    have hsame : (upgradeRecord i s).ports = s.ports ∧ (upgradeRecord i s).waiting = s.waiting := by
      unfold upgradeRecord; split <;> exact ⟨rfl, rfl⟩
    refine K.responded _ p _ ?_ ?_ (K.upgradedNow s p i t d w hl hp hg hcs h)
    · have := ht.credit
      simp only [State.credits, State.port, State.entriesOf, hsame] at this ⊢
      exact this
    · have := ht.fitted
      simp only [State.port, hsame] at this ⊢
      exact this
  · refine K.waited ht _ _ _ (fun e hep het hec hsrc hx => ?_) h
    subst hep het
    exact K.upgradeAdmitted s e i t d w hrun hj ht.credit (commonCheck_none hcc).2.2 hsrc hx hl hp hec h

theorem takeRead (ht : Taken s p) (h : P s) : P (takeRead p tag body s) :=
  K.settled ht _ _ _ (fun _ _ => K.answered ht _ _ _ h) h

theorem deadline (d : Deadline) (h : P s) : P (takeDeadline d s) := by
  unfold takeDeadline
  split
  · cases d with
    | lease i => exact K.scan (K.revoked s _ _ h)
    | warning i =>
      dsimp only
      unfold warningTickAct
      have hw : P (s.setLease i (s.lease i).withoutWarning) := by
        cases hl : s.lease i with
        | granted t d w u => exact K.retimed s i t d w u d none hl h
        | recalling t d w r => exact K.unwarned s i t d w r none hl h
        | free => rw [State.setLease_same s i _ (by rw [hl]; rfl)]; exact h
        | revoked t c k => rw [State.setLease_same s i _ (by rw [hl]; rfl)]; exact h
      dsimp only
      split
      · rename_i t d w u hl
        have he : (s.setLease i (s.lease i).withoutWarning).lease i = .granted t d none u := by
          rw [State.lease_setLease_self, hl]; rfl
        have := K.warned _ i t d none u he hw
        rwa [State.handleOf_setLease] at this
      · exact hw
    | recallEnds i =>
      dsimp only
      unfold recallDeadlineAct
      split
      · refine K.scan ?_
        rename_i q _
        have hc : P (countStrike q (revoke i .recallTimeout s)) := K.quiet _ q _ (by simp) (K.revoked s i _ h)
        unfold fenceCheck
        split
        · exact K.fenced _ _ hc
        · exact hc
      · exact h
    | wait x =>
      dsimp only
      unfold waitDeadlineAct
      split
      · exact K.scan (K.ended s _ _ _ (List.mem_of_find?_eq_some ‹_›) h)
      · exact h
  · exact h

theorem one {u : State} (hu : takeOne s = some u) (h : P s) : P u := by
  unfold takeOne at hu
  split at hu
  · simp at hu
  · simp only [Option.some.injEq] at hu; subst hu; exact K.deadline _ h
  · simp only [Option.some.injEq] at hu; subst hu
    exact K.deadline _ (K.counted s s.pending _ s.clearCount s.prescaler s.tick h)

theorem reached (n : Nat) (h : P s) : P (takeReached n s) := by
  induction n generalizing s with
  | zero => exact h
  | succ n ih =>
    unfold takeReached
    split
    · exact h
    · exact ih (K.one ‹_› h)

theorem ticked (h : P s) : P (tickAct s) :=
  K.counted _ _ _ _ _ _ (K.reached maxDeadlines h)

theorem rose (h : P s) : P (presentRisesAct p s) := by
  unfold presentRisesAct
  split
  · exact h
  · by_cases hc : (s.port p).state = .absent ∧ s.resetAsserted = false
    · have := K.quiet _ p (fun h => { h with present := true }) (by simp) (K.appeared s p hc.1 h)
      rw [State.modifyPort_modifyPort] at this
      refine (State.modifyPort_congr s p _ ?_) ▸ this
      simp [hc.1, hc.2]
    · have := K.quiet s p (fun h => { h with present := true }) (by simp) h
      refine (State.modifyPort_congr s p _ ?_) ▸ this
      simp only [if_neg hc]

end Moves

/-! ### What a command that is no reset leads to -/

namespace Acts

variable {A P Q : State → Prop} (K : Acts A P Q) {s : State} {p : Port} {tag : Tag} {body : List Byte}
include K

/-- A command that is made of shared moves alone. -/
theorem shared {t : State} (h : A s) (ht : P s → P t) : Q t := K.done _ (ht (K.begun _ h))

/-- A request settled: refused with an answer, or its effect. -/
theorem settled {α : Type} (ht : Taken s p) (k : Kind) (c : Except Result α) (effect : α → State → State)
    (he : ∀ a, c = .ok a → Q (effect a s)) (h : A s) : Q (settle k p tag c effect s) := by
  unfold settle
  split
  · exact K.shared h (K.moves.answered ht _ _ _)
  · exact he _ rfl

theorem takeLeave (ht : Taken s p) (h : A s) : Q (takeLeave p tag body s) := by
  refine K.settled ht _ _ _ (fun _ _ => K.later.scan (K.later.responded _ p _ ?_ (by simp) (K.tornDown s p .detached (.inr rfl) h))) h
  have : (tearDown p .detached s).entriesOf p = [] := by
    simp [State.entriesOf, List.filter_filter]
  simp [State.credits, this, Config.queuePlaces]

theorem takeStart (ht : Taken s p) (h : A s) : Q (takeStart p tag body s) := by
  refine K.settled ht _ _ _ (fun _ hc => ?_) h
  have hp : s.phase = .setup := by
    have := (commonCheck_none (emptyBodyChecks_ok hc)).2.1
    simpa [phaseCheck] using this
  exact K.later.responded _ p _ ht.credit ht.fitted (K.started s hp h)

theorem takeSet (ht : Taken s p) (h : A s) : Q (takeSet p tag body s) := by
  refine K.settled ht _ _ _ (fun a hc => ?_) h
  unfold setChecks at hc
  split at hc
  · simp at hc
  · rename_i hcc
    split at hc
    · simp at hc
    · split at hc
      · simp at hc
      · rename_i ps hps
        simp only [Except.ok.injEq] at hc
        subst hc
        have hp : s.phase = .setup := by
          have := (commonCheck_none hcc).2.1
          simpa [phaseCheck] using this
        exact K.later.responded _ p _ ht.credit ht.fitted
          (K.later.counted _ s.pending s.choices s.clearCount _ s.tick (K.configured s _ _ _ ps hp hps h))

theorem takeAckRevoked (ht : Taken s p) (h : A s) : Q (takeAckRevoked p tag body s) := by
  refine K.settled ht _ _ _ (fun i hc => ?_) h
  unfold ackRevokedChecks at hc
  split at hc
  · simp at hc
  · rename_i j hj
    split at hc <;> simp only [Except.ok.injEq, reduceCtorEq] at hc
    rename_i t c k hl
    subst hc
    refine K.later.responded _ p _ ?_ ?_ (K.acked s p j t c k hl
      (port_of_holder? (handleChecks_ok hj).2 (by simp [hl, LeaseState.tenure?])) h)
    · simpa using ht.credit
    · simpa using ht.fitted

theorem takeRelease (ht : Taken s p) (h : A s) : Q (takeRelease p tag body s) := by
  refine K.settled ht _ _ _ (fun i hc => K.later.scan ?_) h
  unfold releaseChecks at hc
  split at hc
  · simp at hc
  · rename_i j hj
    have hh := (handleChecks_ok hj).2
    have done : ∀ t, (s.lease j).live? = some t → Q (answer p .release tag .ok .empty
        (removeNotice p j (freeRecord j (endUpgrade j .cancelled s)))) := by
      intro t hl
      refine K.later.responded _ p _ ?_ ?_
        (K.released s p j t .cancelled hl (port_of_holder? hh (LeaseState.tenure?_of_live? hl)) h)
      · simpa using Nat.lt_of_lt_of_le ht.credit (credits_endUpgrade s j .cancelled p)
      · simpa [state_endUpgrade] using ht.fitted
    split at hc <;> simp only [Except.ok.injEq, reduceCtorEq] at hc <;> subst hc
    · exact done _ (by rw [‹s.lease j = _›]; rfl)
    · exact done _ (by rw [‹s.lease j = _›]; rfl)

theorem takeWrite (ht : Taken s p) (h : A s) : Q (takeWrite p tag body s) := by
  refine K.settled ht _ _ _ (fun a hc => ?_) h
  obtain ⟨g, a, bs⟩ := a
  have hok : commonCheck .write p tag s = none ∧ ∃ i t, (s.lease i).live? = some t ∧ t.port = p ∧ t.mode = .exclusive ∧ t.grant = g ∧ 1 ≤ bs.length ∧
      withinSpan t.span a bs.length = true := by
    unfold writeChecks at hc
    split at hc
    · simp at hc
    · rename_i t a' n bs' hacc
      split at hc
      · simp at hc
      · split at hc
        · simp at hc
        · split at hc
          · simp at hc
          · rename_i h1 h2 h3
            simp only [Except.ok.injEq, Prod.mk.injEq] at hc
            obtain ⟨rfl, rfl, rfl⟩ := hc
            unfold accessChecks at hacc
            split at hacc
            · simp at hacc
            · rename_i hcc
              refine ⟨hcc, ?_⟩
              split at hacc
              · simp at hacc
              · split at hacc
                · rename_i hr
                  split at hacc
                  · simp at hacc
                  · rename_i t' hl
                    simp only [Except.ok.injEq, Prod.mk.injEq] at hacc
                    obtain ⟨rfl, rfl, rfl, rfl⟩ := hacc
                    simp only [State.resolves, Bool.and_eq_true, beq_iff_eq] at hr
                    have hlen : _ = _ := not_ne_iff.mp fun hne => h2 (.inr hne)
                    refine ⟨_, _, hl, port_of_holder? hr.2 (LeaseState.tenure?_of_live? hl), by simpa using h1, rfl, ?_, ?_⟩
                    · rw [hlen]; by_contra hn; exact h2 (.inl fun hh => hn hh.1)
                    · rw [hlen]; simpa using h3
                · simp at hacc
  obtain ⟨hcc, i, t, hl, hp, hm, rfl, hlen, hin⟩ := hok
  obtain ⟨hrun, hj⟩ := running_of_commonCheck ht hcc rfl
  exact K.later.responded _ p _ ht.credit ht.fitted (K.written s p i t a bs hrun hj hl hp hm hlen hin h)

/-- A taken frame of any kind. -/
theorem kind (ht : Taken s p) (k : Kind) (h : A s) : Q (takeKind k p tag body s) := by
  cases k
  · exact K.shared h (K.moves.takeJoin ht)
  · exact K.takeLeave ht h
  · exact K.takeStart ht h
  · exact K.takeSet ht h
  · exact K.shared h (K.moves.takeGetConfig ht)
  · exact K.shared h (K.moves.takeTime ht)
  · exact K.shared h (K.moves.takeSync ht)
  · exact K.shared h (K.moves.takeAcquire ht)
  · exact K.shared h (K.moves.takeUpgrade ht)
  · exact K.shared h (K.moves.takeDowngrade ht)
  · exact K.shared h (K.moves.takeRenew ht)
  · exact K.takeRelease ht h
  · exact K.shared h (K.moves.takeCancel ht)
  · exact K.shared h (K.moves.takeQuery ht)
  · exact K.shared h (K.moves.takeRead ht)
  · exact K.takeWrite ht h
  · exact K.shared h (K.moves.takeTakeNotices ht)
  · exact K.takeAckRevoked ht h

theorem intact (ht : Taken s p) (c : Byte) (h : A s) : Q (takeIntact p c tag body s) := by
  unfold takeIntact
  split
  · exact K.shared h (K.moves.responded _ p _ ht.credit ht.fitted)
  · exact K.kind ht _ h

theorem frame (ht : Taken s p) (f : List Byte) (h : A s) : Q (takeFrame p f s) := by
  unfold takeFrame
  split
  · exact K.intact ht _ h
  · exact K.shared h (K.moves.responded _ p _ ht.credit ht.fitted)

theorem fall (h : A s) : A (chipSelectFalls p s) := by
  unfold chipSelectFalls
  split
  · exact K.settles s p _ (by simp) h
  · exact h

theorem rise (n : Nat) (shifted : Option Response → List Byte) (settlement : Option Response → State → State)
    (hs : ∀ head u, A u → Q (settlement head u)) (h : A s) : Q (endTransaction p n shifted settlement s) := by
  unfold endTransaction
  dsimp only
  split
  · exact K.shared (K.fall h) id
  · exact K.shared (K.settles _ p _ (by simp) (K.fall h)) id
  · exact hs _ _ (K.settles _ p _ (by simp) (K.fall h))

theorem pushSettled (m : Nat) (taken : State → State) (ht : ∀ u, Taken u p → A u → Q (taken u)) (h : A s) :
    Q (settlePush p m taken s) := by
  unfold settlePush
  split
  · exact K.shared h id
  · split
    · exact K.shared h id
    · split
      · exact K.shared h id
      · split
        · exact K.shared (K.settles s p _ (by simp) h) id
        · exact ht s ⟨Nat.pos_of_ne_zero ‹_›, ‹_›, ‹_›⟩ h

theorem push (m : Nat) (taken : State → State) (ht : ∀ u, Taken u p → A u → Q (taken u)) (h : A s) :
    Q (endPush p m taken s) :=
  K.rise _ _ _ (fun _ _ hu => K.pushSettled m taken ht hu) h

theorem pushedFrame (c : Byte) (taken : State → State) (ht : ∀ u, Taken u p → A u → Q (taken u)) (h : A s) :
    Q (pushFrame p c tag body taken s) := by
  refine K.push _ _ (fun u hu hp => ?_) h
  split
  · exact ht u hu hp
  · exact K.shared hp (K.moves.responded _ p _ hu.credit hu.fitted)

theorem pushedKind (k : Kind) (h : A s) : Q (pushFrame p (kindCode k) tag body (takeKind k p tag body) s) :=
  K.pushedFrame _ _ (fun _ ht => K.kind ht k) h

theorem pushedBytes (f : List Byte) (h : A s) : Q (pushBytes p f s) :=
  K.push _ _ (fun _ hu hp => K.frame hu f hp) h

theorem pushedRest (rest : List Byte) (h : A s) : Q (pushRest p rest s) :=
  K.rise _ _ _ (fun _ _ hu => K.pushSettled _ _ (fun _ ht hp => K.frame ht _ hp) hu) h

theorem pulledFrame (n : Nat) (h : A s) : Q (endPull p n s) := by
  refine K.rise _ _ _ (fun head u hu => ?_) h
  unfold settlePull
  split
  · exact K.shared hu id
  · split
    · exact K.shared hu (K.moves.pulled u p)
    · exact K.shared hu id

theorem idled (n : Nat) (h : A s) : Q (endIdle p n s) := K.rise _ _ _ (fun _ _ hu => K.shared hu id) h

theorem bytes (bs : List Byte) (h : A s) : Q (endBytes p bs s) := by
  unfold endBytes
  split
  · exact K.idled 0 h
  · split
    · exact K.pushedRest _ h
    · split
      · exact K.pulledFrame _ h
      · exact K.idled _ h

theorem idle (h : A s) : Q (idle s) := by
  unfold Machine.idle
  split
  · exact K.shared h (K.moves.one ‹_›)
  · unfold refclkPeriod
    split
    · rename_i hc
      simp only [State.clearingRuns, Bool.and_eq_true, beq_iff_eq] at hc
      split
      · exact K.shared h (K.moves.counted s _ _ _ _ _)
      · exact K.cleared s hc.1 h
    · split
      · exact K.shared h id
      · split
        · exact K.shared h (K.moves.counted s _ _ _ _ _)
        · exact K.shared h K.moves.ticked

theorem fell (h : A s) : Q (presentFallsAct p s) := by
  unfold presentFallsAct
  split
  · dsimp only
    have hq := K.settles s p (fun h => { h with present := false, transaction := abandoned h.transaction }) (by simp) h
    split
    · exact K.shared hq id
    · exact K.later.scan (K.tornDown _ p .absent (.inl rfl) hq)
  · exact K.shared h id

/-- A command that is no reset. -/
theorem command (c : Instr) {t : State} (h : A s) (h1 : c ≠ .powerOn) (h2 : ∀ n, c ≠ .resetAsserted n)
    (h3 : c ≠ .resetDeasserted) (he : exec c s = .next t) : Q t := by
  have key : ∀ u, exec c s = .next u → Q u → Q t := by
    intro u hu hp
    rw [he] at hu
    cases hu
    exact hp
  cases c with
  | join q tag b => exact key _ rfl (K.pushedKind .join h)
  | leave q tag b => exact key _ rfl (K.pushedKind .leave h)
  | start q tag b => exact key _ rfl (K.pushedKind .start h)
  | set q tag b => exact key _ rfl (K.pushedKind .set h)
  | getConfig q tag b => exact key _ rfl (K.pushedKind .getConfig h)
  | time q tag b => exact key _ rfl (K.pushedKind .time h)
  | sync q tag b => exact key _ rfl (K.pushedKind .sync h)
  | acquire q tag b => exact key _ rfl (K.pushedKind .acquire h)
  | upgrade q tag b => exact key _ rfl (K.pushedKind .upgrade h)
  | downgrade q tag b => exact key _ rfl (K.pushedKind .downgrade h)
  | renew q tag b => exact key _ rfl (K.pushedKind .renew h)
  | release q tag b => exact key _ rfl (K.pushedKind .release h)
  | cancel q tag b => exact key _ rfl (K.pushedKind .cancel h)
  | query q tag b => exact key _ rfl (K.pushedKind .query h)
  | read q tag b => exact key _ rfl (K.pushedKind .read h)
  | write q tag b => exact key _ rfl (K.pushedKind .write h)
  | takeNotices q tag b => exact key _ rfl (K.pushedKind .takeNotices h)
  | ackRevoked q tag b => exact key _ rfl (K.pushedKind .ackRevoked h)
  | badFrame q f => exact key _ rfl (K.pushedBytes f h)
  | badKind q c tag b => exact key _ rfl (K.pushedFrame _ _ (fun _ ht => K.intact ht c) h)
  | pushDiscarded q f => exact key _ rfl (K.pushedBytes f h)
  | pushInClearing q f => exact key _ rfl (K.pushedBytes f h)
  | pushNoFrame q rest => exact key _ rfl (K.pushedRest rest h)
  | pull q n => exact key _ rfl (K.pulledFrame n h)
  | status q n => exact key _ rfl (K.idled n h)
  | otherTransaction q bs => exact key _ rfl (K.bytes bs h)
  | presentRises q => exact key _ rfl (K.shared h K.moves.rose)
  | presentFalls q => exact key _ rfl (K.fell h)
  | powerOn => exact absurd rfl h1
  | clearingEnd =>
    refine key _ rfl ?_
    split
    · rename_i hc
      simp only [State.clearingRuns, Bool.and_eq_true, beq_iff_eq] at hc
      exact K.cleared s hc.1 h
    · exact K.shared h id
  | resetAsserted n => exact absurd rfl (h2 n)
  | resetDeasserted => exact absurd rfl h3
  | tickEvent =>
    refine key _ rfl ?_
    split
    · exact K.shared h id
    · exact K.shared h K.moves.ticked
  | leaseDeadline i => exact key _ rfl (K.shared h (K.moves.deadline _))
  | warningTick i => exact key _ rfl (K.shared h (K.moves.deadline _))
  | recallDeadline i => exact key _ rfl (K.shared h (K.moves.deadline _))
  | waitDeadline x => exact key _ rfl (K.shared h (K.moves.deadline _))
  | csFalls q => exact key _ rfl (K.shared (K.fall h) id)

/-- A step whose command is no reset. -/
theorem step {t : State} (h : A s) (h1 : s.pending.head? ≠ some .powerOn)
    (h2 : ∀ n, s.pending.head? ≠ some (.resetAsserted n)) (h3 : s.pending.head? ≠ some .resetDeasserted)
    (he : step s = .next t) : Q t := by
  unfold Machine.step at he
  split at he
  · simp only [Host.Outcome.next.injEq] at he
    subst he
    exact K.idle h
  · rename_i c rest hp
    simp only [hp, List.head?_cons, ne_eq, Option.some.injEq] at h1 h2 h3
    exact K.command c (K.taken s rest h) h1 h2 h3 he

end Acts

/-! ### What every step keeps -/

namespace Kept

variable {P : State → Prop} (K : Kept P) {s : State}
include K

/-- The same property before, during and after a command. -/
theorem acts : Acts P P P where
  taken s l h := K.counted s l s.choices s.clearCount s.prescaler s.tick h
  settles := K.quiet
  moves := K.toMoves
  later := K.toMoves
  begun _ h := h
  done _ h := h
  started := K.started
  configured := K.configured
  tornDown := K.tornDown
  released := K.released
  acked := K.acked
  written := K.written
  cleared := K.cleared

/-- What every move keeps, every command keeps. -/
theorem command (c : Instr) {t : State} (h : P s) (he : exec c s = .next t) : P t := by
  have key : ∀ u, exec c s = .next u → P u → P t := by
    intro u hu hp
    rw [he] at hu
    cases hu
    exact hp
  by_cases h1 : c = .powerOn
  · subst h1
    exact key _ rfl (K.poweredOn s h)
  · by_cases h2 : ∃ n, c = .resetAsserted n
    · obtain ⟨n, rfl⟩ := h2
      refine key _ rfl ?_
      split
      · exact h
      · exact K.resetTaken s h
    · by_cases h3 : c = .resetDeasserted
      · subst h3
        refine key _ rfl ?_
        split
        · exact K.resetReleased s h
        · exact h
      · exact K.acts.command c h h1 (fun n hn => h2 ⟨n, hn⟩) h3 he

/-- What every move keeps, every step keeps. -/
theorem step {t : State} (h : P s) (he : step s = .next t) : P t := by
  unfold Machine.step at he
  split at he
  · simp only [Host.Outcome.next.injEq] at he
    subst he
    exact K.acts.idle h
  · exact K.command _ (K.counted s _ s.choices s.clearCount s.prescaler s.tick h) he

end Kept

end Sys2Proof.Machine
end

