-- ==== Sys2Proof/Tests/Slice0.lean ====
section
/-!
SUPPORT. Tests/Slice0.lean: the model's own tests: the well-formedness checks, figures and worked steps of spec/, and for each
statement with hypotheses a state and operands that meet them.
-/

namespace Sys2Proof.Tests

-- One theorem at a time: evaluated together they start more threads than the check's memory limit allows.
set_option Elab.async false

open Sys2Proof Sys2Proof.Machine

/-! ### States to test on -/

/-- The state an outcome answers. -/
def nextOf : Host.Outcome State Fault Refusal → State
  | .next s => s
  | _ => State.reset

/-- A port with an open session. -/
def joinedPort : HostPort := { HostPort.reset true with state := .joined }

/-- In RUN at tick 1000 with four joined ports, the default parameters, grant number 10 issued last, and these records and
entries. -/
def running (records : List (Slot × LeaseState)) (entries : List Entry) : State :=
  { State.reset with
    ports := Vector.replicate 4 joinedPort
    leases := records.foldl (fun v r => v.set r.1 { generation := 1, state := r.2 }) State.reset.leases
    grantCounter := 10
    waiting := entries
    tick := 1000
    phase := .run
    clearCount := 16384 }

/-- A tenure of port 1 over blocks 8 to 15. -/
def held (mode : Mode) : Tenure := { port := 1, mode := mode, span := { first := 8, count := 8 }, grant := 2 }

/-- The handle of a slot in generation 1. -/
def handle1 (i : Slot) : Handle := { slot := i, generation := 1 }

/-- One span. -/
def wants (mode : Mode) (first count : Nat) : ModeSpan := { mode := mode, span := { first := first, count := count } }

/-- A waiting ACQUIRE of an EXCLUSIVE span over blocks 8 to 15. -/
def waiter (x : EntryIndex) (p : Port) (tag : Tag) : Entry :=
  { index := x, port := p, tag := tag, claim := .acquire [wants .exclusive 8 8] 100, waitDeadline := 1000, source := .reserved }

/-- A waiting UPGRADE of slot 1's lease. -/
def upgrader : Entry :=
  { index := 0, port := 1, tag := 3, claim := .upgrade (handle1 1) { first := 8, count := 8 }, waitDeadline := 5000,
    source := .reserved }

/-- Eight entries of port 0 from the shared pool. -/
def pooledEntries : List Entry :=
  (List.range 8).map fun x => { waiter (Fin.ofNat 32 x) 0 (BitVec.ofNat 8 x) with source := .sharedPool }

/-- Port 1 holds slot 1 SHARED, with its upgrade waiting. -/
def upgrading : State := running [(1, .granted (held .shared) 1000 none (some 3))] [upgrader]

/-- Port 1 holds slot 1, which is being recalled. -/
def recalled : State := running [(1, .recalling (held .exclusive) 9000 none 1000)] []

/-- In SETUP with four joined ports. -/
def setup : State := { running [] [] with phase := .setup }

/-- All four ports as given, in RUN. -/
def withPorts (h : HostPort) : State := { running [] [] with ports := Vector.replicate 4 h }

/-- A port that has filled its response queue. -/
def fullPort : HostPort :=
  { joinedPort with queue := List.replicate 16 (responseTo 0x06#8 0#8 .ok (.count 0)) }

/-! ### Well-formedness -/

theorem test_wf_request_body : (Instr.join 0 1#8 (List.replicate 273 0#8)).wellFormed = false := by decide +kernel
theorem test_wf_bad_frame_empty : (Instr.badFrame 0 []).wellFormed = false := by decide +kernel
theorem test_wf_bad_frame_intact : (Instr.badFrame 0 (requestFrame 0x06#8 1#8 [])).wellFormed = false := by decide +kernel
theorem test_wf_bad_kind_known : (Instr.badKind 0 0x06#8 1#8 []).wellFormed = false := by decide +kernel
theorem test_wf_bad_kind_body : (Instr.badKind 0 0x07#8 1#8 (List.replicate 273 0#8)).wellFormed = false := by decide +kernel
theorem test_wf_discarded_empty : (Instr.pushDiscarded 0 []).wellFormed = false := by decide +kernel
theorem test_wf_in_clearing_empty : (Instr.pushInClearing 0 []).wellFormed = false := by decide +kernel
theorem test_wf_no_frame_long : (Instr.pushNoFrame 0 [0#8, 0#8]).wellFormed = false := by decide +kernel
theorem test_wf_pull_short : (Instr.pull 0 0).wellFormed = false := by decide +kernel
theorem test_wf_status_short : (Instr.status 0 0).wellFormed = false := by decide +kernel
theorem test_wf_other_known_type : (Instr.otherTransaction 0 [0xA6#8]).wellFormed = false := by decide +kernel
theorem test_wf_reset_short : (Instr.resetAsserted 49).wellFormed = false := by decide +kernel

/-! ### Figures that the spec gives -/

/-- R3: 12:3 is handle value 204. -/
theorem test_handle_value : ({ slot := 12, generation := 3 } : Handle).value = 204 := by decide +kernel

/-- R158: the CRC of the nine ASCII characters 123456789 is 0x29B1. -/
theorem test_crc : crc16 [0x31#8, 0x32#8, 0x33#8, 0x34#8, 0x35#8, 0x36#8, 0x37#8, 0x38#8, 0x39#8] = 0x29B1#16 := by decide +kernel

/-- R94: a READ of 256 bytes at address 61,900 touches blocks 120 and 121. -/
theorem test_touched_blocks : touchedBlocks 61900 256 = [120, 121] := by decide +kernel

/-- R157: the empty frame is eight bytes, kind 0x80 and five zeros before the CRC. -/
theorem test_empty_frame :
    (responseFrame emptyResponse).length = 8 ∧ (responseFrame emptyResponse).take 6 = [0x80#8, 0#8, 0#8, 0#8, 0#8, 0#8] := by
  decide +kernel

/-- R153: in CLEARING a DETACHED port shifts 0x10 and 0x00. -/
theorem test_status_clearing :
    ((nextOf (exec (.status 0 2) { State.reset with ports := Vector.replicate 4 (HostPort.reset true) })).port 0).sdo =
      [0x10#8, 0x00#8] := by decide +kernel

/-- 10_link_transactions_and_frame_formats.md, Reading one response in two transactions: two responses and one entry make 0x2D and
0x19 in RUN. -/
theorem test_status_run :
    let s := running [] [waiter 0 2 14]
    let s := queueResponse 2 (responseTo 0x20#8 12#8 .ok .empty) (queueResponse 2 (responseTo 0x14#8 13#8 .ok .empty) s)
    s.statusByte0 2 = 0x2D#8 ∧ s.statusByte1 2 = 0x19#8 := by decide +kernel

/-- R161, R151: the OK of a JOIN at port 1 in RUN at tick 1000, as bytes. -/
theorem test_join_body :
    bodyBytes (.joined 1 .run 1000) = [1#8, 2#8, 0x6A#8, 0x42#8, 0x4E#8, 1#8, 0xE8#8, 0x03#8, 0#8, 0#8] := by decide +kernel

/-- R161: the GET_CONFIG body after reset: 24 bytes that end with a shared pool of 16. -/
theorem test_config_body :
    (bodyBytes (.config .setup Params.reset)).length = 24 ∧ (bodyBytes (.config .setup Params.reset)).getLast? = some 16#8 := by
  decide +kernel

/-- R161: a record view is 34 bytes; one of a lease in RECALLING without a warning tick marks items 0 and 2. -/
theorem test_view :
    let v := viewBytes (handle1 1) (.recalling (held .shared) 9 none 5) 7
    v.length = 34 ∧ v[11]? = some 5#8 := by decide +kernel

/-! ### Worked steps of the spec -/

/-- 01_leases_and_the_lease_table.md, Example: one slot through three leases, step 1: after reset P1's ACQUIRE of EXCLUSIVE 40+8 gets
handle value 64 and grant number 1. -/
theorem test_first_grant :
    let s := nextOf (exec (.acquire 1 5 (acquireBody { term := 0, wait := 0, spans := [wants .exclusive 40 8] }))
      { running [] [] with grantCounter := 0 })
    (s.port 1).queue.map (·.body) =
        [.grants [{ handle := { slot := 0, generation := 1 }, grant := 1, deadline := 81000, stamp := 0 }]] ∧
      s.grantCounter = 1 ∧ ({ slot := 0, generation := 1 } : Handle).value = 64 := by decide +kernel

/-- 02_acquisition_and_the_grant_order.md, Worked example, step 1: at tick 1,000 an UPGRADE waits with deadline 5,000, and the other
port's SHARED lease goes to RECALLING with recall deadline 1,800. -/
theorem test_upgrade_waits :
    let other : Tenure := { port := 0, mode := .shared, span := { first := 0, count := 16 }, grant := 1 }
    let s := nextOf (exec (.upgrade 0 3 (handleNumberBody (handle1 0) 4000))
      (running [(0, .granted other 70000 none none), (1, .granted (held .shared) 70000 none none)] []))
    s.lease 1 = .recalling (held .shared) 70000 none 1800 ∧ s.lease 0 = .granted other 70000 none (some 3) ∧
      s.waiting.map (·.waitDeadline) = [5000] ∧ (s.port 0).queue = [] ∧ (s.port 1).notices.length = 1 := by decide +kernel

/-- R147: with quotas of 16, raising LEASE_QUOTA[0] to 20 is BAD_VALUE, and lowering LEASE_QUOTA[3] to 12 is taken. -/
theorem test_quota_sum :
    setParam Params.reset 0x07#8 0#8 20 = none ∧
      (setParam Params.reset 0x07#8 3#8 12).map (·.leaseQuota) = some #v[16, 16, 16, 12] := by decide +kernel

/-- R99: a WRITE of one byte stores it and stamps its block with the lease's grant number. -/
theorem test_write :
    let s := nextOf (exec (.write 1 9 (writeBody (handle1 1) 4607 [0xAB#8])) (running [(1, .granted (held .exclusive) 9000 none none)] []))
    s.array = [(4607, 0xAB#8)] ∧ stampAt s.stamps 8 = 2 ∧ stampAt s.stamps 9 = 0 := by decide +kernel

/-- R77: with FENCE_STRIKES 1 a recall that runs out fences the port and asserts FENCE#. -/
theorem test_fence :
    let s := nextOf (exec (.recallDeadline 1) { recalled with params := { Params.reset with fenceStrikes := 1 } })
    (s.port 1).state = .fenced ∧ (s.port 1).fenceLine = true ∧ (s.port 1).strikes = 1 ∧
      s.lease 1 = .revoked (held .exclusive) .recallTimeout 1000 := by decide +kernel

/-- R82: at TICK_PERIOD code 0 the 200th REFCLK period is a tick event. -/
theorem test_tick_period :
    let s := { running [] [] with params := { Params.reset with tickPeriod := 0 }, prescaler := 199 }
    (nextOf (step s)).tick = 1001 ∧ (nextOf (step s)).prescaler = 0 := by decide +kernel

/-! ### States that meet the hypotheses of the statements, clause by clause -/

theorem witness_IdleStepCountsRefclk :
    let held := { setup with resetAsserted := true }
    let s := { running [] [] with prescaler := 6248 }
    let u := { running [] [] with prescaler := 6249 }
    (held.pending = [] ∧ held.outstanding = [] ∧ held.clearingRuns = false ∧ held.clockHeld = true) ∧
    (s.pending = [] ∧ s.outstanding = [] ∧ s.clearingRuns = false ∧ s.clockHeld = false ∧ s.prescaler + 1 < 6250) ∧
    (u.pending = [] ∧ u.outstanding = [] ∧ u.clearingRuns = false ∧ u.clockHeld = false ∧ 6250 ≤ u.prescaler + 1) := by
  decide +kernel

theorem witness_TickEventAdvancesCounter :
    State.reset.clockHeld = true ∧ (setup.clockHeld = false ∧ setup.outstanding = []) ∧
      (recalled.clockHeld = false ∧ recalled.outstanding = [.recallEnds 1] ∧
        (takeDeadline (.recallEnds 1) recalled).outstanding = []) := by decide +kernel

theorem witness_LeaseDeadlineRevokes :
    (running [(1, .granted (held .shared) 1000 none none)] []).lease 1 = .granted (held .shared) (running [] []).tick none none ∧
    (running [(63, .recalling (held .shared) 1000 none 1001)] []).lease 63 = .recalling (held .shared) 1000 none 1001 ∧
    (upgrading.lease 1 = .granted (held .shared) upgrading.tick none (some 3) ∧
      upgrading.entryWithTag? 1 3 = some upgrader ∧ upgrader.claim = .upgrade (upgrading.handleOf 1) { first := 8, count := 8 }) ∧
    (recalled.lease 1).deadline? ≠ some recalled.tick ∧ (recalled.lease 0).deadline? ≠ some recalled.tick := by decide +kernel

theorem witness_WarningTickTellsHolder :
    (running [(1, .granted (held .shared) 2000 (some 1000) none)] []).lease 1 =
      .granted (held .shared) 2000 (some (running [] []).tick) none ∧
    (running [(1, .recalling (held .shared) 2000 (some 1000) 1500)] []).lease 1 =
      .recalling (held .shared) 2000 (some (running [] []).tick) 1500 ∧
    (recalled.lease 1).warning? ≠ some recalled.tick := by decide +kernel

theorem witness_RecallDeadlineStrikes :
    let struck := { recalled with ports := Vector.replicate 4 { joinedPort with strikes := 2 } }
    recalled.lease 1 = .recalling (held .exclusive) 9000 none recalled.tick ∧ 1 < recalled.params.fenceStrikes ∧
    (struck.lease 1 = .recalling (held .exclusive) 9000 none struck.tick ∧ 0 < struck.params.fenceStrikes ∧
      struck.params.fenceStrikes ≤ min ((struck.port 1).strikes + 1) 15) ∧
    (upgrading.lease 1).recallAt? ≠ some upgrading.tick := by decide +kernel

theorem witness_FenceTakesEveryLease :
    (recalled.lease 1).live? = some (held .exclusive) ∧ (held .exclusive).port = 1 ∧ (2 : Port) ≠ 1 := by decide +kernel

theorem witness_WaitDeadlineEndsEntry :
    ((running [] [waiter 31 2 7]).entryAt? 31 = some (waiter 31 2 7) ∧ (waiter 31 2 7).waitDeadline = (running [] []).tick) ∧
    (running [] []).entryAt? 0 = none ∧
    (upgrading.entryAt? 0 = some upgrader ∧ upgrader.waitDeadline ≠ upgrading.tick) := by decide +kernel

theorem witness_EndedEntryLeaves :
    let pooled := { waiter 2 1 9 with source := .sharedPool }
    let s := { upgrading with waiting := [waiter 1 2 8] ++ upgrader :: [pooled] }
    (s.waiting = [waiter 1 2 8] ++ upgrader :: [pooled] ∧ (∀ x ∈ [waiter 1 2 8] ++ [pooled], x.index ≠ upgrader.index)) ∧
    (upgrader.source = .reserved ∧ [waiter 1 2 8] ++ [pooled] = [waiter 1 2 8] ++ pooled :: [] ∧ pooled.port = upgrader.port ∧
      pooled.source = .sharedPool ∧ ∀ x ∈ [waiter 1 2 8], ¬(x.port = upgrader.port ∧ x.source = .sharedPool)) ∧
    (upgrader.claim = .upgrade (handle1 1) { first := 8, count := 8 } ∧
      s.lease 1 = .granted (held .shared) 1000 none (some 3)) ∧
    (s.waiting = [waiter 1 2 8, upgrader] ++ pooled :: [] ∧ (∀ x ∈ [waiter 1 2 8, upgrader] ++ [], x.index ≠ pooled.index) ∧
      pooled.source = .sharedPool ∧ pooled.claim = .acquire [wants .exclusive 8 8] 100) := by decide +kernel

theorem witness_AllocationTakesLowestFreeSlots :
    let s := { running [] [] with
      leases := (Vector.replicate 64 ({ generation := 1, state := .revoked (held .shared) .expired 5 } : LeaseRecord)).set (63 : Fin 64) LeaseRecord.reset }
    [wants .shared 0 1].length ≤ s.freeSlots.length ∧ s.freeSlots = [63] ∧ (0 : Slot) ∉ s.freeSlots.take 1 := by decide +kernel

theorem witness_RecallBegins :
    (running [(1, .granted (held .shared) 9000 none none)] []).lease 1 = .granted (held .shared) 9000 none none ∧
    (upgrading.lease 1 = .granted (held .shared) 1000 none (some 3) ∧ upgrading.entryWithTag? 1 3 = some upgrader ∧
      upgrader.claim = .upgrade (upgrading.handleOf 1) { first := 8, count := 8 }) ∧
    recalled.lease 1 = .recalling (held .exclusive) 9000 none 1000 := by decide +kernel

theorem witness_GrantScanFrame : upgrading.entriesOf 0 = [] := by decide +kernel

theorem witness_GrantScanJudgesInListOrder :
    let e := waiter 0 2 7
    let behind := waiter 31 3 8
    let two := { recalled with waiting := [e, behind] }
    let last := { running [] [e, behind] with grantCounter := 4294967294 }
    let spent := { last with grantCounter := 4294967295 }
    let up := { upgrading with grantCounter := 4294967294 }
    let upSpent := { upgrading with grantCounter := 4294967295 }
    recalled.waiting = [] ∧
    (two.waiting = e :: [behind] ∧ (∀ x ∈ [behind], x.index ≠ e.index) ∧ two.holdersOff e.port e.claim.spans ≠ [] ∧
      ∀ w ∈ [behind], anyConflict e.port e.claim.spans w.port w.claim.spans = true) ∧
    (last.waiting = e :: [behind] ∧ last.holdersOff e.port e.claim.spans = [] ∧ e.claim = .acquire [wants .exclusive 8 8] 100 ∧
      last.grantCounter + 1 ≤ Config.maxGrant) ∧
    (spent.holdersOff e.port e.claim.spans = [] ∧ Config.maxGrant < spent.grantCounter + 1) ∧
    (up.waiting = upgrader :: [] ∧ up.holdersOff 1 upgrader.claim.spans = [] ∧
      upgrader.claim = .upgrade (up.handleOf 1) { first := 8, count := 8 } ∧
      up.lease 1 = .granted (held .shared) 1000 none (some upgrader.tag) ∧ up.grantCounter + 1 ≤ Config.maxGrant) ∧
    (upSpent.holdersOff 1 upgrader.claim.spans = [] ∧ upSpent.lease 1 = .granted (held .shared) 1000 none (some upgrader.tag) ∧
      Config.maxGrant < upSpent.grantCounter + 1) ∧
    (two.waiting = [] ++ e :: [] ++ behind :: [] ∧ two.waiting.Pairwise (fun a b => a.index ≠ b.index) ∧
      ∃ y ∈ (grantScan two).waiting, y.index = e.index) := by decide +kernel

theorem witness_JoinOpensSession :
    let detached := { withPorts (HostPort.reset true) with phase := .setup }
    let fenced := withPorts { joinedPort with state := .fenced, fenceLine := true }
    (takesFrame detached 0 ∧ (detached.port 0).state = .detached ∧ detached.tagInUse 0 255#8 = false) ∧
    (takesFrame setup 3 ∧ (setup.port 3).state = .joined) ∧ (takesFrame fenced 1 ∧ (fenced.port 1).state = .fenced) := by
  decide +kernel

theorem witness_LeaveTearsDownThePort :
    (takesFrame upgrading 1 ∧ (upgrading.port 1).state = .joined ∧ upgrading.tagInUse 1 4#8 = false ∧
      upgrading.waiting.all (fun e => e.port == 1)) ∧
    (let fenced := withPorts { joinedPort with state := .fenced, fenceLine := true };
      takesFrame fenced 1 ∧ (fenced.port 1).state = .fenced ∧ fenced.tagInUse 1 0#8 = false) := by decide +kernel

theorem witness_StartEntersRun :
    (takesFrame setup 0 ∧ (setup.port 0).state = .joined ∧ setup.phase = .setup ∧ setup.tagInUse 0 0#8 = false) ∧
    (takesFrame recalled 0 ∧ (recalled.port 0).state = .joined ∧ recalled.phase = .run) := by decide +kernel

/-- The boundaries of the ranges of R144: each value below meets one clause, and the next value the other. -/
theorem witness_SetChangesOneParameter :
    (takesFrame setup 0 ∧ (setup.port 0).state = .joined ∧ setup.phase = .setup ∧ setup.tagInUse 0 1#8 = false) ∧
    (4 < 5 ∧ 5 ≤ 5 ∧ 4294967295 < 4294967296) ∧ (setup.params.leaseQuota.set 0 16).toList.sum ≤ 64 ∧
    ¬(setup.params.leaseQuota.set 0 17).toList.sum ≤ 64 := by decide +kernel

/-- For the statements about TIME, GET_CONFIG and SYNC. -/
theorem witness_TimeReadsTheCounter :
    (takesFrame upgrading 1 ∧ upgrading.tagInUse 1 3#8 = true) ∧ (takesFrame upgrading 1 ∧ upgrading.tagInUse 1 4#8 = false) := by
  decide +kernel

theorem witness_GetConfigReportsParameters :
    (takesFrame upgrading 1 ∧ upgrading.tagInUse 1 3#8 = true) ∧ (takesFrame setup 3 ∧ setup.tagInUse 3 4#8 = false) := by
  decide +kernel

theorem witness_SyncClearsOverrun :
    let s := withPorts { joinedPort with overrun := true }
    (takesFrame upgrading 1 ∧ upgrading.tagInUse 1 3#8 = true) ∧ (takesFrame s 1 ∧ s.tagInUse 1 4#8 = false) := by
  decide +kernel

theorem witness_CommonChecksRefuse :
    let detached := withPorts (HostPort.reset true)
    let fenced := withPorts { joinedPort with state := .fenced, fenceLine := true }
    (takesFrame detached 0 ∧ (List.replicate 272 0#8).length ≤ 272 ∧ (detached.port 0).state = .detached ∧
      Kind.query ∉ [Kind.join, .getConfig, .time, .sync]) ∧
    (takesFrame fenced 0 ∧ (fenced.port 0).state = .fenced ∧
      Kind.read ∉ [Kind.takeNotices, .ackRevoked, .query, .sync, .time, .getConfig, .leave]) ∧
    (takesFrame setup 0 ∧ (setup.port 0).state = .joined ∧ setup.phase = .setup ∧
      Kind.write ∈ [Kind.acquire, .upgrade, .downgrade, .renew, .release, .cancel, .read, .write]) ∧
    (takesFrame upgrading 1 ∧ (upgrading.port 1).state = .joined ∧ upgrading.phase = .run ∧ Kind.start ∈ [Kind.set, .start] ∧
      Kind.leave ∉ [Kind.join, .set, .start] ∧ ∃ e ∈ upgrading.waiting, e.port = 1 ∧ e.tag = 3) ∧
    (fixedLength? .join = some 0 ∧ fixedLength? .set = some 6 ∧ setup.tagInUse 0 4#8 = false ∧
      fixedLength? .query = some 2 ∧ fenced.tagInUse 0 4#8 = false ∧ upgrading.tagInUse 1 4#8 = false ∧
      (List.replicate 7 0#8).length < 8) := by decide +kernel

/-- An ACQUIRE of four spans with the greatest term and wait limit. -/
def fourSpans : AcquireRequest :=
  { term := 4294967295, wait := 4294967295, spans := [wants .shared 0 1, wants .exclusive 1 64, wants .shared 448 64, wants .shared 65 1] }

theorem witness_AcquireGrantsAtOnce :
    let s := { recalled with leases := State.reset.leases, grantCounter := 4294967291 }
    working s 2 9 ∧ acquirable s 2 fourSpans.spans ∧ fourSpans.term < 4294967296 ∧ fourSpans.wait < 4294967296 ∧
      (∀ e ∈ s.waiting, ∀ m ∈ e.claim.spans, ∀ n ∈ fourSpans.spans, conflicts e.port m 2 n = false) ∧
      ∀ i, (s.lease i).live? = none := by decide +kernel

theorem witness_AcquireWaitsOrIsRefused :
    let a : AcquireRequest := { term := 0, wait := 1, spans := [wants .shared 15 1] }
    let none_ := { a with wait := 0 }
    let bare := { recalled with params := { Params.reset with reservedEntries := #v[8, 8, 0, 8] } }
    let noPool := { recalled with
      waiting := pooledEntries
      params := bare.params }
    let blocked := { running [] [waiter 0 3 7] with grantCounter := 3 }
    (working recalled 2 9 ∧ acquirable recalled 2 a.spans ∧ a.term < 4294967296 ∧ a.wait < 4294967296 ∧
      grantableNow 2 a.spans recalled = false ∧ 0 < min a.wait recalled.params.maxWait ∧
      recalled.admissionSource? 2 = some .reserved ∧ recalled.freeIndex? = some 0 ∧
      blockedBy recalled.waiting 2 a.spans = false) ∧
    (grantableNow 2 none_.spans recalled = false ∧ min none_.wait recalled.params.maxWait = 0) ∧
    (working noPool 2 9 ∧ acquirable noPool 2 a.spans ∧ grantableNow 2 a.spans noPool = false ∧
      0 < min a.wait noPool.params.maxWait ∧ noPool.admissionSource? 2 = none) ∧
    (working blocked 2 9 ∧ acquirable blocked 2 a.spans ∧ grantableNow 2 a.spans blocked = false ∧
      blocked.admissionSource? 2 = some .reserved ∧ blocked.freeIndex? = some 1 ∧
      blockedBy blocked.waiting 2 a.spans = true) := by decide +kernel

theorem witness_AcquireChecksInOrder :
    let one := acquireBody { term := 0, wait := 0, spans := [wants .shared 0 1] }
    let mine := acquireBody { term := 0, wait := 0, spans := [wants .shared 15 1] }
    let poor := { recalled with params := { Params.reset with leaseQuota := #v[16, 1, 16, 16] } }
    let exact_ := { poor with params := { Params.reset with leaseQuota := #v[16, 2, 16, 16] }, grantCounter := 4294967295 }
    let some_ := { term := 0, wait := 0, spans := [wants .shared 0 1] : AcquireRequest }
    (working recalled 1 9 ∧ one.length ≤ 272 ∧ parseAcquire (List.replicate 272 0#8) = none) ∧
    ((parseAcquire mine).map (fun a => selfOverlaps 1 a.spans recalled) = some true) ∧
    (working poor 1 9 ∧ parseAcquire one = some some_ ∧ selfOverlaps 1 some_.spans poor = false ∧
      poor.params.leaseQuota[1] < poor.quotaCount 1 + some_.spans.length) ∧
    (working exact_ 1 9 ∧ selfOverlaps 1 some_.spans exact_ = false ∧
      exact_.quotaCount 1 + some_.spans.length ≤ exact_.params.leaseQuota[1] ∧
      Config.maxGrant < exact_.grantCounter + some_.spans.length) := by decide +kernel

theorem witness_UpgradeSettles :
    let t := { held .shared with port := 0 }
    let alone := { running [(1, .granted (held .shared) 9000 none none)] [] with grantCounter := 4294967294 }
    let shared := running [(0, .granted t 9000 none none), (1, .granted (held .shared) 9000 none none)] []
    let wanted := [wants .exclusive 8 8]
    (working alone 1 9 ∧ alone.lease 1 = .granted (held .shared) 9000 none none ∧ (held .shared).port = 1 ∧
      (held .shared).mode = .shared ∧ alone.grantCounter + 1 ≤ Config.maxGrant ∧ 4294967295 < 4294967296 ∧
      grantableNow 1 wanted alone = true) ∧
    (working shared 1 9 ∧ shared.lease 1 = .granted (held .shared) 9000 none none ∧ shared.grantCounter + 1 ≤ Config.maxGrant ∧
      grantableNow 1 wanted shared = false ∧ min 0 shared.params.maxWait = 0 ∧ 0 < min 1 shared.params.maxWait ∧
      shared.admissionSource? 1 = some .reserved ∧ shared.freeIndex? = some 0 ∧
      blockedBy shared.waiting 1 wanted = false) ∧
    (let s := { shared with waiting := [waiter 0 3 7] };
      grantableNow 1 wanted s = false ∧ blockedBy s.waiting 1 wanted = true ∧ s.freeIndex? = some 1) ∧
    { shared with params := { Params.reset with reservedEntries := #v[8, 0, 8, 8], maxWait := 1 },
                  waiting := pooledEntries }.admissionSource? 1 = none := by
  decide +kernel

theorem witness_DowngradeMakesShared :
    let s := running [(1, .granted (held .exclusive) 9000 none none)] []
    working s 1 9 ∧ s.lease 1 = .granted (held .exclusive) 9000 none none ∧ (held .exclusive).port = 1 ∧
      (held .exclusive).mode = .exclusive ∧ s.waiting = [] := by decide +kernel

theorem witness_RenewSetsDeadline :
    working upgrading 1 9 ∧ upgrading.lease 1 = .granted (held .shared) 1000 none (some 3) ∧ (held .shared).port = 1 ∧
      4294967295 < 4294967296 := by decide +kernel

theorem witness_ReleaseFreesTheRecord :
    (working recalled 1 9 ∧ (held .exclusive).port = 1 ∧ recalled.lease 1 = .recalling (held .exclusive) 9000 none 1000) ∧
    (let s := running [(1, .granted (held .shared) 9000 none none)] [];
      working s 1 9 ∧ s.lease 1 = .granted (held .shared) 9000 none none) ∧
    (working upgrading 1 9 ∧ upgrading.lease 1 = .granted (held .shared) 1000 none (some 3) ∧
      upgrading.entryWithTag? 1 3 = some upgrader ∧ upgrader.claim = .upgrade (upgrading.handleOf 1) { first := 8, count := 8 }) ∧
    recalled.waiting = [] := by decide +kernel

theorem witness_HoldingRequestsRefused :
    let s := running [(1, .revoked (held .shared) .fenced 7)] []
    (working recalled 1 9 ∧ recalled.resolves 1 { slot := 1, generation := 0 } = false) ∧
    (working s 1 9 ∧ s.resolves 1 (handle1 1) = true ∧ s.lease 1 = .revoked (held .shared) .fenced 7) ∧
    (recalled.resolves 1 (handle1 1) = true ∧ recalled.lease 1 = .recalling (held .exclusive) 9000 none 1000) ∧
    (let u := running [(1, .granted (held .exclusive) 9000 none none)] [];
      working u 1 9 ∧ u.resolves 1 (handle1 1) = true ∧ u.lease 1 = .granted (held .exclusive) 9000 none none) ∧
    (working upgrading 1 9 ∧ upgrading.resolves 1 (handle1 1) = true ∧
      upgrading.lease 1 = .granted (held .shared) 1000 none (some 3)) ∧
    (let u := { running [(1, .granted (held .shared) 9000 none none)] [] with grantCounter := 4294967295 };
      working u 1 9 ∧ u.resolves 1 (handle1 1) = true ∧ u.lease 1 = .granted (held .shared) 9000 none none ∧
      Config.maxGrant < u.grantCounter + 1) := by decide +kernel

theorem witness_CancelEndsTheEntry :
    (working upgrading 1 9 ∧ upgrading.entryWithTag? 1 3 = some upgrader) ∧
    (working upgrading 2 9 ∧ ∀ e ∈ upgrading.waiting, ¬(e.port = 2 ∧ e.tag = 3)) := by decide +kernel

theorem witness_QueryShowsTheRecord :
    let s := { running [(1, .revoked (held .shared) .fenced 7)] [] with
      ports := Vector.replicate 4 { joinedPort with state := .fenced, fenceLine := true } }
    (collecting s 1 0 ∧ s.resolves 1 (handle1 1) = true ∧ (s.lease 1).tenure? = some (held .shared) ∧
      s.resolves 0 (handle1 1) = false) ∧ collecting recalled 1 0 := by decide +kernel

/-- The least and the greatest place of an access under the lease of blocks 8 to 15. -/
theorem witness_ReadReturnsBytesAndStamp :
    working recalled 1 9 ∧ (recalled.lease 1).live? = some (held .exclusive) ∧ (held .exclusive).port = 1 ∧
      ((held .exclusive).span.first * 512 ≤ 4096 ∧ 4096 + 1 ≤ 16 * 512) ∧
      (1 ≤ 256 ∧ 256 ≤ 256 ∧ 7936 < 4294967296 ∧ (held .exclusive).span.first * 512 ≤ 7936 ∧
        7936 + 256 ≤ ((held .exclusive).span.first + (held .exclusive).span.count) * 512) := by decide +kernel

theorem witness_WriteStoresAndStamps :
    working recalled 1 9 ∧ (recalled.lease 1).live? = some (held .exclusive) ∧ (held .exclusive).mode = .exclusive ∧
      (held .exclusive).span.valid = true ∧ (List.replicate 256 1#8).length ≤ 256 ∧
      (held .exclusive).span.first * 512 ≤ 7936 ∧
      7936 + 256 ≤ ((held .exclusive).span.first + (held .exclusive).span.count) * 512 ∧ memoryWf recalled.array = true := by
  decide +kernel

theorem witness_AccessesRefused :
    let gone := running [(1, .revoked (held .shared) .fenced 7)] []
    let readOnly := running [(1, .granted (held .shared) 9000 none none)] []
    (working recalled 1 9 ∧ 4294967295 < 4294967296 ∧ 65535 < 65536 ∧ (List.replicate 264 0#8).length ≤ 264) ∧
    recalled.resolves 1 (handle1 0) = false ∧
    (working gone 1 9 ∧ gone.resolves 1 (handle1 1) = true ∧ gone.lease 1 = .revoked (held .shared) .fenced 7) ∧
    (working readOnly 1 9 ∧ readOnly.resolves 1 (handle1 1) = true ∧ (readOnly.lease 1).live? = some (held .shared) ∧
      (held .shared).mode = .shared) ∧
    (recalled.resolves 1 (handle1 1) = true ∧ (recalled.lease 1).live? = some (held .exclusive) ∧
      (held .exclusive).mode = .exclusive ∧ ([0#8] : List Byte) ≠ [] ∧ 2 ≠ [0#8].length ∧ (256 < 257 ∧ 4095 < (held .exclusive).span.first * 512 ∧ 16 * 512 < 8192 + 1)) := by
  decide +kernel

theorem witness_TakeNoticesReturnsOldest :
    collecting recalled 1 0 ∧ (1 ≤ (16#8).toNat ∧ (16#8).toNat ≤ 16 ∧ 1 ≤ (1#8).toNat) ∧ 16 < (17#8).toNat := by decide +kernel

theorem witness_AckRevokedFreesTombstone :
    let gone := running [(1, .revoked (held .shared) .fenced 7)] []
    (collecting gone 1 0 ∧ gone.resolves 1 (handle1 1) = true ∧ gone.lease 1 = .revoked (held .shared) .fenced 7) ∧
    (collecting recalled 1 0 ∧ recalled.resolves 1 (handle1 1) = true ∧ (recalled.lease 1).live? = some (held .exclusive)) ∧
    recalled.resolves 1 (handle1 2) = false := by decide +kernel

/-- Five bytes are too few, 273 too long a body, and a wrong length or CRC the other two faults of R155. -/
theorem witness_UnreadableFramesAnswered :
    let wrong : List Byte := requestFrame 0x06#8 1#8 [] ++ [0#8]
    let long : List Byte := requestFrame 0x06#8 1#8 (List.replicate 273 0#8)
    let bad : List Byte := [0x06#8, 1#8, 0#8, 0#8, 0#8, 0#8]
    takesFrame recalled 1 ∧ ([0x06#8, 0#8, 0#8, 0#8, 0#8] : List Byte).length < 6 ∧
      272 < leValue ((long.drop 2).take 2) ∧ wrong.length ≠ 4 + leValue ((wrong.drop 2).take 2) + 2 ∧
      bad.drop 4 ≠ crcField (bad.take 4) ∧ (List.replicate 272 0#8).length ≤ 272 ∧
      (0x86#8 : Byte) ∉ [0x01#8, 0x02#8, 0x03#8, 0x04#8, 0x05#8, 0x06#8, 0x07#8, 0x10#8, 0x11#8, 0x12#8, 0x13#8, 0x14#8, 0x15#8,
        0x16#8, 0x20#8, 0x21#8, 0x30#8, 0x31#8] := by decide +kernel

theorem witness_PushAtZeroCreditsDiscarded :
    let s := withPorts fullPort
    let u := withPorts { fullPort with queue := fullPort.queue.tail }
    (settlesPush s 0 ∧ s.credits 0 = 0) ∧ (settlesPush u 0 ∧ u.credits 0 = 1) := by decide +kernel

theorem witness_TransactionsWithoutFrame :
    let clearing := { withPorts (HostPort.reset true) with phase := .clearing }
    let ignored := withPorts { HostPort.reset false with transaction := .ignored }
    let absent := withPorts (HostPort.reset false)
    let held := { setup with resetAsserted := true }
    (settles clearing 0 = true ∧ clearing.phase = .clearing) ∧
    (settles recalled 0 = true ∧ [0x00#8].length ≤ 1 ∧ (∀ b, ([] : List Byte).head? = some b → b ≠ 0x5A#8) ∧
      ([0x00#8] : List Byte).head? = some 0x00#8) ∧
    (ignored.port 0).transaction = .ignored ∧
    ((absent.port 0).transaction = .none ∧ (absent.port 0).state = .absent) ∧
    ((held.port 0).transaction = .none ∧ held.resetAsserted = true) := by
  refine ⟨by decide +kernel, ⟨by decide +kernel, by decide, by simp, rfl⟩, by decide +kernel⟩

theorem witness_PullRemovesTheShiftedHead :
    let s := withPorts fullPort
    let r := responseTo 0x06#8 0#8 .ok (.count 0)
    (settles s 0 = true ∧ fixedHead s 0 = some r ∧ (responseFrame r).length + 2 = 14) ∧
    (settles recalled 0 = true ∧ fixedHead recalled 0 = none) := by decide +kernel

theorem witness_ChipSelectFixesStatus :
    ((recalled.port 1).transaction = .none ∧ (recalled.port 1).state ≠ .absent ∧ recalled.resetAsserted = false) ∧
    ((State.reset.port 0).transaction = .none ∧ (State.reset.port 0).state = .absent) ∧
    ((withPorts { joinedPort with transaction := .ignored }).port 0).transaction ≠ .none := by decide +kernel

/-- For the statements about frames: the greatest body. -/
theorem witness_RequestFrameRoundTrip : (List.replicate 272 0xFF#8).length ≤ 272 := by decide +kernel

theorem witness_PushedBytesAreTheCommand :
    (List.replicate 272 0xFF#8).length ≤ 272 ∧ takesFrame recalled 1 = true := by decide +kernel

theorem witness_RequestBodiesRoundTrip :
    fourSpans.term < 4294967296 ∧ fourSpans.wait < 4294967296 ∧ 1 ≤ fourSpans.spans.length ∧ fourSpans.spans.length ≤ 4 ∧
      ∀ m ∈ fourSpans.spans, m.span.valid = true := by decide +kernel

theorem witness_HandleValues :
    ({ slot := 63, generation := 1023 } : Handle).value = 65535 ∧ handleOfValue 65535 = { slot := 63, generation := 1023 } := by
  decide +kernel

theorem witness_PresentMoves :
    ((State.reset.port 0).present = false ∧ (State.reset.port 0).state = .absent) ∧
    (let s := withPorts { HostPort.reset false with present := true };
      (s.port 3).present = true ∧ (s.port 3).state = .absent) ∧
    ((recalled.port 1).present = true ∧ (recalled.port 1).state ≠ .absent) := by decide +kernel

theorem witness_ClearingEnds :
    let s := { State.reset with clearCount := 16383 }
    (s.phase = .clearing ∧ s.clearCount < 16384 ∧ s.pending = [] ∧ s.outstanding = [] ∧ s.clearCount + 1 = 16384) ∧
    (State.reset.outstanding = [] ∧ State.reset.clearCount + 1 < 16384) := by decide +kernel

theorem witness_ResetLine :
    (49 < 50 ∧ 50 ≤ 50) ∧ recalled.resetAsserted = false ∧ { recalled with resetAsserted := true }.resetAsserted = true := by
  decide +kernel

/-! ### A state that meets the laws, with a step from it -/

/-- Port 1's lease of blocks 8 to 15 is being recalled, with its notice, for a waiting entry of port 2; port 1's WRITE of one byte
waits. -/
def lawful : State :=
  { recalled with
    ports := recalled.ports.set 1 { joinedPort with
      notices := [{ handle := handle1 1, kind := .recallBegun, span := { first := 8, count := 8 }, tick := 1000 }] }
    waiting := [waiter 0 2 7]
    pending := [.write 1 9 (writeBody (handle1 1) 4607 [0xAB#8])] }

theorem lawful_live : ∀ i, (lawful.lease i).tenure? = (if i = 1 then some (held .exclusive) else none) ∧
    (lawful.lease i).live? = (lawful.lease i).tenure? := by decide +kernel

theorem witness_StepKeepsCreditLaw : CreditLaw lawful ∧ ∃ t, step lawful = .next t :=
  ⟨by unfold CreditLaw; decide +kernel, _, rfl⟩

theorem witness_StepKeepsLeaseLaw : LeaseLaw lawful := by
  refine ⟨fun i j ti tj hi hj => ?_, ?_, by unfold TagLaw; decide +kernel⟩
  · rw [(lawful_live i).2, (lawful_live i).1] at hi
    rw [(lawful_live j).2, (lawful_live j).1] at hj
    split at hi <;> split at hj <;> simp_all
    subst hi hj
    decide +kernel
  · intro e he h sp hc
    simp [lawful] at he
    subst he
    simp [waiter] at hc

theorem witness_StepKeepsLeaseLaw_selfOverlap : SelfOverlapLaw lawful := by
  refine ⟨fun i j ti tj hij hi hj => ?_, fun e he spans term hc => ?_⟩
  · rw [(lawful_live i).2, (lawful_live i).1] at hi
    rw [(lawful_live j).2, (lawful_live j).1] at hj
    split at hi <;> split at hj <;> simp_all
  · simp [lawful] at he
    subst he
    obtain ⟨rfl, -⟩ : [wants .exclusive 8 8] = spans ∧ 100 = term := by simpa [waiter] using hc
    refine ⟨List.pairwise_singleton _ _, fun m _ => ⟨fun i t hi hp => ?_, fun f hf hx => ?_⟩⟩
    · rw [(lawful_live i).2, (lawful_live i).1] at hi
      split at hi <;> simp_all
      subst hi
      exact absurd hp (by decide)
    · simp [lawful] at hf
      exact absurd (by rw [hf]) hx

theorem witness_StepKeepsPortLaws : PortLaw lawful ∧ FenceLaw lawful :=
  ⟨by unfold PortLaw; decide +kernel, by unfold FenceLaw; decide +kernel⟩

theorem witness_StepKeepsStampLaw : StampLaw lawful := by
  refine ⟨by decide +kernel, fun b => ?_, fun i t h => ?_⟩
  · have : stampAt lawful.stamps b = 0 := by
      show stampAt (Vector.replicate 512 0) b = 0
      unfold stampAt
      by_cases hb : b < 512 <;> simp [hb]
    omega
  · rw [(lawful_live i).1] at h
    split at h <;> simp_all
    subst h
    decide +kernel

theorem witness_StepKeepsNoticeLaw : NoticeLaw lawful := by unfold NoticeLaw; decide +kernel

theorem witness_StepKeepsQuotaAndTableLaws : OnlyInRun lawful ∧ QuotaLaw lawful ∧ TableLaw lawful :=
  ⟨fun h => absurd rfl h, by unfold QuotaLaw; decide +kernel, by unfold TableLaw; decide +kernel⟩

theorem witness_StepKeepsArrayLaw : ArrayLaw lawful ∧ SpanLaw lawful := by
  refine ⟨by unfold ArrayLaw; decide +kernel, fun i t h => ?_, by decide +kernel⟩
  rw [(lawful_live i).1] at h
  split at h <;> simp_all
  subst h
  decide +kernel

theorem witness_BytesChangeOnlyUnderExclusiveLease :
    Pushes (.write 1 9 (writeBody (handle1 1) 4607 [0xAB#8])) 1 (requestFrame 0x21#8 9 (writeBody (handle1 1) 4607 [0xAB#8])) ∧
    memoryWf lawful.array = true ∧ readByte (nextOf (step lawful)).array 4607 ≠ readByte lawful.array 4607 :=
  ⟨.inl ⟨.write, _, _, rfl, rfl⟩, by decide +kernel⟩

theorem witness_RecallingNeverReturnsToGranted : lawful.lease 1 = .recalling (held .exclusive) 9000 none 1000 := by
  decide +kernel

theorem witness_ParametersChangeOnlyInSetup :
    let s := { setup with pending := [.set 0 1#8 (setBody 0x06#8 0#8 15)] }
    (nextOf (step s)).params ≠ s.params := by decide +kernel

end Sys2Proof.Tests
end

section
/-!
PROOFS. Allocation: the lowest FREE slots taken one by one (R5), the grant numbers drawn for them (R16), and the grant of an
UPGRADE, which allocates nothing.
-/

namespace Sys2Proof.Machine

variable (s : State) (p : Port) (term : Nat) (i j : Slot) (m : ModeSpan)

/-! ### The FREE slots -/

theorem State.head?_freeSlots : s.freeSlots.head? = s.freeSlot? := List.head?_filter

theorem State.nodup_freeSlots : s.freeSlots.Nodup := (List.nodup_finRange 64).filter _

variable {s i} {rest : List Slot}

/-- A slot allocated is FREE no more; the others are FREE as before. -/
theorem freeSlots_allocateIn (h : s.freeSlots = i :: rest) : (allocateIn i p term m s).freeSlots = rest := by
  have hi : i ∉ rest := (List.nodup_cons.1 (h ▸ s.nodup_freeSlots)).1
  have still_free : ∀ j, ((allocateIn i p term m s).lease j == .free) = (j != i && s.lease j == .free) := by
    intro j
    unfold State.lease
    rw [record_allocateIn]
    by_cases hj : j = i <;> simp [hj]
  calc (allocateIn i p term m s).freeSlots
      = s.freeSlots.filter (· != i) := by simp only [State.freeSlots, still_free, List.filter_filter]
    _ = rest := by
      rw [h, List.filter_cons_of_neg (by simp), List.filter_eq_self]
      exact fun j hj => by simpa using fun e : j = i => hi (e ▸ hj)

/-! ### Allocation, span by span -/

/-- The first span of a grant takes the lowest FREE slot; the others are served in the state after it (R5, R24). -/
theorem allocate_cons (ms : List ModeSpan) (h : s.freeSlots = i :: rest) :
    allocate p term (m :: ms) s =
      ((allocate p term ms (allocateIn i p term m s)).1,
        { handle := { slot := i, generation := (s.record i).generation + 1 }, grant := s.grantCounter + 1,
          deadline := s.after term, stamp := s.spanStamp m.span } ::
          (allocate p term ms (allocateIn i p term m s)).2) := by
  have hf : s.freeSlot? = some i := by rw [← s.head?_freeSlots, h]; rfl
  have hh : (allocateIn i p term m s).handleOf i = { slot := i, generation := (s.record i).generation + 1 } := by
    simp [State.handleOf, record_allocateIn]
  simp only [allocate, hf, State.grantRecord, hh]
  rfl

/-- What every allocation of one record in a FREE slot keeps, a grant keeps. -/
theorem allocate_induction {Q : State → Prop} (allocated : ∀ u i m, Q u → Q (allocateIn i p term m u)) (spans : List ModeSpan)
    (h : Q s) : Q (allocate p term spans s).1 := by
  induction spans generalizing s with
  | nil => exact h
  | cons m ms ih =>
    unfold allocate
    split
    · exact h
    · exact ih (allocated _ _ _ h)

/-- A grant leaves the ports, the waiting list and the device alone. -/
theorem allocate_frame (spans : List ModeSpan) :
    (allocate p term spans s).1.ports = s.ports ∧ (allocate p term spans s).1.waiting = s.waiting ∧
      SameDevice s (allocate p term spans s).1 :=
  allocate_induction (Q := fun u => u.ports = s.ports ∧ u.waiting = s.waiting ∧ SameDevice s u) p term
    (fun _ _ _ h => h) spans ⟨rfl, rfl, by simp [SameDevice]⟩

/-- Enough FREE slots for a list of spans that is not empty: there is a lowest one, and enough others once it is taken. -/
theorem exists_lowest_free {ms : List ModeSpan} (h : (m :: ms).length ≤ s.freeSlots.length) :
    ∃ i rest, s.freeSlots = i :: rest ∧ ms.length ≤ (allocateIn i p term m s).freeSlots.length := by
  rcases hf : s.freeSlots with _ | ⟨i, rest⟩
  · simp [hf] at h
  · refine ⟨i, rest, rfl, ?_⟩
    rw [freeSlots_allocateIn p term m hf]
    simpa [hf] using h

/-- One grant record and one grant number for each span (R16, R24). -/
theorem allocate_counts (spans : List ModeSpan) (h : spans.length ≤ s.freeSlots.length) :
    (allocate p term spans s).2.length = spans.length ∧
      (allocate p term spans s).1.grantCounter = s.grantCounter + spans.length := by
  induction spans generalizing s with
  | nil => exact ⟨rfl, rfl⟩
  | cons m ms ih =>
    obtain ⟨i, rest, hf, hms⟩ := exists_lowest_free p term m h
    obtain ⟨hlen, hcount⟩ := ih hms
    rw [allocate_cons p term m ms hf]
    exact ⟨congrArg (· + 1) hlen, by rw [hcount, grantCounter_allocateIn, List.length_cons]; omega⟩

/-- A record that is not among the lowest FREE slots stands (R5). -/
theorem record_allocate_of_not_mem (spans : List ModeSpan) (h : spans.length ≤ s.freeSlots.length)
    (hj : j ∉ s.freeSlots.take spans.length) : (allocate p term spans s).1.record j = s.record j := by
  induction spans generalizing s with
  | nil => rfl
  | cons m ms ih =>
    obtain ⟨i, rest, hf, hms⟩ := exists_lowest_free p term m h
    obtain ⟨hne, hrest⟩ : j ≠ i ∧ j ∉ rest.take ms.length := by simpa [hf] using hj
    rw [allocate_cons p term m ms hf, ih hms (by rwa [freeSlots_allocateIn p term m hf]), record_allocateIn, if_neg hne]

/-- The `k`-th span takes the `k`-th lowest FREE slot, with the `k`-th grant number after those issued (R5, R16). -/
theorem allocate_getElem? (spans : List ModeSpan) (h : spans.length ≤ s.freeSlots.length) (k : Nat)
    (hi : s.freeSlots[k]? = some i) (hm : spans[k]? = some m) :
    (allocate p term spans s).1.record i =
      { generation := (s.record i).generation + 1,
        state := .granted { port := p, mode := m.mode, span := m.span, grant := s.grantCounter + k + 1 } (s.after term)
          (s.params.warningTick (s.after term) term) none } ∧
    (allocate p term spans s).2[k]? =
      some { handle := { slot := i, generation := (s.record i).generation + 1 }, grant := s.grantCounter + k + 1,
             deadline := s.after term, stamp := s.spanStamp m.span } := by
  induction spans generalizing s k with
  | nil => simp at hm
  | cons m' ms ih =>
    obtain ⟨i', rest, hf, hms⟩ := exists_lowest_free p term m' h
    have hrest := freeSlots_allocateIn p term m' hf
    have hnew : i' ∉ rest := (List.nodup_cons.1 (hf ▸ s.nodup_freeSlots)).1
    rw [allocate_cons p term m' ms hf]
    rw [hf] at hi
    cases k with
    | zero =>
      obtain rfl : i' = i := by simpa using hi
      obtain rfl : m' = m := by simpa using hm
      have hlater : i' ∉ (allocateIn i' p term m' s).freeSlots.take ms.length :=
        fun hx => hnew (hrest ▸ List.mem_of_mem_take hx)
      rw [record_allocate_of_not_mem p term i' ms hms hlater, record_allocateIn, if_pos rfl]
      exact ⟨rfl, rfl⟩
    | succ k =>
      have hi : rest[k]? = some i := by simpa using hi
      have hne : i ≠ i' := fun e => hnew (e ▸ List.mem_of_getElem? hi)
      obtain ⟨hrec, hgrant⟩ := ih hms k (hrest ▸ hi) (by simpa using hm)
      rw [record_allocateIn, if_neg hne, grantCounter_allocateIn, Nat.add_right_comm s.grantCounter 1 k] at hrec hgrant
      exact ⟨hrec, hgrant⟩

/-! ### The grant of an UPGRADE -/

/-- An UPGRADE's grant is a change of one record's state, to one with the same holder, and a grant number drawn (R37, R53). -/
theorem upgradeRecord_cases (s : State) (i : Slot) : upgradeRecord i s = s ∨
    ∃ l n, l.holder? = s.holder? i ∧ upgradeRecord i s = { s.setLease i l with grantCounter := n } := by
  unfold upgradeRecord
  split
  · refine .inr ⟨_, _, ?_, rfl⟩
    simp [State.holder?, LeaseState.holder?, LeaseState.tenure?, *]
  · exact .inl rfl

theorem generation_upgradeRecord (s : State) (i j : Slot) :
    ((upgradeRecord i s).record j).generation = (s.record j).generation := by
  obtain h | ⟨l, n, -, h⟩ := upgradeRecord_cases s i
  · rw [h]
  · rw [h]; exact s.generation_setLease i j l

theorem holder?_upgradeRecord (s : State) (i j : Slot) : (upgradeRecord i s).holder? j = s.holder? j := by
  obtain h | ⟨l, n, hl, h⟩ := upgradeRecord_cases s i
  · rw [h]
  · have hs : (s.setLease i l).holder? j = s.holder? j := by
      unfold State.holder?
      rw [State.lease_setLease]
      split
      · subst_vars; exact hl
      · rfl
    rw [h]; exact hs

/-- Settles O10: the allocation part by induction on the spans, each taking the head of the FREE slots. -/
theorem allocationTakesLowestFreeSlots : Obligations.AllocationTakesLowestFreeSlots := by
  intro p term spans s h
  obtain ⟨hlen, hcount⟩ := allocate_counts p term spans h
  obtain ⟨hports, hwaiting, hdevice⟩ := allocate_frame (s := s) p term spans
  exact ⟨fun k i m hi hm => allocate_getElem? p term m spans h k hi hm, hlen, hcount,
    fun i hi => record_allocate_of_not_mem p term i spans h hi, hports, hwaiting, hdevice,
    fun i j => ⟨generation_upgradeRecord s i j, holder?_upgradeRecord s i j⟩⟩

end Sys2Proof.Machine
end

section
/-!
PROOFS. Handles: a handle and its 16-bit value name each other, and the records of a response begin with it (R3, R161).
-/

namespace Sys2Proof.Machine

theorem Handle.value_lt (h : Handle) : h.value < 65536 := by
  have hslot := h.slot.isLt
  have hgen := h.generation.isLt
  unfold Handle.value
  omega

@[simp] theorem handleOfValue_slot (v : Nat) : (handleOfValue v).slot.val = v % 64 := rfl

theorem handleOfValue_generation {v : Nat} (h : v < 65536) : (handleOfValue v).generation.val = v / 64 :=
  Nat.mod_eq_of_lt (by omega)

/-- The handle that a handle's value names is the handle. -/
theorem handleOfValue_value (h : Handle) : handleOfValue h.value = h := by
  have hslot := h.slot.isLt
  have slot : (handleOfValue h.value).slot = h.slot := Fin.ext <| by
    rw [handleOfValue_slot, Handle.value]; omega
  have generation : (handleOfValue h.value).generation = h.generation := Fin.ext <| by
    rw [handleOfValue_generation h.value_lt, Handle.value]; omega
  exact congrArg₂ Handle.mk slot generation

/-- The value of the handle that a 16-bit value names is that value. -/
theorem value_handleOfValue {v : Nat} (h : v < 65536) : (handleOfValue v).value = v := by
  rw [Handle.value, handleOfValue_generation h, handleOfValue_slot]
  omega

/-- Settles O45, from the two round trips; the field of a handle is two bytes long, so a record's first two bytes are that field. -/
theorem handleValues : Obligations.HandleValues :=
  ⟨fun h => ⟨rfl, h.value_lt, handleOfValue_value h⟩,
    fun v h => ⟨handleOfValue_slot v, handleOfValue_generation h, value_handleOfValue h⟩,
    fun _ => rfl, fun _ => rfl, fun _ _ _ => rfl⟩

end Sys2Proof.Machine
end

section
/-!
PROOFS. What the shared operations take away: entries leave the waiting list, leases are recalled, revoked and freed, and
nothing is granted. Most laws look only at what these moves cannot add to (`Relaxes`).
-/

namespace Sys2Proof.Machine

variable (s : State) (p q : Port) (i j : Slot) (e : Entry) (r : Result) (b : Body)

/-! ### The waiting list -/

/-- What an entry keeps while it waits: all but its source, which R29 may change. -/
def Entry.key (e : Entry) : EntryIndex × Port × Tag × Claim := (e.index, e.port, e.tag, e.claim)

/-- A waiting list with entries taken out of it: one entry that leaves, or all entries of a port (R31, R77, R119). -/
inductive Shortened (es : List Entry) : List Entry → Prop
  | refl : Shortened es es
  | left (e : Entry) {fs : List Entry} : Shortened es fs → e ∈ fs → Shortened es (withoutEntry e fs)
  | dropped (p : Port) {fs : List Entry} : Shortened es fs → Shortened es (fs.filter fun e => e.port != p)

theorem Shortened.trans {es fs gs : List Entry} (h : Shortened es fs) (h' : Shortened fs gs) : Shortened es gs := by
  induction h' with
  | refl => exact h
  | left e _ he ih => exact ih.left e he
  | dropped p _ ih => exact ih.dropped p

theorem key_withoutEntry (es : List Entry) :
    (withoutEntry e es).map Entry.key = (es.filter fun x => x.index != e.index).map Entry.key :=
  map_withoutEntry e Entry.key (fun _ _ => rfl) es

theorem Shortened.keys {es fs : List Entry} (h : Shortened es fs) : (fs.map Entry.key).Sublist (es.map Entry.key) := by
  induction h with
  | refl => exact List.Sublist.refl _
  | left e _ _ ih => rw [key_withoutEntry]; exact (List.filter_sublist.map _).trans ih
  | dropped p _ ih => exact (List.filter_sublist.map _).trans ih

/-- An entry of the shorter list was in the longer one, but for its source. -/
theorem Shortened.mem {es fs : List Entry} (h : Shortened es fs) {f : Entry} (hf : f ∈ fs) : ∃ e ∈ es, e.key = f.key :=
  List.mem_map.1 (h.keys.subset (List.mem_map_of_mem hf))

theorem Shortened.nil {fs : List Entry} (h : Shortened [] fs) : fs = [] := by
  simpa using h.keys

/-- What the entries of the shorter list hold, but for their sources, is part of what those of the longer list held. -/
theorem Shortened.map {α : Type} {es fs : List Entry} (h : Shortened es fs) (g : EntryIndex × Port × Tag × Claim → α) :
    (fs.map fun e => g e.key).Sublist (es.map fun e => g e.key) := by
  simpa only [List.map_map, Function.comp_def] using h.keys.map g

/-- An entry that stays when another leaves was waiting, but for its source, at another place. -/
theorem mem_withoutEntry {f : Entry} {es : List Entry} (h : f ∈ withoutEntry e es) :
    ∃ g ∈ es, g.key = f.key ∧ g.index ≠ e.index := by
  have hk : f.key ∈ (withoutEntry e es).map Entry.key := List.mem_map_of_mem h
  rw [key_withoutEntry] at hk
  obtain ⟨g, hg, hkey⟩ := List.mem_map.1 hk
  obtain ⟨hg, hx⟩ := List.mem_filter.1 hg
  exact ⟨g, hg, hkey, by simpa using hx⟩

/-! ### The moves that grant nothing -/

/-- A state after another by moves that grant nothing: what records hold and what waits was held and waited before, and the
array, the stamps, the phase, the parameters and the grant counter stand. -/
structure Relaxes (s u : State) : Prop where
  array : u.array = s.array
  stamps : u.stamps = s.stamps
  phase : u.phase = s.phase
  params : u.params = s.params
  counter : u.grantCounter = s.grantCounter
  tenure : ∀ i t, (u.lease i).tenure? = some t → (s.lease i).tenure? = some t
  live : ∀ i t, (u.lease i).live? = some t → (s.lease i).live? = some t
  waiting : Shortened s.waiting u.waiting

namespace Relaxes

variable {s}

theorem refl (s : State) : Relaxes s s := ⟨rfl, rfl, rfl, rfl, rfl, fun _ _ h => h, fun _ _ h => h, .refl⟩

theorem trans {u v : State} (h : Relaxes s u) (h' : Relaxes u v) : Relaxes s v where
  array := h'.array.trans h.array
  stamps := h'.stamps.trans h.stamps
  phase := h'.phase.trans h.phase
  params := h'.params.trans h.params
  counter := h'.counter.trans h.counter
  tenure i t ht := h.tenure i t (h'.tenure i t ht)
  live i t ht := h.live i t (h'.live i t ht)
  waiting := h.waiting.trans h'.waiting

/-- A FREE record stays FREE. -/
theorem free {u : State} (h : Relaxes s u) {i : Slot} (hi : s.lease i = .free) : u.lease i = .free := by
  have := h.tenure i
  rw [hi] at this
  cases hu : u.lease i <;> simp_all [LeaseState.tenure?]

variable (s)

theorem modifyPort (f : HostPort → HostPort) : Relaxes s (s.modifyPort p f) :=
  ⟨rfl, rfl, rfl, rfl, rfl, fun _ _ h => h, fun _ _ h => h, .refl⟩

theorem setLease {l : LeaseState} (ht : ∀ t, l.tenure? = some t → (s.lease i).tenure? = some t)
    (hl : ∀ t, l.live? = some t → (s.lease i).live? = some t) : Relaxes s (s.setLease i l) where
  array := rfl
  stamps := rfl
  phase := rfl
  params := rfl
  counter := rfl
  tenure j t h := by
    rw [State.lease_setLease] at h
    split at h
    · subst_vars; exact ht t h
    · exact h
  live j t h := by
    rw [State.lease_setLease] at h
    split at h
    · subst_vars; exact hl t h
    · exact h
  waiting := .refl

theorem freeRecord : Relaxes s (freeRecord i s) :=
  setLease s i (by simp [LeaseState.tenure?]) (by simp [LeaseState.live?])

theorem entryLeaves {s : State} {e : Entry} (he : e ∈ s.waiting) : Relaxes s (entryLeaves e s) where
  array := by unfold Machine.entryLeaves; split <;> rfl
  stamps := stamps_entryLeaves s e
  phase := by unfold Machine.entryLeaves; split <;> rfl
  params := params_entryLeaves s e
  counter := grantCounter_entryLeaves s e
  tenure i t h := by
    rw [lease_entryLeaves] at h
    split at h
    · exact h
    · split at h
      · rwa [LeaseState.tenure?_withoutUpgrade] at h
      · exact h
  live i t h := by
    rw [lease_entryLeaves] at h
    split at h
    · exact h
    · split at h
      · rwa [LeaseState.live?_withoutUpgrade] at h
      · exact h
  waiting := by rw [waiting_entryLeaves]; exact .left e .refl he

theorem endEntry {s : State} {e : Entry} (he : e ∈ s.waiting) (r : Result) (b : Body) : Relaxes s (endEntry e r b s) := by
  rw [endEntry_eq]
  exact (entryLeaves he).trans (modifyPort _ _ _)

theorem endUpgrade : Relaxes s (endUpgrade i r s) := by
  rcases endUpgrade_cases s i r with h | ⟨_, _, _, _, e, -, he, h⟩ <;> rw [h]
  · exact refl s
  · exact endEntry (List.mem_of_find?_eq_some he) _ _

end Relaxes

/-! ### Recall and revocation, as one shape -/

/-- What a recall that begins and a revocation do to a slot's record: the pending upgrade ends, and then, where the record is a
live lease, it changes to a state of the same tenure, a RECALLING one to REVOKED, and its holder is told (R63, R68). -/
inductive Curtails (i : Slot) (s : State) : State → Prop
  | nothing : Curtails i s s
  | told (r : Result) (t : Tenure) (l : LeaseState) (n : Notice) (live : (s.lease i).live? = some t)
      (tenure : l.tenure? = some t) (forward : (∀ d w k, s.lease i ≠ .recalling t d w k) ∨ ∃ c k, l = .revoked t c k)
      (handle : n.handle = s.handleOf i) :
      Curtails i s (addNotice t.port n ((endUpgrade i r s).setLease i l))

@[simp] theorem generation_endUpgrade : ((endUpgrade i r s).record j).generation = (s.record j).generation := by
  rcases endUpgrade_cases s i r with h | ⟨_, _, _, _, e, -, -, h⟩ <;> rw [h]
  rw [endEntry_eq, State.record_modifyPort, generation_entryLeaves]

@[simp] theorem handleOf_endUpgrade : (endUpgrade i r s).handleOf j = s.handleOf j := by simp [State.handleOf]

/-- The end of an entry changes no lease but for its pending upgrade. -/
theorem granted_endEntry {t : Tenure} {d : Tick} {w : Option Tick} {v : Option Tag} (h : s.lease i = .granted t d w v) :
    ∃ v', (endEntry e r b s).lease i = .granted t d w v' := by
  rw [endEntry_eq, State.lease_modifyPort, lease_entryLeaves]
  split
  · exact ⟨v, h⟩
  · split
    · exact ⟨none, by rw [h]; rfl⟩
    · exact ⟨v, h⟩

theorem granted_endUpgrade {t : Tenure} {d : Tick} {w : Option Tick} {v : Option Tag} (h : s.lease i = .granted t d w v) :
    ∃ v', (endUpgrade i r s).lease i = .granted t d w v' := by
  rcases endUpgrade_cases s i r with hu | ⟨_, _, _, _, e, -, -, hu⟩ <;> rw [hu]
  · exact ⟨v, h⟩
  · exact granted_endEntry s i e r .empty h

theorem endUpgrade_not_granted (h : ∀ t d w v, s.lease i ≠ .granted t d w v) : endUpgrade i r s = s := by
  rcases endUpgrade_cases s i r with hu | ⟨_, _, _, _, _, hl, -, -⟩
  · exact hu
  · exact absurd hl (h _ _ _ _)

@[simp] theorem live?_endUpgrade : ((endUpgrade i r s).lease j).live? = (s.lease j).live? := by
  rcases endUpgrade_cases s i r with h | ⟨_, _, _, _, e, -, -, h⟩ <;> rw [h]
  rw [endEntry_eq, State.lease_modifyPort, lease_entryLeaves]
  split
  · rfl
  · split <;> simp

theorem curtails_beginRecall : Curtails i s (beginRecall i s) := by
  by_cases h : ∃ t d w v, s.lease i = .granted t d w v
  · obtain ⟨t, d, w, v, h⟩ := h
    obtain ⟨v', h'⟩ := granted_endUpgrade s i .recalled h
    simp only [beginRecall, h']
    exact .told .recalled t (.recalling t d w _) _ (by rw [h]; rfl) rfl (.inl (by simp [h])) (handleOf_endUpgrade _ _ _ _)
  · rw [beginRecall_not_granted s i (by simpa using h)]
    exact .nothing

theorem curtails_revoke (c : Cause) : Curtails i s (revoke i c s) := by
  cases h : (s.lease i).live? with
  | some t =>
    simp only [revoke, live?_endUpgrade, h]
    exact .told .revoked t (.revoked t c _) _ h rfl (.inr ⟨c, _, rfl⟩) (handleOf_endUpgrade _ _ _ _)
  | none =>
    have hu : endUpgrade i .revoked s = s := endUpgrade_not_granted s i _ fun t d w v e => by simp [e, LeaseState.live?] at h
    simp only [revoke, hu, h]
    exact .nothing

theorem Relaxes.curtails {i : Slot} {s u : State} (h : Curtails i s u) : Relaxes s u := by
  cases h with
  | nothing => exact .refl s
  | told r t l n live tenure forward handle =>
    refine (endUpgrade s i r).trans ((setLease _ i (fun t' h => ?_) (fun t' h => ?_)).trans (modifyPort _ _ _))
    · rw [← h, tenure]
      exact LeaseState.tenure?_of_live? (by rw [live?_endUpgrade, live])
    · rw [live?_endUpgrade, live, ← tenure]
      exact LeaseState.tenure?_of_live? h

/-! ### The fence -/

/-- The fence's first part: the port is FENCED, and its entries end FENCED in waiting-list order (R77). -/
def fenceEntries (p : Port) (s : State) : State :=
  dropEntriesOf p (s.modifyPort p fun h => { h with
    state := .fenced
    queue := h.queue ++ (s.entriesOf p).map fun e => responseTo (kindCode e.claim.kind) e.tag .fenced .empty })

/-- The revocation of one of a fenced port's leases; nothing on another record (R77). -/
def fenceLease (p : Port) (s : State) (i : Slot) : State :=
  if (s.lease i).live?.map (·.port) = some p then revoke i .fenced s else s

theorem fencePort_eq : fencePort p s =
    (allSlots.foldl (fenceLease p) (fenceEntries p s)).modifyPort p fun h => { h with fenceLine := true } := rfl

/-- What the end of the port's entries and the revocation of each of its leases keep holds until FENCE# is asserted. -/
theorem fencePort_induction {P : State → Prop} (revoked : ∀ s i t, (s.lease i).live? = some t → t.port = p → P s →
    P (revoke i .fenced s)) (s : State) (h : P (fenceEntries p s)) :
    ∃ u, P u ∧ fencePort p s = u.modifyPort p fun h => { h with fenceLine := true } := by
  refine ⟨_, ?_, fencePort_eq s p⟩
  generalize fenceEntries p s = u at h
  induction allSlots generalizing u with
  | nil => exact h
  | cons i is ih =>
    refine ih _ ?_
    unfold fenceLease
    split
    · rename_i hi
      obtain ⟨t, hl, hp⟩ := Option.map_eq_some_iff.1 hi
      exact revoked u i t hl hp h
    · exact h

theorem Relaxes.changeHeld {p : Port} {g : LeaseState → LeaseState} (s : State)
    (ht : ∀ l t, (g l).tenure? = some t → l.tenure? = some t) (hl : ∀ l t, (g l).live? = some t → l.live? = some t) :
    Relaxes s (s.changeHeld p g) where
  array := rfl
  stamps := rfl
  phase := rfl
  params := rfl
  counter := rfl
  tenure i t h := by
    rw [State.lease_changeHeld] at h
    split at h
    · exact ht _ t h
    · exact h
  live i t h := by
    rw [State.lease_changeHeld] at h
    split at h
    · exact hl _ t h
    · exact h
  waiting := .refl

theorem Relaxes.dropEntriesOf : Relaxes s (dropEntriesOf p s) := by
  have dropped : Relaxes s { s with waiting := s.waiting.filter fun e => e.port != p } :=
    { Relaxes.refl s with waiting := .dropped p .refl }
  exact dropped.trans (changeHeld _ (by simp) (by simp))

theorem Relaxes.fencePort : Relaxes s (fencePort p s) := by
  obtain ⟨u, hu, h⟩ := fencePort_induction (P := Relaxes s) p
    (fun v i _ _ _ hv => hv.trans (curtails (curtails_revoke v i .fenced))) s
    ((modifyPort s p _).trans (dropEntriesOf _ p))
  rw [h]
  exact hu.trans (modifyPort u p _)

theorem Relaxes.tearDown (st : PortState) : Relaxes s (tearDown p st s) :=
  (dropEntriesOf s p).trans
    ((changeHeld _ (by simp [LeaseState.tenure?]) (by simp [LeaseState.live?])).trans (modifyPort _ p _))

/-! ### The moves that grant -/

@[simp] theorem lease_allocateIn (term : Nat) (m : ModeSpan) : (allocateIn i p term m s).lease j =
    if j = i then .granted { port := p, mode := m.mode, span := m.span, grant := s.grantCounter + 1 } (s.after term)
      (s.params.warningTick (s.after term) term) none else s.lease j := by
  unfold State.lease
  rw [record_allocateIn]
  split <;> rfl

/-- An allocation span by span, with the spans still to serve: each record is taken from the FREE ones. -/
theorem allocate_walk {Q : List ModeSpan → State → Prop} (p : Port) (term : Nat)
    (allocated : ∀ u i m ms, u.lease i = .free → Q (m :: ms) u → Q ms (allocateIn i p term m u)) (spans : List ModeSpan)
    (s : State) (h : Q spans s) : ∃ left, Q left (allocate p term spans s).1 := by
  induction spans generalizing s with
  | nil => exact ⟨[], h⟩
  | cons m ms ih =>
    unfold allocate
    split
    · exact ⟨_, h⟩
    · exact ih _ (allocated s _ m ms (freeSlot?_some s _ ‹_›) h)

/-- Everything the grant of an entry can be: the allocation of its records, its lease's upgrade, or neither; and then its
answer (R36 to R38). -/
theorem grantEntry_cases {P : State → Prop} (e : Entry) (s : State)
    (acquired : ∀ spans term, e.claim = .acquire spans term → s.grantCounter + spans.length ≤ Config.maxGrant →
      P (allocate e.port term spans (entryLeaves e s)).1)
    (upgraded : ∀ h sp, e.claim = .upgrade h sp → s.grantCounter + 1 ≤ Config.maxGrant →
      P (upgradeRecord h.slot (entryLeaves e s)))
    (exhausted : P (entryLeaves e s)) : ∃ u r, P u ∧ grantEntry e s = queueResponse e.port r u := by
  unfold grantEntry
  split
  · split
    · exact ⟨_, _, acquired _ _ ‹_› (of_decide_eq_true ‹_›), rfl⟩
    · exact ⟨_, _, exhausted, rfl⟩
  · split
    · exact ⟨_, _, upgraded _ _ ‹_› (of_decide_eq_true ‹_›), rfl⟩
    · exact ⟨_, _, exhausted, rfl⟩

theorem ports_upgradeRecord : (upgradeRecord i s).ports = s.ports := by unfold upgradeRecord; split <;> rfl
theorem waiting_upgradeRecord : (upgradeRecord i s).waiting = s.waiting := by unfold upgradeRecord; split <;> rfl

/-- A grant tells its own port alone, by one response (R24, R38, R53). -/
theorem ports_grantEntry : ∃ r, (grantEntry e s).ports = (queueResponse e.port r s).ports := by
  have respond : ∀ (u : State) r, u.ports = s.ports → (queueResponse e.port r u).ports = (queueResponse e.port r s).ports :=
    fun u r h => by simp [queueResponse, State.modifyPort, h]
  obtain ⟨u, r, hu, h⟩ := grantEntry_cases (P := fun u => u.ports = s.ports) e s
    (fun spans term _ _ => (allocate_frame e.port term spans).1.trans (ports_entryLeaves s e))
    (fun h _ _ _ => (ports_upgradeRecord _ h.slot).trans (ports_entryLeaves s e)) (ports_entryLeaves s e)
  exact ⟨r, h ▸ respond u r hu⟩

end Sys2Proof.Machine
end

section
/-!
PROOFS. A law about what records hold and what waits: the moves that grant nothing keep it, and it is left to look at the moves
that grant, take an entry in or configure (`Grants`).
-/

namespace Sys2Proof.Machine

/-- A property that the moves that grant nothing keep, and that grants, admissions and a DOWNGRADE keep. -/
structure Grants (P : State → Prop) : Prop where
  /-- Nothing is granted. -/
  relaxed : ∀ s u, Relaxes s u → P s → P u
  /-- DOWNGRADE. -/
  shared : ∀ s i t d w u, s.lease i = .granted t d w u → P s →
    P (s.setLease i (.granted { t with mode := .shared } d w u))
  /-- A lease is made EXCLUSIVE. -/
  upgraded : ∀ s i t d w u, s.lease i = .granted t d w u → s.grantCounter + 1 ≤ Config.maxGrant → P s →
    P { s.setLease i (.granted { t with mode := .exclusive, grant := s.grantCounter + 1 } d w none) with
        grantCounter := s.grantCounter + 1 }
  /-- A waiting ACQUIRE is granted. -/
  entryAcquired : ∀ s e spans term, e ∈ s.waiting → e.claim = .acquire spans term →
    s.grantCounter + spans.length ≤ Config.maxGrant → P s → P (allocate e.port term spans (entryLeaves e s)).1
  /-- An ACQUIRE is granted when it is taken. -/
  acquired : ∀ s p term spans, s.phase = .run → acquirable s p spans = true → P s → P (allocate p term spans s).1
  /-- An ACQUIRE becomes a waiting entry. -/
  acquireAdmitted : ∀ s e spans term, s.phase = .run → s.admissionSource? e.port = some e.source →
    s.freeIndex? = some e.index → e.claim = .acquire spans term → acquirable s e.port spans = true → P s →
    P { s with waiting := s.waiting ++ [e] }
  /-- An UPGRADE becomes a waiting entry. -/
  upgradeAdmitted : ∀ s e i t, s.phase = .run → s.admissionSource? e.port = some e.source →
    s.freeIndex? = some e.index → (s.lease i).live? = some t → t.port = e.port →
    e.claim = .upgrade (s.handleOf i) t.span → P s → P { s with waiting := s.waiting ++ [e] }

namespace Grants

variable {P : State → Prop} (K : Grants P)
include K

theorem upgradedRecord (s : State) (i : Slot) (hc : s.grantCounter + 1 ≤ Config.maxGrant) (h : P s) :
    P (upgradeRecord i s) := by
  unfold upgradeRecord
  split
  · exact K.upgraded s i _ _ _ _ ‹_› hc h
  · exact h

theorem entryGranted (s : State) (e : Entry) (he : e ∈ s.waiting) (h : P s) : P (grantEntry e s) := by
  have left : P (entryLeaves e s) := K.relaxed _ _ (.entryLeaves he) h
  obtain ⟨u, r, hu, hg⟩ := grantEntry_cases (P := P) e s
    (fun spans term hs hc => K.entryAcquired s e spans term he hs hc h)
    (fun g sp _ hc => K.upgradedRecord _ g.slot (by rwa [grantCounter_entryLeaves]) left) left
  rw [hg]
  exact K.relaxed _ _ (.modifyPort u e.port _) hu

/-- A record's state gives way to one of the same tenure. -/
theorem restated (s : State) (i : Slot) (l : LeaseState) (ht : l.tenure? = (s.lease i).tenure?)
    (hl : l.live? = (s.lease i).live?) (h : P s) : P (s.setLease i l) :=
  K.relaxed _ _ (.setLease s i (fun _ e => ht ▸ e) (fun _ e => hl ▸ e)) h

theorem moves : Moves P where
  counted s l n c k t h := K.relaxed s _ ⟨rfl, rfl, rfl, rfl, rfl, fun _ _ h => h, fun _ _ h => h, .refl⟩ h
  quiet s p f _ h := K.relaxed _ _ (.modifyPort s p f) h
  pulled s p h := K.relaxed _ _ (.modifyPort s p _) h
  responded s p r _ _ h := K.relaxed _ _ (.modifyPort s p _) h
  noticesTaken s p g _ h := K.relaxed _ _ (.modifyPort s p _) h
  sessionOpened s p _ h := K.relaxed _ _ (.modifyPort s p _) h
  appeared s p _ h := K.relaxed _ _ (.modifyPort s p _) h
  ended s e r b he h := K.relaxed _ _ (.endEntry he r b) h
  recallBegun s i h := K.relaxed _ _ (.curtails (curtails_beginRecall s i)) h
  revoked s i c h := K.relaxed _ _ (.curtails (curtails_revoke s i c)) h
  fenced s p h := K.relaxed _ _ (.fencePort s p) h
  entryGranted s e he _ _ _ h := K.entryGranted s e he h
  acquired s p term spans hp _ ha _ h := K.acquired s p term spans hp ha h
  upgradedNow s p i t d w _ _ _ hc h := K.upgradedRecord s i (of_decide_eq_true hc) h
  acquireAdmitted s e spans term hp _ _ _ hs hx hc ha h := by
    simp only [admitEntry, hc]
    exact K.acquireAdmitted s e spans term hp hs hx hc ha h
  upgradeAdmitted s e i t d w hp _ _ _ hs hx hl ht hc h := by
    have hw := K.upgradeAdmitted s e i t hp hs hx (by rw [hl]; rfl) ht hc h
    have hi : ({ s with waiting := s.waiting ++ [e] } : State).lease i = .granted t d w none := hl
    simp only [admitEntry, hc, State.handleOf_slot, hi]
    exact K.restated _ i _ (by rw [hi]; rfl) (by rw [hi]; rfl) hw
  shared := K.shared
  retimed s i t d w u d' w' hl h := K.restated s i _ (by rw [hl]; rfl) (by rw [hl]; rfl) h
  unwarned s i t d w r w' hl h := K.restated s i _ (by rw [hl]; rfl) (by rw [hl]; rfl) h
  warned s i t d w u _ h := K.relaxed _ _ (.modifyPort s _ _) h

omit K in
/-- Grants look at no more of the device than the moves that grant nothing do. -/
theorem of_device (same : ∀ s u : State, u.array = s.array → u.phase = s.phase → u.params = s.params → P s → P u) :
    Grants P where
  relaxed s u hr := same s u hr.array hr.phase hr.params
  shared s _ _ _ _ _ _ := same s _ rfl rfl rfl
  upgraded s _ _ _ _ _ _ _ := same s _ rfl rfl rfl
  entryAcquired s e spans term he _ _ h := by
    obtain ⟨-, -, -, -, array, -, phase, -, -, params, -⟩ := allocate_frame (s := entryLeaves e s) e.port term spans
    have left := Relaxes.entryLeaves he
    exact same s _ (array.trans left.array) (phase.trans left.phase) (params.trans left.params) h
  acquired s p term spans _ _ h := by
    obtain ⟨-, -, -, -, array, -, phase, -, -, params, -⟩ := allocate_frame (s := s) p term spans
    exact same s _ array phase params h
  acquireAdmitted s _ _ _ _ _ _ _ _ := same s _ rfl rfl rfl
  upgradeAdmitted s _ _ _ _ _ _ _ _ _ := same s _ rfl rfl rfl

theorem tornDown (s : State) (p : Port) (st : PortState) (h : P s) : P (tearDown p st s) :=
  K.relaxed _ _ (.tearDown s p st) h

theorem acked (s : State) (p : Port) (i : Slot) (h : P s) : P (removeNotice p i (freeRecord i s)) :=
  K.relaxed _ _ ((Relaxes.freeRecord s i).trans (.modifyPort _ p _)) h

theorem released (s : State) (p : Port) (i : Slot) (r : Result) (h : P s) :
    P (removeNotice p i (freeRecord i (endUpgrade i r s))) :=
  K.acked _ p i (K.relaxed _ _ (.endUpgrade s i r) h)

omit K in
theorem and {Q : State → Prop} (K : Grants P) (L : Grants Q) : Grants fun s => P s ∧ Q s where
  relaxed s u hr h := ⟨K.relaxed s u hr h.1, L.relaxed s u hr h.2⟩
  shared s i t d w u hl h := ⟨K.shared s i t d w u hl h.1, L.shared s i t d w u hl h.2⟩
  upgraded s i t d w u hl hc h := ⟨K.upgraded s i t d w u hl hc h.1, L.upgraded s i t d w u hl hc h.2⟩
  entryAcquired s e ms n he hc hn h := ⟨K.entryAcquired s e ms n he hc hn h.1, L.entryAcquired s e ms n he hc hn h.2⟩
  acquired s p n ms hp ha h := ⟨K.acquired s p n ms hp ha h.1, L.acquired s p n ms hp ha h.2⟩
  acquireAdmitted s e ms n hp hs hx hc ha h :=
    ⟨K.acquireAdmitted s e ms n hp hs hx hc ha h.1, L.acquireAdmitted s e ms n hp hs hx hc ha h.2⟩
  upgradeAdmitted s e i t hp hs hx hl ht hc h :=
    ⟨K.upgradeAdmitted s e i t hp hs hx hl ht hc h.1, L.upgradeAdmitted s e i t hp hs hx hl ht hc h.2⟩

end Grants

/-! ### After a reset -/

/-- What every reset leaves: each record FREE, no entry, the grant counter and the stamps at 0, the parameters at their values
after reset, and every port bare (R20, R27, R93, R102, R124, R144). -/
structure Blank (s : State) : Prop where
  record : ∀ i, s.record i = LeaseRecord.reset
  counter : s.grantCounter = 0
  waiting : s.waiting = []
  stamps : s.stamps = Vector.replicate 512 0
  params : s.params = Params.reset
  port : ∀ p, (s.port p).state = stateByPresent (s.port p).present ∧ (s.port p).queue = [] ∧ (s.port p).notices = [] ∧
    (s.port p).fenceLine = false

theorem Blank.lease {s : State} (h : Blank s) (i : Slot) : s.lease i = .free := by
  rw [State.lease, h.record]; rfl

theorem port_resetBlocks (s : State) (p : Port) : (resetBlocks s).port p = resetPort (s.port p) := by
  simp [resetBlocks, State.port]

theorem record_resetBlocks (s : State) (i : Slot) : (resetBlocks s).record i = LeaseRecord.reset := by
  simp [resetBlocks, State.record]

theorem blank_resetBlocks (s : State) : Blank (resetBlocks s) where
  record := record_resetBlocks s
  counter := rfl
  waiting := rfl
  stamps := rfl
  params := rfl
  port p := by rw [port_resetBlocks]; exact ⟨rfl, rfl, rfl, rfl⟩

theorem port_powerOnAct (s : State) (p : Port) :
    (powerOnAct s).port p = { resetPort (s.port p) with transaction := .none, sdo := [] } := by
  simp [powerOnAct, resetBlocks, State.port]

theorem blank_powerOnAct (s : State) : Blank (powerOnAct s) where
  record := record_resetBlocks s
  counter := rfl
  waiting := rfl
  stamps := rfl
  params := rfl
  port p := by rw [port_powerOnAct]; exact ⟨rfl, rfl, rfl, rfl⟩

theorem blank_resetAssertedAct (s : State) : Blank (resetAssertedAct s) :=
  have h := blank_resetBlocks s
  ⟨h.record, rfl, rfl, rfl, rfl, h.port⟩

theorem blank_resetDeassertedAct (s : State) : Blank (resetDeassertedAct s) :=
  have h := blank_resetBlocks s
  ⟨h.record, rfl, rfl, rfl, rfl, h.port⟩

theorem blank_reset : Blank State.reset where
  record := State.reset_record
  counter := rfl
  waiting := rfl
  stamps := rfl
  params := rfl
  port p := by rw [State.reset_port]; exact ⟨rfl, rfl, rfl, rfl⟩

/-- A step: what the tracked rule says, or a reset. -/
theorem Acts.stepOrBlank {A P Q : State → Prop} (K : Acts A P Q) {s t : State} (h : A s)
    (he : Machine.step s = .next t) : Q t ∨ Blank t := by
  unfold Machine.step at he
  split at he
  · cases he
    exact .inl (K.idle h)
  · rename_i c rest _
    have rest_holds := K.taken s rest h
    by_cases hp : c = .powerOn
    · subst hp; cases he; exact .inr (blank_powerOnAct _)
    · by_cases ha : ∃ n, c = .resetAsserted n
      · obtain ⟨n, rfl⟩ := ha
        cases he
        split
        · exact .inl (K.shared rest_holds id)
        · exact .inr (blank_resetAssertedAct _)
      · by_cases hd : c = .resetDeasserted
        · subst hd
          cases he
          split
          · exact .inr (blank_resetDeassertedAct _)
          · exact .inl (K.shared rest_holds id)
        · exact .inl (K.command c rest_holds hp (fun n e => ha ⟨n, e⟩) hd he)

@[simp] theorem stampAt_replicate (b : Nat) : stampAt (Vector.replicate 512 0) b = 0 := by
  unfold stampAt
  by_cases h : b < 512 <;> simp [h]

end Sys2Proof.Machine
end

section
/-!
PROOFS. The laws of what records hold and of the array: stamps and grant numbers (R16, R102), spans (R10), the array (R94), the
RUN phase (R15), quotas (R14) and the Request Table (R28).
-/

namespace Sys2Proof.Machine

/-! ### Stamps and grant numbers (R16, R102) -/

/-- The record allocated holds the number just issued; every other number was issued before. -/
theorem stampLaw_allocateIn {s : State} {i : Slot} {p : Port} {term : Nat} {m : ModeSpan} (h : StampLaw s)
    (hc : s.grantCounter + 1 ≤ Config.maxGrant) : StampLaw (allocateIn i p term m s) := by
  obtain ⟨-, stamps, grants⟩ := h
  refine ⟨hc, fun b => Nat.le_succ_of_le (stamps b), fun j t ht => ?_⟩
  rw [lease_allocateIn] at ht
  split at ht
  · cases ht; exact Nat.le_refl _
  · exact Nat.le_succ_of_le (grants j t ht)

theorem stampLaw_allocate {s : State} {p : Port} {term : Nat} {spans : List ModeSpan} (h : StampLaw s)
    (hc : s.grantCounter + spans.length ≤ Config.maxGrant) : StampLaw (allocate p term spans s).1 := by
  obtain ⟨_, h, -⟩ := allocate_walk (Q := fun ms u => StampLaw u ∧ u.grantCounter + ms.length ≤ Config.maxGrant) p term
    (fun u i m ms _ ⟨hu, hc⟩ => by
      rw [List.length_cons] at hc
      exact ⟨stampLaw_allocateIn hu (by omega), by rw [grantCounter_allocateIn]; omega⟩) spans s ⟨h, hc⟩
  exact h

theorem stampLaw_relaxes {s u : State} (hr : Relaxes s u) (h : StampLaw s) : StampLaw u := by
  obtain ⟨counter, stamps, grants⟩ := h
  rw [StampLaw, hr.counter, hr.stamps]
  exact ⟨counter, stamps, fun i t ht => grants i t (hr.tenure i t ht)⟩

theorem grants_stampLaw : Grants StampLaw where
  relaxed _ _ := stampLaw_relaxes
  shared s i t d w u hl h := by
    obtain ⟨counter, stamps, grants⟩ := h
    refine ⟨counter, stamps, fun j t' ht => ?_⟩
    rw [State.lease_setLease] at ht
    split at ht
    · cases ht; exact grants i t (by rw [hl]; rfl)
    · exact grants j t' ht
  upgraded s i t d w u _ hc h := by
    obtain ⟨-, stamps, grants⟩ := h
    refine ⟨hc, fun b => Nat.le_succ_of_le (stamps b), fun j t' ht => ?_⟩
    replace ht : ((s.setLease i _).lease j).tenure? = some t' := ht
    rw [State.lease_setLease] at ht
    split at ht
    · cases ht; exact Nat.le_refl _
    · exact Nat.le_succ_of_le (grants j t' ht)
  entryAcquired s e spans term he _ hc h :=
    stampLaw_allocate (stampLaw_relaxes (.entryLeaves he) h) (by rwa [grantCounter_entryLeaves])
  acquired s p term spans _ ha h := by
    simp only [acquirable, Bool.and_eq_true, decide_eq_true_eq] at ha
    exact stampLaw_allocate h ha.2
  acquireAdmitted _ _ _ _ _ _ _ _ _ h := h
  upgradeAdmitted _ _ _ _ _ _ _ _ _ _ h := h

theorem stampLaw_blank {s : State} (h : Blank s) : StampLaw s := by
  refine ⟨by rw [h.counter]; exact Nat.zero_le _, fun b => ?_, fun i t ht => ?_⟩
  · rw [h.stamps, stampAt_replicate]; exact Nat.zero_le _
  · rw [h.lease] at ht; cases ht

theorem kept_stampLaw : Kept StampLaw where
  toMoves := grants_stampLaw.moves
  started _ _ h := h
  configured _ _ _ _ _ _ _ h := h
  tornDown s p st _ h := grants_stampLaw.tornDown s p st h
  released s p i _ r _ _ h := grants_stampLaw.released s p i r h
  acked s p i _ _ _ _ _ h := grants_stampLaw.acked s p i h
  written s p i t a bs _ _ hl _ _ _ _ h := by
    obtain ⟨counter, stamps, grants⟩ := h
    refine ⟨counter, fun b => ?_, grants⟩
    rw [stampAt_stampBlocks]
    split
    · exact grants i t (LeaseState.tenure?_of_live? hl)
    · exact stamps b
  poweredOn s _ := stampLaw_blank (blank_powerOnAct s)
  resetTaken s _ := stampLaw_blank (blank_resetAssertedAct s)
  resetReleased s _ := stampLaw_blank (blank_resetDeassertedAct s)
  cleared s _ h := by
    obtain ⟨counter, -, grants⟩ := h
    exact ⟨counter, fun b => by simp [clearingEndAct], grants⟩

/-- Settles O53: every number was issued before it is held or stamped. -/
theorem stepKeepsStampLaw : Obligations.StepKeepsStampLaw := fun _ _ => kept_stampLaw.step

/-! ### The array and the spans (R10, R94, R95) -/

theorem SpanLaw.relaxes {s u : State} (hr : Relaxes s u) (h : SpanLaw s) : SpanLaw u := by
  obtain ⟨held, waits⟩ := h
  refine ⟨fun i t ht => held i t (hr.tenure i t ht), fun f hf => ?_⟩
  obtain ⟨e, he, hk⟩ := hr.waiting.mem hf
  simp only [Entry.key, Prod.mk.injEq] at hk
  rw [← hk.2.2.2]
  exact waits e he

theorem spanLaw_allocate {s : State} {p : Port} {term : Nat} {spans : List ModeSpan} (h : SpanLaw s)
    (hv : ∀ m ∈ spans, m.span.valid = true) : SpanLaw (allocate p term spans s).1 := by
  obtain ⟨_, h, -⟩ := allocate_walk (Q := fun ms u => SpanLaw u ∧ ∀ m ∈ ms, m.span.valid = true) p term
    (fun u i m ms _ ⟨⟨held, waits⟩, hv⟩ => by
      obtain ⟨hm, hms⟩ := List.forall_mem_cons.1 hv
      refine ⟨⟨fun j t ht => ?_, waits⟩, hms⟩
      rw [lease_allocateIn] at ht
      split at ht
      · cases ht; exact hm
      · exact held j t ht) spans s ⟨h, hv⟩
  exact h

/-- A change of one record that keeps its span. -/
theorem spanLaw_setLease {s : State} {i : Slot} {l : LeaseState} {t t' : Tenure} (h : SpanLaw s)
    (hs : (s.lease i).tenure? = some t) (hl : l.tenure? = some t') (ht : t'.span = t.span) : SpanLaw (s.setLease i l) := by
  obtain ⟨held, waits⟩ := h
  refine ⟨fun j u hu => ?_, waits⟩
  rw [State.lease_setLease] at hu
  split at hu
  · rw [hl] at hu; cases hu; rw [ht]; exact held i t hs
  · exact held j u hu

theorem grants_spanLaw : Grants SpanLaw where
  relaxed _ _ := SpanLaw.relaxes
  shared s i t d w u hl h := spanLaw_setLease (t := t) h (by rw [hl]; rfl) rfl rfl
  upgraded s i t d w u hl _ h := spanLaw_setLease (t := t) h (by rw [hl]; rfl) rfl rfl
  entryAcquired s e spans term he hc _ h := by
    refine spanLaw_allocate (h.relaxes (.entryLeaves he)) ?_
    have := h.2 e he
    rwa [hc] at this
  acquired s p term spans _ ha h := by
    simp only [acquirable, Bool.and_eq_true, List.all_eq_true] at ha
    obtain ⟨⟨⟨⟨-, hv⟩, -⟩, -⟩, -⟩ := ha
    exact spanLaw_allocate h hv
  acquireAdmitted s e spans term _ _ _ hc ha h := by
    simp only [acquirable, Bool.and_eq_true, List.all_eq_true] at ha
    obtain ⟨⟨⟨⟨-, hv⟩, -⟩, -⟩, -⟩ := ha
    refine ⟨h.1, List.forall_mem_append.2 ⟨h.2, List.forall_mem_singleton.2 ?_⟩⟩
    rw [hc]; exact hv
  upgradeAdmitted s e i t _ _ _ hl _ hc h := by
    refine ⟨h.1, List.forall_mem_append.2 ⟨h.2, List.forall_mem_singleton.2 ?_⟩⟩
    rw [hc]
    exact List.forall_mem_singleton.2 (h.1 i t (LeaseState.tenure?_of_live? hl))

theorem spanLaw_blank {s : State} (h : Blank s) : SpanLaw s := by
  refine ⟨fun i t ht => ?_, ?_⟩
  · rw [h.lease] at ht; cases ht
  · rw [h.waiting]; simp

/-- A span that is valid lies in the array's 262,144 bytes (R10, R95). -/
theorem within_array {sp : Span} {a n : Nat} (hv : sp.valid = true) (h : withinSpan sp a n = true) : a + n ≤ Config.arrayBytes := by
  simp only [Span.valid, withinSpan, Bool.and_eq_true, decide_eq_true_eq] at hv h
  simp only [Config.blockBytes, Config.arrayBytes] at h ⊢
  omega

theorem ArrayLaw.congr {s u : State} (hu : u.array = s.array) (h : ArrayLaw s) : ArrayLaw u := by
  rw [ArrayLaw, hu]; exact h

theorem arrayLaw_nil {s : State} (h : s.array = []) : ArrayLaw s := by
  rw [ArrayLaw, h]; exact ⟨rfl, by simp⟩

theorem grants_arrayLaw : Grants ArrayLaw := .of_device fun _ _ ha _ _ => ArrayLaw.congr ha

theorem kept_arrayLaw_spanLaw : Kept fun s => ArrayLaw s ∧ SpanLaw s where
  toMoves := (grants_arrayLaw.and grants_spanLaw).moves
  started _ _ h := h
  configured _ _ _ _ _ _ _ h := h
  tornDown s p st _ := (grants_arrayLaw.and grants_spanLaw).tornDown s p st
  released s p i _ r _ _ := (grants_arrayLaw.and grants_spanLaw).released s p i r
  acked s p i _ _ _ _ _ := (grants_arrayLaw.and grants_spanLaw).acked s p i
  written s p i t a bs _ _ hl _ _ _ hin h := by
    obtain ⟨⟨wf, bound⟩, held, waits⟩ := h
    have ha := within_array (held i t (LeaseState.tenure?_of_live? hl)) hin
    exact ⟨⟨memoryWf_writeBytes _ _ _ wf, writeBytes_bound _ _ _ _ ha bound⟩, held, waits⟩
  poweredOn s _ := ⟨arrayLaw_nil rfl, spanLaw_blank (blank_powerOnAct s)⟩
  resetTaken s h := ⟨h.1.congr rfl, spanLaw_blank (blank_resetAssertedAct s)⟩
  resetReleased s h := ⟨h.1.congr rfl, spanLaw_blank (blank_resetDeassertedAct s)⟩
  cleared _ _ h := ⟨arrayLaw_nil rfl, h.2⟩

/-- Settles O56: a WRITE stays in its lease's span, which is valid. -/
theorem stepKeepsArrayLaw : Obligations.StepKeepsArrayLaw := fun _ _ => kept_arrayLaw_spanLaw.step

/-! ### The RUN phase (R15) -/

theorem OnlyInRun.run_of_entry {s : State} (h : OnlyInRun s) {e : Entry} (he : e ∈ s.waiting) : s.phase = .run := by
  by_contra hp
  rw [(h hp).1] at he
  cases he

theorem OnlyInRun.run_of_lease {s : State} (h : OnlyInRun s) {i : Slot} (hi : s.lease i ≠ .free) : s.phase = .run := by
  by_contra hp
  exact hi ((h hp).2 i)

theorem onlyInRun_of_run {s : State} (h : s.phase = .run) : OnlyInRun s := fun hp => absurd h hp

theorem onlyInRun_blank {s : State} (h : Blank s) : OnlyInRun s := fun _ => ⟨h.waiting, h.lease⟩

theorem phase_allocate (p : Port) (term : Nat) (spans : List ModeSpan) (s : State) :
    (allocate p term spans s).1.phase = s.phase := by
  obtain ⟨-, -, -, -, -, -, phase, -⟩ := allocate_frame (s := s) p term spans
  exact phase

theorem grants_onlyInRun : Grants OnlyInRun where
  relaxed s u hr h hp := by
    obtain ⟨none, free⟩ := h (hr.phase ▸ hp)
    exact ⟨(none ▸ hr.waiting : Shortened [] _).nil, fun i => hr.free (free i)⟩
  shared s i t d w u hl h := onlyInRun_of_run (s := s.setLease i _) (h.run_of_lease (i := i) (by simp [hl]))
  upgraded s i t d w u hl _ h := onlyInRun_of_run (h.run_of_lease (i := i) (by simp [hl]))
  entryAcquired s e spans term he _ _ h :=
    onlyInRun_of_run (by rw [phase_allocate, (Relaxes.entryLeaves he).phase]; exact h.run_of_entry he)
  acquired s p term spans hp _ _ := onlyInRun_of_run (by rw [phase_allocate]; exact hp)
  acquireAdmitted _ _ _ _ hp _ _ _ _ _ := onlyInRun_of_run hp
  upgradeAdmitted _ _ _ _ hp _ _ _ _ _ _ := onlyInRun_of_run hp

theorem kept_onlyInRun : Kept OnlyInRun where
  toMoves := grants_onlyInRun.moves
  started _ _ _ := onlyInRun_of_run rfl
  configured _ _ _ _ _ _ _ h := h
  tornDown s p st _ := grants_onlyInRun.tornDown s p st
  released s p i _ r _ _ := grants_onlyInRun.released s p i r
  acked s p i _ _ _ _ _ := grants_onlyInRun.acked s p i
  written _ _ _ _ _ _ _ _ _ _ _ _ _ h := h
  poweredOn s _ := onlyInRun_blank (blank_powerOnAct s)
  resetTaken s _ := onlyInRun_blank (blank_resetAssertedAct s)
  resetReleased s _ := onlyInRun_blank (blank_resetDeassertedAct s)
  cleared s hp h := fun _ => h (by rw [hp]; decide)

/-! ### Quotas (R14) -/

/-- A port's quota count as a function of what its entries hold but for their sources. -/
theorem quotas_entriesOf (s : State) (p : Port) : (s.entriesOf p).map (fun e => e.claim.quota) =
    ((s.waiting.map Entry.key).filter fun k => k.2.1 == p).map fun k => k.2.2.2.quota := by
  rw [List.filter_map, List.map_map]
  rfl

theorem quotaCount_relaxes {s u : State} (hr : Relaxes s u) (p : Port) : u.quotaCount p ≤ s.quotaCount p := by
  refine Nat.add_le_add (List.Sublist.length_le ?_) ?_
  · refine List.monotone_filter_right _ fun i hi => ?_
    simp only [State.holder?, LeaseState.holder?, beq_iff_eq, Option.map_eq_some_iff] at hi ⊢
    obtain ⟨t, ht, hp⟩ := hi
    exact ⟨t, hr.tenure i t ht, hp⟩
  · rw [quotas_entriesOf, quotas_entriesOf]
    exact ((hr.waiting.keys.filter _).map _).sum_le_sum (by simp)

/-- An entry that leaves gives back what it counted against its port's quota. -/
theorem quotaCount_entryLeaves {s : State} {e : Entry} (he : e ∈ s.waiting) :
    (entryLeaves e s).quotaCount e.port + e.claim.quota ≤ s.quotaCount e.port := by
  have slots : (entryLeaves e s).slotsOf e.port = s.slotsOf e.port := by
    refine List.filter_congr fun i _ => ?_
    have : (entryLeaves e s).holder? i = s.holder? i := by
      show ((entryLeaves e s).lease i).holder? = (s.lease i).holder?
      rw [lease_entryLeaves]
      split
      · rfl
      · split
        · exact LeaseState.holder?_withoutUpgrade _
        · rfl
    rw [this]
  have entries : ((entryLeaves e s).entriesOf e.port).map (fun e => e.claim.quota) =
      ((s.entriesOf e.port).filter fun x => x.index != e.index).map fun e => e.claim.quota := by
    rw [quotas_entriesOf, waiting_entryLeaves, key_withoutEntry, List.filter_map, List.map_map, List.filter_comm]
    rfl
  have given : (((s.entriesOf e.port).filter fun x => x.index != e.index).map fun e => e.claim.quota).sum + e.claim.quota ≤
      ((s.entriesOf e.port).map fun e => e.claim.quota).sum := by
    have mem : e ∈ s.entriesOf e.port := List.mem_filter.2 ⟨he, by simp⟩
    have rest : ((s.entriesOf e.port).filter fun x => x.index != e.index).Sublist ((s.entriesOf e.port).erase e) := by
      have := (List.filter_sublist (p := fun x : Entry => x.index != e.index) (l := s.entriesOf e.port)).erase e
      rwa [List.erase_of_not_mem (by simp)] at this
    rw [← List.sum_map_erase (fun e : Entry => e.claim.quota) mem, Nat.add_comm]
    exact Nat.add_le_add_left ((rest.map _).sum_le_sum (by simp)) _
  unfold State.quotaCount
  rw [slots, entries]
  omega

/-- A record allocated counts once against its port's quota, and against no other. -/
theorem quotaCount_allocateIn (s : State) (i : Slot) (p q : Port) (term : Nat) (m : ModeSpan) :
    (allocateIn i p term m s).quotaCount q ≤ s.quotaCount q + if q = p then 1 else 0 := by
  have holder : ∀ j, (allocateIn i p term m s).holder? j = if j = i then some p else s.holder? j := by
    intro j
    rw [State.holder?, lease_allocateIn]
    split <;> rfl
  have nodup : ((allocateIn i p term m s).slotsOf q).Nodup := (List.nodup_finRange 64).filter _
  have slots : ((allocateIn i p term m s).slotsOf q).length ≤ (s.slotsOf q).length + if q = p then 1 else 0 := by
    split
    · refine (List.Nodup.subperm (l₂ := i :: s.slotsOf q) nodup fun j hj => ?_).length_le
      simp only [State.slotsOf, List.mem_filter, holder, beq_iff_eq, List.mem_cons] at hj ⊢
      by_cases h : j = i
      · exact .inl h
      · rw [if_neg h] at hj; exact .inr hj
    · refine (List.Nodup.subperm (l₂ := s.slotsOf q) nodup fun j hj => ?_).length_le
      simp only [State.slotsOf, List.mem_filter, holder, beq_iff_eq] at hj ⊢
      split at hj
      · simp only [Option.some.injEq] at hj; exact absurd hj.2.symm ‹_›
      · exact hj
  have entries : (allocateIn i p term m s).entriesOf q = s.entriesOf q := rfl
  unfold State.quotaCount
  rw [entries]
  omega

theorem quotaLaw_allocate {s : State} {p : Port} {term : Nat} {spans : List ModeSpan} (h : QuotaLaw s)
    (hp : s.quotaCount p + spans.length ≤ s.params.leaseQuota[p]) : QuotaLaw (allocate p term spans s).1 := by
  obtain ⟨_, h, -⟩ := allocate_walk (Q := fun ms u => QuotaLaw u ∧ u.quotaCount p + ms.length ≤ u.params.leaseQuota[p]) p term
    (fun u i m ms _ ⟨⟨counts, total⟩, hp⟩ => by
      rw [List.length_cons] at hp
      have own := quotaCount_allocateIn u i p p term m
      rw [if_pos rfl] at own
      refine ⟨⟨fun q => ?_, total⟩, Nat.le_trans (by omega) hp⟩
      have := quotaCount_allocateIn u i p q term m
      by_cases hq : q = p
      · subst hq; exact Nat.le_trans (by omega) hp
      · rw [if_neg hq] at this; exact Nat.le_trans this (counts q)) spans s ⟨h, hp⟩
  exact h

theorem QuotaLaw.relaxes {s u : State} (hr : Relaxes s u) (h : QuotaLaw s) : QuotaLaw u := by
  obtain ⟨counts, total⟩ := h
  rw [QuotaLaw, hr.params]
  exact ⟨fun p => Nat.le_trans (quotaCount_relaxes hr p) (counts p), total⟩

/-- A record whose state changes to one of the same holder counts as before. -/
theorem quotaCount_setLease {s : State} {i : Slot} {l : LeaseState} (hl : l.holder? = s.holder? i) (p : Port) :
    (s.setLease i l).quotaCount p = s.quotaCount p := by
  have : (s.setLease i l).slotsOf p = s.slotsOf p := by
    refine List.filter_congr fun j _ => ?_
    rw [State.holder?, State.lease_setLease]
    split
    · subst_vars; rw [hl]
    · rfl
  unfold State.quotaCount
  rw [this]
  rfl

/-- An entry admitted counts its spans against its port's quota. -/
theorem quotaCount_admitted (s : State) (e : Entry) (p : Port) :
    ({ s with waiting := s.waiting ++ [e] } : State).quotaCount p = s.quotaCount p + if p = e.port then e.claim.quota else 0 := by
  have entries : ({ s with waiting := s.waiting ++ [e] } : State).entriesOf p =
      s.entriesOf p ++ if p = e.port then [e] else [] := by
    by_cases h : e.port = p <;> simp [State.entriesOf, h, eq_comm (a := p)]
  show (s.slotsOf p).length + _ = (s.slotsOf p).length + _ + _
  rw [entries, List.map_append, List.sum_append]
  split <;> simp; omega

theorem grants_quotaLaw : Grants QuotaLaw where
  relaxed _ _ := QuotaLaw.relaxes
  shared s i t d w u hl h := ⟨fun p => by
    rw [quotaCount_setLease (by simp [State.holder?, hl, LeaseState.holder?, LeaseState.tenure?])]; exact h.1 p, h.2⟩
  upgraded s i t d w u hl _ h := ⟨fun p => by
    refine Nat.le_trans (Nat.le_of_eq (quotaCount_setLease ?_ p)) (h.1 p)
    simp [State.holder?, hl, LeaseState.holder?, LeaseState.tenure?], h.2⟩
  entryAcquired s e spans term he hc _ h := by
    refine quotaLaw_allocate (h.relaxes (.entryLeaves he)) ?_
    have := quotaCount_entryLeaves he
    rw [hc] at this
    rw [params_entryLeaves]
    exact Nat.le_trans this (h.1 e.port)
  acquired s p term spans _ ha h := by
    simp only [acquirable, Bool.and_eq_true, decide_eq_true_eq] at ha
    exact quotaLaw_allocate h ha.1.2
  acquireAdmitted s e spans term _ _ _ hc ha h := by
    simp only [acquirable, Bool.and_eq_true, decide_eq_true_eq] at ha
    refine ⟨fun p => ?_, h.2⟩
    rw [quotaCount_admitted]
    split
    · subst_vars; rw [hc]; exact ha.1.2
    · exact h.1 p
  upgradeAdmitted s e i t _ _ _ _ _ hc h := ⟨fun p => by rw [quotaCount_admitted, hc]; simpa [Claim.quota] using h.1 p, h.2⟩

/-- With no lease and no entry no port counts anything against its quota. -/
theorem quotaCount_nothing {s : State} (hw : s.waiting = []) (hl : ∀ i, s.lease i = .free) (p : Port) : s.quotaCount p = 0 := by
  simp [State.quotaCount, State.slotsOf, State.entriesOf, State.holder?, hw, hl, LeaseState.holder?, LeaseState.tenure?]

theorem quotaLaw_blank {s : State} (h : Blank s) : QuotaLaw s :=
  ⟨fun p => by rw [quotaCount_nothing h.waiting h.lease]; exact Nat.zero_le _, by rw [h.params]; decide⟩

/-- No parameters, or quotas whose sum is at most 64. -/
def QuotasFit (o : Option Params) : Prop := ∀ ps ∈ o, ps.leaseQuota.toList.sum ≤ 64

/-- A SET keeps the sum of the quotas at 64 or below (R147). -/
theorem setParam_quotas {ps : Params} {i q : Byte} {v : Nat} (hq : ps.leaseQuota.toList.sum ≤ 64) :
    QuotasFit (setParam ps i q v) := by
  have none : QuotasFit none := by simp [QuotasFit]
  have same : ∀ (ps' : Params), ps'.leaseQuota = ps.leaseQuota → QuotasFit (some ps') := by
    rintro ps' h _ ⟨⟩; rw [h]; exact hq
  have guarded : ∀ (c : Prop) [Decidable c] (ps' : Params), (c → ps'.leaseQuota.toList.sum ≤ 64) →
      QuotasFit (if c then some ps' else Option.none) := by
    intro c _ ps' h
    split
    · rintro _ ⟨⟩; exact h ‹_›
    · exact none
  have kept : ∀ (c : Prop) [Decidable c] (ps' : Params), ps'.leaseQuota = ps.leaseQuota →
      QuotasFit (if c then some ps' else Option.none) := fun c _ ps' h => guarded c ps' fun _ => h ▸ hq
  unfold setParam
  refine iteInduction (fun _ => ?_) fun _ => ?_
  · split
    · exact same _ rfl
    · exact none
  refine iteInduction (fun _ => kept _ _ rfl) fun _ => ?_
  refine iteInduction (fun _ => kept _ _ rfl) fun _ => ?_
  refine iteInduction (fun _ => kept _ _ rfl) fun _ => ?_
  refine iteInduction (fun _ => kept _ _ rfl) fun _ => ?_
  refine iteInduction (fun _ => kept _ _ rfl) fun _ => ?_
  refine iteInduction (fun _ => ?_) fun _ => iteInduction (fun _ => ?_) fun _ => none
  · split
    · exact guarded _ _ fun h => by simp only [Bool.and_eq_true, decide_eq_true_eq] at h; exact h.2
    · exact none
  · split
    · exact kept _ _ rfl
    · exact none
/-- A law of the records, the entries and the parameters, which holds in SETUP because nothing is held or waits there: a step
keeps it where leases and entries are kept to RUN. -/
theorem Grants.stepInRun {P : State → Prop} (K : Grants P)
    (same : ∀ s u : State, u.leases = s.leases → u.waiting = s.waiting → u.params = s.params → P s → P u)
    (configured : ∀ s i q v ps, s.waiting = [] → (∀ i, s.lease i = .free) → setParam s.params i q v = some ps → P s →
      P { s with params := ps })
    (blank : ∀ s, Blank s → P s) {s t : State} (hr : OnlyInRun s) (h : P s) (he : step s = .next t) : P t := by
  have acts : Acts (fun s => OnlyInRun s ∧ P s) P P :=
    { taken := fun s l h => ⟨h.1, same s _ rfl rfl rfl h.2⟩
      settles := fun s p f _ h => ⟨h.1, same s _ rfl rfl rfl h.2⟩
      moves := K.moves
      later := K.moves
      begun := fun _ h => h.2
      done := fun _ h => h
      started := fun s _ h => same s _ rfl rfl rfl h.2
      configured := fun s i q v ps hp hs h =>
        configured s i q v ps (h.1 (by rw [hp]; decide)).1 (h.1 (by rw [hp]; decide)).2 hs h.2
      tornDown := fun s p st _ h => K.tornDown s p st h.2
      released := fun s p i _ r _ _ h => K.released s p i r h.2
      acked := fun s p i _ _ _ _ _ h => K.acked s p i h.2
      written := fun s _ _ _ _ _ _ _ _ _ _ _ _ h => same s _ rfl rfl rfl h.2
      cleared := fun s _ h => same s _ rfl rfl rfl h.2 }
  exact (acts.stepOrBlank ⟨hr, h⟩ he).elim id (blank t)

theorem QuotaLaw.congr {s u : State} (hl : u.leases = s.leases) (hw : u.waiting = s.waiting) (hp : u.params = s.params)
    (h : QuotaLaw s) : QuotaLaw u := by
  have : ∀ p, u.quotaCount p = s.quotaCount p := fun p => by
    simp only [State.quotaCount, State.slotsOf, State.entriesOf, State.holder?, State.lease, State.record, hl, hw]
  obtain ⟨counts, total⟩ := h
  rw [QuotaLaw, hp]
  exact ⟨fun p => this p ▸ counts p, total⟩

theorem quotaLaw_step {s t : State} (hr : OnlyInRun s) (h : QuotaLaw s) (he : step s = .next t) : QuotaLaw t :=
  grants_quotaLaw.stepInRun (fun _ _ => QuotaLaw.congr) (fun s i q v ps hw hl hs h =>
    ⟨fun p => by
      rw [quotaCount_nothing (s := { s with params := ps }) hw hl]; exact Nat.zero_le _,
      setParam_quotas h.2 ps hs⟩) (fun _ => quotaLaw_blank) hr h he

/-! ### The Request Table (R28) -/

/-- How many entries of a port and a source a list has. -/
def countFrom (es : List Entry) (p : Port) (src : Source) : Nat := es.countP fun e => e.port == p && e.source == src

/-- How many SHARED_POOL entries a list has. -/
def countPool (es : List Entry) : Nat := es.countP fun e => e.source == .sharedPool

theorem length_entriesFrom (s : State) (p : Port) (src : Source) : (s.entriesFrom p src).length = countFrom s.waiting p src := by
  rw [State.entriesFrom, State.entriesOf, List.filter_filter, countFrom, List.countP_eq_length_filter]
  simp only [Bool.and_comm]

/-- The Request Table's law as numbers of entries. -/
theorem tableLaw_iff (s : State) : TableLaw s ↔ s.waiting.Pairwise (fun a b => a.index ≠ b.index) ∧
    countPool s.waiting ≤ s.params.sharedPool ∧ ∀ p, countFrom s.waiting p .reserved ≤ s.params.reservedEntries[p] ∧
      (0 < countFrom s.waiting p .sharedPool → countFrom s.waiting p .reserved = s.params.reservedEntries[p]) := by
  simp only [TableLaw, State.poolUse, countPool, List.countP_eq_length_filter, ne_eq, ← List.length_pos_iff,
    length_entriesFrom]

theorem countFrom_insert (front back : List Entry) (e : Entry) (p : Port) (src : Source) :
    countFrom (front ++ e :: back) p src = countFrom (front ++ back) p src + if e.port = p ∧ e.source = src then 1 else 0 := by
  simp only [countFrom, List.countP_append, List.countP_cons, Bool.and_eq_true, beq_iff_eq]
  omega

theorem countPool_insert (front back : List Entry) (e : Entry) :
    countPool (front ++ e :: back) = countPool (front ++ back) + if e.source = .sharedPool then 1 else 0 := by
  simp only [countPool, List.countP_append, List.countP_cons, beq_iff_eq]
  omega

/-- What a RESERVED entry's leaving can do to its port's other entries: nothing, where it has no SHARED_POOL entry, or a change
of the source of one of those (R29). -/
theorem promoteFirst_cases (p : Port) (es : List Entry) : countFrom es p .sharedPool = 0 ∧ promoteFirst p es = es ∨
    ∃ front first back, es = front ++ first :: back ∧ first.port = p ∧ first.source = .sharedPool ∧
      promoteFirst p es = front ++ { first with source := .reserved } :: back := by
  induction es with
  | nil => exact .inl ⟨rfl, rfl⟩
  | cons a es ih =>
    unfold promoteFirst
    split
    · exact .inr ⟨[], a, es, rfl, ‹_ ∧ _›.1, ‹_ ∧ _›.2, rfl⟩
    · rcases ih with ⟨hc, h⟩ | ⟨front, first, back, he, hp, hs, h⟩
      · refine .inl ⟨?_, by rw [h]⟩
        rw [countFrom, List.countP_cons_of_neg fun hx => ‹¬(a.port = p ∧ _)› (by simpa using hx)]
        exact hc
      · exact .inr ⟨a :: front, first, back, by rw [he]; rfl, hp, hs, by rw [h]; rfl⟩

theorem tableLaw_withoutEntry {s : State} {e : Entry} (h : TableLaw s) (he : e ∈ s.waiting) :
    TableLaw { s with waiting := withoutEntry e s.waiting } := by
  obtain ⟨indexes, pool, ports⟩ := (tableLaw_iff s).1 h
  obtain ⟨before, after, hw⟩ := List.append_of_mem he
  have others : ∀ a ∈ before ++ after, a.index ≠ e.index := by
    rw [hw, List.pairwise_middle (fun h => Ne.symm h)] at indexes
    exact fun a ha => ((List.pairwise_cons.1 indexes).1 a ha).symm
  have hindex : (withoutEntry e s.waiting).Pairwise fun a b => a.index ≠ b.index := by
    have keys : ((withoutEntry e s.waiting).map (·.index)).Sublist (s.waiting.map (·.index)) :=
      (Shortened.left e .refl he).map (·.1)
    exact List.pairwise_map.1 ((List.pairwise_map.2 indexes).sublist keys)
  refine (tableLaw_iff _).2 ⟨hindex, ?_⟩
  simp only [hw, withoutEntry_split e others]
  simp only [hw, countFrom_insert, countPool_insert] at pool ports
  by_cases hr : e.source = .reserved
  · rw [if_pos hr]
    rcases promoteFirst_cases e.port (before ++ after) with ⟨hc, hp⟩ | ⟨front, first, back, hsplit, hfp, hfs, hp⟩
    · rw [hp]
      refine ⟨by omega, fun p => ?_⟩
      have := ports p
      by_cases hep : e.port = p
      · subst hep; simp only [hr, hc] at this ⊢; simp at this ⊢; omega
      · simpa [hep] using this
    · rw [hp]
      simp only [hsplit, countFrom_insert, countPool_insert, hr, hfs, hfp] at pool ports ⊢
      refine ⟨by simp at pool ⊢; omega, fun p => ?_⟩
      have := ports p
      by_cases hep : e.port = p <;> simp [hep] at this ⊢ <;> omega
  · rw [if_neg hr]
    refine ⟨by omega, fun p => ?_⟩
    have := ports p
    by_cases hep : e.port = p
    · simp only [hr, and_false, if_false, Nat.add_zero] at this
      exact ⟨this.1, fun hpos => this.2 (by omega)⟩
    · simpa [hep] using this

/-- The leaving of every entry of one port touches no other port's entries. -/
theorem tableLaw_dropped {s : State} (q : Port) (h : TableLaw s) :
    TableLaw { s with waiting := s.waiting.filter fun e => e.port != q } := by
  obtain ⟨indexes, pool, ports⟩ := (tableLaw_iff s).1 h
  refine (tableLaw_iff _).2 ⟨indexes.sublist List.filter_sublist, Nat.le_trans ?_ pool, fun p => ?_⟩
  · exact List.Sublist.countP_le List.filter_sublist
  · have hc : ∀ src, countFrom (s.waiting.filter fun e => e.port != q) p src =
        if p = q then 0 else countFrom s.waiting p src := by
      intro src
      rw [countFrom, List.countP_filter]
      split
      · subst_vars
        rw [List.countP_eq_zero]
        simp +contextual
      · refine List.countP_congr fun e _ => ?_
        simp only [Bool.and_eq_true, beq_iff_eq, bne_iff_ne]
        constructor
        · exact fun h => h.1
        · exact fun h => ⟨h, by rw [h.1]; assumption⟩
    dsimp only
    rw [hc, hc]
    split
    · exact ⟨Nat.zero_le _, fun h => absurd h (Nat.lt_irrefl 0)⟩
    · exact ports p

theorem TableLaw.congr {s u : State} (hw : u.waiting = s.waiting) (hp : u.params = s.params) (h : TableLaw s) : TableLaw u := by
  rw [tableLaw_iff] at h ⊢
  rwa [hw, hp]

theorem TableLaw.shortened {s : State} {fs : List Entry} (hf : Shortened s.waiting fs) (h : TableLaw s) :
    TableLaw { s with waiting := fs } := by
  induction hf with
  | refl => exact h
  | left e _ he ih => exact tableLaw_withoutEntry ih he
  | dropped p _ ih => exact tableLaw_dropped p ih

theorem TableLaw.relaxes {s u : State} (hr : Relaxes s u) (h : TableLaw s) : TableLaw u :=
  (h.shortened hr.waiting).congr (s := { s with waiting := u.waiting }) rfl hr.params

/-- Every entry of a port has one source or the other. -/
theorem length_entriesOf_eq (s : State) (p : Port) :
    (s.entriesOf p).length = countFrom s.waiting p .reserved + countFrom s.waiting p .sharedPool := by
  rw [State.entriesOf, ← List.countP_eq_length_filter]
  induction s.waiting with
  | nil => rfl
  | cons a es ih =>
    simp only [countFrom, List.countP_cons] at ih ⊢
    rw [ih]
    cases a.source <;> simp <;> omega

/-- R28: an entry is admitted RESERVED while its port has a reserved place left, and else from the shared pool. -/
theorem tableLaw_admitted {s : State} {e : Entry} (h : TableLaw s) (hs : s.admissionSource? e.port = some e.source)
    (hx : s.freeIndex? = some e.index) : TableLaw { s with waiting := s.waiting ++ [e] } := by
  obtain ⟨indexes, pool, ports⟩ := (tableLaw_iff s).1 h
  have distinct : (s.waiting ++ [e]).Pairwise fun a b => a.index ≠ b.index :=
    List.pairwise_append.2 ⟨indexes, List.pairwise_singleton _ _, fun a ha b hb => by
      rw [List.mem_singleton.1 hb]; exact freeIndex?_some s hx a ha⟩
  refine (tableLaw_iff _).2 ⟨distinct, ?_⟩
  simp only [countFrom_insert, countPool_insert, List.append_nil]
  have total := length_entriesOf_eq s e.port
  have own := ports e.port
  unfold State.admissionSource? at hs
  split at hs
  · rename_i room
    obtain hsrc : Source.reserved = e.source := by simpa using hs
    rw [← hsrc]
    refine ⟨pool, fun p => ?_⟩
    by_cases hp : e.port = p
    · subst hp
      simp only [true_and, reduceCtorEq, if_true, if_false]
      omega
    · simpa only [hp, false_and, if_false, Nat.add_zero] using ports p
  · rename_i full
    split at hs
    · rename_i room
      obtain hsrc : Source.sharedPool = e.source := by simpa using hs
      replace room : countPool s.waiting < s.params.sharedPool := by
        rwa [State.poolUse, ← List.countP_eq_length_filter] at room
      rw [← hsrc]
      refine ⟨by rw [if_pos rfl]; exact room, fun p => ?_⟩
      by_cases hp : e.port = p
      · subst hp
        simp only [true_and, reduceCtorEq, if_true, if_false]
        omega
      · simpa only [hp, false_and, if_false, Nat.add_zero] using ports p
    · cases hs

theorem grants_tableLaw : Grants TableLaw where
  relaxed _ _ := TableLaw.relaxes
  shared _ _ _ _ _ _ _ h := h.congr rfl rfl
  upgraded _ _ _ _ _ _ _ _ h := h.congr rfl rfl
  entryAcquired s e spans term he _ _ h := by
    obtain ⟨-, waiting, -, -, -, -, -, -, -, params, -⟩ := allocate_frame (s := entryLeaves e s) e.port term spans
    exact (h.relaxes (.entryLeaves he)).congr waiting params
  acquired s p term spans _ _ h := by
    obtain ⟨-, waiting, -, -, -, -, -, -, -, params, -⟩ := allocate_frame (s := s) p term spans
    exact h.congr waiting params
  acquireAdmitted _ _ _ _ _ hs hx _ _ h := tableLaw_admitted h hs hx
  upgradeAdmitted _ _ _ _ _ hs hx _ _ _ h := tableLaw_admitted h hs hx

theorem tableLaw_nil {s : State} (h : s.waiting = []) : TableLaw s := by
  rw [tableLaw_iff, h]
  exact ⟨.nil, Nat.zero_le _, fun p => ⟨Nat.zero_le _, fun h => absurd h (Nat.lt_irrefl 0)⟩⟩

theorem tableLaw_step {s t : State} (hr : OnlyInRun s) (h : TableLaw s) (he : step s = .next t) : TableLaw t :=
  grants_tableLaw.stepInRun (fun _ _ _ hw hp => TableLaw.congr hw hp) (fun _ _ _ _ _ hw _ _ _ => tableLaw_nil hw)
    (fun _ hb => tableLaw_nil hb.waiting) hr h he

/-- Settles O55: what a SET may change stands in SETUP, where nothing is held and nothing waits. -/
theorem stepKeepsQuotaAndTableLaws : Obligations.StepKeepsQuotaAndTableLaws := fun _ _ hr he =>
  ⟨kept_onlyInRun.step hr he, fun h => quotaLaw_step hr h he, fun h => tableLaw_step hr h he⟩

end Sys2Proof.Machine
end

section
/-!
PROOFS. Credits (R130): every move but an answer and an admission keeps what a port's queue and entries fill, or lowers it, and
those two need a credit.
-/

namespace Sys2Proof.Machine

/-- The places of a port's queue that its responses and its waiting entries fill (R129). -/
def State.load (s : State) (q : Port) : Nat := (s.port q).queue.length + (s.entriesOf q).length

/-- No port's load is higher in the second state. -/
def Lightens (s u : State) : Prop := ∀ q, u.load q ≤ s.load q

theorem Lightens.trans {s u v : State} (h : Lightens s u) (h' : Lightens u v) : Lightens s v :=
  fun q => Nat.le_trans (h' q) (h q)

theorem Lightens.creditLaw {s u : State} (hl : Lightens s u) (h : CreditLaw s) : CreditLaw u :=
  fun q => Nat.le_trans (hl q) (h q)

/-- The load is read of the ports and the waiting list alone. -/
theorem lightens_of_eq {s u : State} (hp : u.ports = s.ports) (hw : u.waiting = s.waiting) : Lightens s u := fun q => by
  simp only [State.load, State.port, State.entriesOf, hp, hw]
  exact Nat.le_refl _

/-- A port's queue does not become longer, and its entries stand. -/
theorem lightens_modifyPort (s : State) (p : Port) (f : HostPort → HostPort)
    (h : (f (s.port p)).queue.length ≤ (s.port p).queue.length) : Lightens s (s.modifyPort p f) := fun q => by
  simp only [State.load, State.entriesOf_modifyPort, State.port_modifyPort]
  split
  · subst_vars; exact Nat.add_le_add_right h _
  · exact Nat.le_refl _

theorem lightens_endEntry {s : State} {e : Entry} (r : Result) (b : Body) (he : e ∈ s.waiting) : Lightens s (endEntry e r b s) :=
  load_endEntry s e r b he

theorem lightens_endUpgrade (s : State) (i : Slot) (r : Result) : Lightens s (endUpgrade i r s) := by
  rcases endUpgrade_cases s i r with h | ⟨_, _, _, _, e, -, he, h⟩ <;> rw [h]
  · exact fun _ => Nat.le_refl _
  · exact lightens_endEntry _ _ (List.mem_of_find?_eq_some he)

theorem Curtails.lightens {i : Slot} {s u : State} (h : Curtails i s u) : Lightens s u := by
  cases h with
  | nothing => exact fun _ => Nat.le_refl _
  | told r t l n live tenure forward handle =>
    exact (lightens_endUpgrade s i r).trans (lightens_modifyPort ((endUpgrade i r s).setLease i l) t.port _ (Nat.le_refl _))

/-- A grant takes one place of its port's queue, and its entry gives one back. -/
theorem lightens_grantEntry {s : State} {e : Entry} (he : e ∈ s.waiting) : Lightens s (grantEntry e s) := by
  obtain ⟨r, hr⟩ := ports_grantEntry s e
  refine (lightens_endEntry .ok .empty he).trans fun q => ?_
  have entries : (grantEntry e s).waiting = (endEntry e .ok .empty s).waiting :=
    (waiting_grantEntry s e).trans (waiting_entryLeaves s e).symm
  have queue : ((grantEntry e s).port q).queue.length = ((endEntry e .ok .empty s).port q).queue.length := by
    rw [State.port, hr, endEntry_eq, State.port_modifyPort]
    rw [show (queueResponse e.port r s).ports[q] = (queueResponse e.port r s).port q from rfl, queueResponse,
      State.port_modifyPort]
    split <;> simp
  simp only [State.load, State.entriesOf, entries, queue]
  exact Nat.le_refl _

/-- Once a port's entries are dropped it has none. -/
theorem entriesOf_filter_ne (s : State) (p q : Port) :
    ({ s with waiting := s.waiting.filter fun e => e.port != p } : State).entriesOf q = if q = p then [] else s.entriesOf q := by
  simp only [State.entriesOf, List.filter_filter]
  split
  · subst_vars; simp
  · refine List.filter_congr fun e _ => ?_
    by_cases h : e.port = q <;> simp [h, ‹¬q = p›]

/-- The fence answers each of the port's entries in its place (R77). -/
theorem lightens_fencePort (s : State) (p : Port) : Lightens s (fencePort p s) := by
  have entries : Lightens s (fenceEntries p s) := fun q => by
    have waits : (fenceEntries p s).entriesOf q = _ := entriesOf_filter_ne s p q
    rw [State.load, State.load, waits, fenceEntries, port_dropEntriesOf, State.port_modifyPort]
    split
    · simp only [List.length_append, List.length_map, List.length_nil, ‹q = p›]
      exact Nat.le_refl _
    · exact Nat.le_refl _
  obtain ⟨u, hu, h⟩ := fencePort_induction (P := Lightens s) p
    (fun v i _ _ _ hv => hv.trans (curtails_revoke v i .fenced).lightens) s entries
  rw [h]
  exact hu.trans (lightens_modifyPort u p _ (Nat.le_refl _))

theorem lightens_tearDown (s : State) (p : Port) (st : PortState) : Lightens s (tearDown p st s) := fun q => by
  have waits : (tearDown p st s).entriesOf q = _ := entriesOf_filter_ne s p q
  rw [State.load, State.load, waits]
  by_cases h : q = p
  · subst h; simp
  · rw [port_tearDown_of_ne s p q st h, if_neg h]

/-- A port with a credit has a place left (R129). -/
theorem load_lt_of_credits {s : State} {p : Port} (h : 0 < s.credits p) : s.load p < Config.queuePlaces := by
  simp only [State.credits, State.load] at h ⊢
  omega

theorem ports_admitEntry (s : State) (e : Entry) : (admitEntry e s).ports = s.ports := by
  unfold admitEntry
  dsimp only
  split
  · rfl
  · split <;> rfl

theorem waiting_admitEntry (s : State) (e : Entry) : (admitEntry e s).waiting = s.waiting ++ [e] := by
  unfold admitEntry
  dsimp only
  split
  · rfl
  · split <;> rfl

/-- An entry is admitted to a port that has a credit. -/
theorem creditLaw_admitEntry {s : State} {e : Entry} (hc : 0 < s.credits e.port) (h : CreditLaw s) :
    CreditLaw (admitEntry e s) := by
  intro q
  have room := load_lt_of_credits hc
  have := h q
  simp only [State.load, State.port, State.entriesOf, ports_admitEntry, waiting_admitEntry, List.filter_append,
    List.length_append] at *
  by_cases hq : e.port = q
  · subst hq
    simp only [List.filter_cons, beq_self_eq_true, if_true, List.filter_nil, List.length_singleton]
    omega
  · simpa [hq] using this

theorem moves_creditLaw : Moves CreditLaw where
  counted _ _ _ _ _ _ h := h
  quiet s p f hf h := (lightens_modifyPort s p f (Nat.le_of_eq (congrArg _ (hf _).2.1))).creditLaw h
  pulled s p h := (lightens_modifyPort s p _ (by simp)).creditLaw h
  responded s p r hc _ h q := by
    have room := load_lt_of_credits hc
    have := h q
    simp only [State.load] at room
    simp only [queueResponse, State.entriesOf_modifyPort, State.port_modifyPort]
    split
    · subst_vars; simp only [List.length_append, List.length_singleton]; omega
    · exact this
  noticesTaken s p _ _ h := (lightens_modifyPort s p _ (Nat.le_refl _)).creditLaw h
  sessionOpened s p _ h := (lightens_modifyPort s p _ (Nat.le_refl _)).creditLaw h
  appeared s p _ h := (lightens_modifyPort s p _ (Nat.le_refl _)).creditLaw h
  ended _ _ r b he h := (lightens_endEntry r b he).creditLaw h
  recallBegun s i h := (curtails_beginRecall s i).lightens.creditLaw h
  revoked s i c h := (curtails_revoke s i c).lightens.creditLaw h
  fenced s p h := (lightens_fencePort s p).creditLaw h
  entryGranted _ _ he _ _ _ h := (lightens_grantEntry he).creditLaw h
  acquired _ p term spans _ _ _ _ h :=
    (lightens_of_eq (allocate_frame p term spans).1 (allocate_frame p term spans).2.1).creditLaw h
  upgradedNow s _ i _ _ _ _ _ _ _ h := (lightens_of_eq (ports_upgradeRecord s i) (waiting_upgradeRecord s i)).creditLaw h
  acquireAdmitted _ _ _ _ _ _ hc _ _ _ _ _ h := creditLaw_admitEntry hc h
  upgradeAdmitted _ _ _ _ _ _ _ _ hc _ _ _ _ _ _ h := creditLaw_admitEntry hc h
  shared _ _ _ _ _ _ _ h := h
  retimed _ _ _ _ _ _ _ _ _ h := h
  unwarned _ _ _ _ _ _ _ _ h := h
  warned s _ t _ _ _ _ h := (lightens_modifyPort s t.port _ (Nat.le_refl _)).creditLaw h

theorem creditLaw_blank {s : State} (h : Blank s) : CreditLaw s := fun p => by
  obtain ⟨-, queue, -⟩ := h.port p
  simp [queue, State.entriesOf, h.waiting]

theorem kept_creditLaw : Kept CreditLaw where
  toMoves := moves_creditLaw
  started _ _ h := h
  configured _ _ _ _ _ _ _ h := h
  tornDown s p st _ h := (lightens_tearDown s p st).creditLaw h
  released s p i _ r _ _ h :=
    ((lightens_endUpgrade s i r).trans (lightens_modifyPort (freeRecord i (endUpgrade i r s)) p _ (Nat.le_refl _))).creditLaw h
  acked s p i _ _ _ _ _ h := (lightens_modifyPort (freeRecord i s) p _ (Nat.le_refl _)).creditLaw h
  written _ _ _ _ _ _ _ _ _ _ _ _ _ h := h
  poweredOn s _ := creditLaw_blank (blank_powerOnAct s)
  resetTaken s _ := creditLaw_blank (blank_resetAssertedAct s)
  resetReleased s _ := creditLaw_blank (blank_resetDeassertedAct s)
  cleared _ _ h := h

/-- Settles O50: what is answered or admitted has a credit, and what ends gives its place to its answer. -/
theorem stepKeepsCreditLaw : Obligations.StepKeepsCreditLaw := fun _ _ => kept_creditLaw.step

end Sys2Proof.Machine
end

section
/-!
PROOFS. The fence (R77, R78): the revocation of a port's leases one by one, said once for any list of slots.
-/

namespace Sys2Proof.Machine

/-- The slots of a list whose records are live leases of a port. -/
def State.liveOf (s : State) (p : Port) (is : List Slot) : List Slot :=
  is.filter fun i => (s.lease i).live?.map (·.port) == some p

/-- The notice of a slot's lease that the fence revokes. -/
def State.fenceNotice? (s : State) (i : Slot) : Option Notice :=
  (s.lease i).live?.map fun l => { handle := s.handleOf i, kind := .revoked .fenced, span := l.span, tick := s.tick }

/-- A record's state once the fence has taken it: a tombstone, where it was a live lease. -/
def State.fencedLease (s : State) (i : Slot) : LeaseState :=
  match (s.lease i).live? with
  | some l => .revoked l .fenced s.tick
  | none => s.lease i

/-- A port's leases among some slots revoked, and nothing else done. -/
structure FencedSlots (p : Port) (is : List Slot) (s u : State) : Prop where
  others : ∀ q, q ≠ p → u.port q = s.port q
  own : u.port p = { s.port p with
    notices := (s.port p).notices.filter (fun n => !(s.liveOf p is).contains n.handle.slot) ++
      (s.liveOf p is).filterMap s.fenceNotice? }
  taken : ∀ i ∈ s.liveOf p is, u.lease i = s.fencedLease i
  left : ∀ i, i ∉ s.liveOf p is → u.lease i = s.lease i
  generation : ∀ i, (u.record i).generation = (s.record i).generation
  waiting : u.waiting = s.waiting
  counter : u.grantCounter = s.grantCounter
  device : SameDevice s u

theorem SameDevice.refl (s : State) : SameDevice s s := ⟨rfl, rfl, rfl, rfl, rfl, rfl, rfl, rfl, rfl, rfl⟩

theorem SameDevice.trans {s u v : State} (h : SameDevice s u) (h' : SameDevice u v) : SameDevice s v := by
  obtain ⟨h1, h2, h3, h4, h5, h6, h7, h8, h9, h10⟩ := h
  obtain ⟨k1, k2, k3, k4, k5, k6, k7, k8, k9, k10⟩ := h'
  exact ⟨k1.trans h1, k2.trans h2, k3.trans h3, k4.trans h4, k5.trans h5, k6.trans h6, k7.trans h7, k8.trans h8,
    k9.trans h9, k10.trans h10⟩

theorem State.liveOf_append (s : State) (p : Port) (is js : List Slot) :
    s.liveOf p (is ++ js) = s.liveOf p is ++ s.liveOf p js := List.filter_append ..

/-- The revocation of one of a fenced port's leases, none of which has a pending upgrade. -/
theorem fencedSlots_one (p : Port) (i : Slot) (s : State)
    (hu : ∀ t d w v, s.lease i = .granted t d w v → t.port = p → v = none) : FencedSlots p [i] s (fenceLease p s i) := by
  by_cases h : (s.lease i).live?.map (·.port) = some p
  · obtain ⟨l, hl, rfl⟩ := Option.map_eq_some_iff.1 h
    have hlive : s.liveOf l.port [i] = [i] := by simp [State.liveOf, hl]
    rw [fenceLease, if_pos h, revoke_live s i .fenced hl fun d w v e => hu l d w v e rfl]
    refine ⟨fun q hq => State.port_modifyPort_of_ne _ l.port q _ hq, ?_, fun j hj => ?_, fun j hj => ?_,
      fun j => s.generation_setLease i j _, rfl, rfl, .refl s⟩
    · rw [hlive, addNotice, State.port_modifyPort_self]
      simp [Notice.names, State.fenceNotice?, hl]
      rfl
    · rw [hlive, List.mem_singleton] at hj
      rw [hj, State.fencedLease, hl]
      exact s.lease_setLease_self i _
    · rw [hlive, List.mem_singleton] at hj
      exact s.lease_setLease_of_ne i j _ hj
  · have hlive : s.liveOf p [i] = [] := by simp [State.liveOf, h]
    rw [fenceLease, if_neg h]
    exact ⟨fun _ _ => rfl, by simp [hlive], by simp [hlive], fun _ _ => rfl, fun _ => rfl, rfl, rfl, .refl s⟩

/-- The revocation of some leases after that of others. -/
theorem FencedSlots.append {p : Port} {is js : List Slot} {s u v : State} (h : FencedSlots p is s u)
    (h' : FencedSlots p js u v) (hd : ∀ j ∈ js, j ∉ is) : FencedSlots p (is ++ js) s v := by
  have same : ∀ j ∈ js, u.lease j = s.lease j := fun j hj =>
    h.left j fun hm => hd j hj (List.mem_filter.1 hm).1
  have live : u.liveOf p js = s.liveOf p js := List.filter_congr fun j hj => by rw [same j hj]
  obtain ⟨-, tick, -⟩ := h.device
  have notices : (s.liveOf p js).filterMap u.fenceNotice? = (s.liveOf p js).filterMap s.fenceNotice? :=
    List.filterMap_congr fun j hj => by
      rw [State.fenceNotice?, State.fenceNotice?, same j (List.mem_filter.1 hj).1, State.handleOf, State.handleOf,
        h.generation, tick]
  have fresh : ∀ n ∈ (s.liveOf p is).filterMap s.fenceNotice?, n.handle.slot ∉ s.liveOf p js := fun n hn hm => by
    obtain ⟨i, hi, hni⟩ := List.mem_filterMap.1 hn
    obtain ⟨l, -, rfl⟩ := Option.map_eq_some_iff.1 hni
    exact hd i (List.mem_filter.1 hm).1 (List.mem_filter.1 hi).1
  refine ⟨fun q hq => (h'.others q hq).trans (h.others q hq), ?_, fun i hi => ?_, fun i hi => ?_,
    fun i => (h'.generation i).trans (h.generation i),
    h'.waiting.trans h.waiting, h'.counter.trans h.counter, h.device.trans h'.device⟩
  · rw [h'.own, live, notices, h.own, State.liveOf_append]
    have kept : ((s.liveOf p is).filterMap s.fenceNotice?).filter (fun n => !(s.liveOf p js).contains n.handle.slot) =
        (s.liveOf p is).filterMap s.fenceNotice? := by
      rw [List.filter_eq_self]
      exact fun n hn => by simpa using fresh n hn
    simp only [List.filter_append, kept, List.filter_filter, List.filterMap_append, List.append_assoc,
      List.contains_append, Bool.not_or, Bool.and_comm]
  · rw [State.liveOf_append, List.mem_append] at hi
    by_cases hj : i ∈ s.liveOf p js
    · rw [h'.taken i (live ▸ hj), State.fencedLease, State.fencedLease, same i (List.mem_filter.1 hj).1, tick]
    · rw [h'.left i (live ▸ hj), h.taken i (hi.resolve_right hj)]
  · rw [State.liveOf_append, List.mem_append, not_or] at hi
    rw [h'.left i (live ▸ hi.2), h.left i hi.1]

theorem sameDevice_modifyPort (s : State) (p : Port) (f : HostPort → HostPort) : SameDevice s (s.modifyPort p f) :=
  ⟨rfl, rfl, rfl, rfl, rfl, rfl, rfl, rfl, rfl, rfl⟩

/-- The fence takes the leases of a port that has no pending upgrade left, slot by slot. -/
theorem fencedSlots_foldl (p : Port) (is : List Slot) (hn : is.Nodup) (s : State)
    (hu : ∀ i t d w v, s.lease i = .granted t d w v → t.port = p → v = none) :
    FencedSlots p is s (is.foldl (fenceLease p) s) := by
  induction is generalizing s with
  | nil => exact ⟨fun _ _ => rfl, by simp [State.liveOf], by simp [State.liveOf], fun _ _ => rfl, fun _ => rfl, rfl, rfl, .refl s⟩
  | cons i is ih =>
    obtain ⟨hi, hn⟩ := List.nodup_cons.1 hn
    have one := fencedSlots_one p i s (hu i)
    refine one.append (ih hn _ fun j t d w v h => ?_) fun j hj e => hi (List.mem_singleton.1 e ▸ hj)
    by_cases hj : j ∈ s.liveOf p [i]
    · rw [one.taken j hj, State.fencedLease] at h
      split at h
      · cases h
      · exact hu j t d w v h
    · exact hu j t d w v (one.left j hj ▸ h)

/-- Once a port's entries are dropped none of its leases has a pending upgrade. -/
theorem fenceEntries_granted {p : Port} {s : State} {i : Slot} {t : Tenure} {d : Tick} {w : Option Tick} {v : Option Tag}
    (h : (fenceEntries p s).lease i = .granted t d w v) (hp : t.port = p) : v = none := by
  rw [fenceEntries, lease_dropEntriesOf, State.lease_modifyPort, State.holder?_modifyPort] at h
  split at h
  · cases hl : s.lease i <;> simp [hl, LeaseState.withoutUpgrade] at h
    exact h.2.2.2.symm
  · rename_i hh
    simp [State.holder?, h, LeaseState.holder?, LeaseState.tenure?, hp] at hh

theorem live?_fenceEntries (p : Port) (s : State) (i : Slot) : ((fenceEntries p s).lease i).live? = (s.lease i).live? := by
  rw [fenceEntries, lease_dropEntriesOf]
  split <;> simp

/-- A record that is not one of the port's live leases has no pending upgrade to lose. -/
theorem lease_fenceEntries {p : Port} {s : State} {i : Slot} (h : (s.lease i).live?.map (·.port) ≠ some p) :
    (fenceEntries p s).lease i = s.lease i := by
  rw [fenceEntries, lease_dropEntriesOf, State.lease_modifyPort, State.holder?_modifyPort]
  split
  · rename_i hh
    cases hl : s.lease i <;> simp_all [LeaseState.withoutUpgrade, State.holder?, LeaseState.holder?, LeaseState.tenure?, LeaseState.live?]
  · rfl

/-- The fence, but for FENCE#: the leases it takes are those of the state before it. -/
theorem fencedSlots_fencePort (p : Port) (s : State) :
    FencedSlots p allSlots (fenceEntries p s) (allSlots.foldl (fenceLease p) (fenceEntries p s)) :=
  fencedSlots_foldl p allSlots (List.nodup_finRange 64) _ fun _ _ _ _ _ => fenceEntries_granted

theorem liveOf_fenceEntries (p : Port) (s : State) (is : List Slot) : (fenceEntries p s).liveOf p is = s.liveOf p is := by
  simp only [State.liveOf, live?_fenceEntries]

theorem fenceNotice?_fenceEntries (p : Port) (s : State) (i : Slot) : (fenceEntries p s).fenceNotice? i = s.fenceNotice? i := by
  have handle : (fenceEntries p s).handleOf i = s.handleOf i := by
    rw [State.handleOf, fenceEntries, generation_dropEntriesOf]; rfl
  rw [State.fenceNotice?, State.fenceNotice?, live?_fenceEntries, handle]
  rfl

/-- The fenced port: its answers behind what it held, its notices in place of those of the leases taken (R77). -/
theorem port_fencePort_self (p : Port) (s : State) : (fencePort p s).port p =
    { s.port p with
      state := .fenced
      fenceLine := true
      queue := (s.port p).queue ++ (s.entriesOf p).map fun e => responseTo (kindCode e.claim.kind) e.tag .fenced .empty
      notices := (s.port p).notices.filter (fun n => !(s.liveOf p allSlots).contains n.handle.slot) ++
        (s.liveOf p allSlots).filterMap s.fenceNotice? } := by
  have own := (fencedSlots_fencePort p s).own
  simp only [liveOf_fenceEntries, funext (fenceNotice?_fenceEntries p s)] at own
  rw [fencePort_eq, State.port_modifyPort_self, own, fenceEntries, port_dropEntriesOf, State.port_modifyPort_self]

theorem port_fencePort_of_ne {p q : Port} (s : State) (h : q ≠ p) : (fencePort p s).port q = s.port q := by
  rw [fencePort_eq, State.port_modifyPort_of_ne _ p q _ h, (fencedSlots_fencePort p s).others q h, fenceEntries,
    port_dropEntriesOf, State.port_modifyPort_of_ne _ p q _ h]

theorem mem_liveOf (s : State) (p : Port) (i : Slot) :
    i ∈ s.liveOf p allSlots ↔ (s.lease i).live?.map (·.port) = some p := by
  simp [State.liveOf, allSlots]

/-- Each live lease of the fenced port is a tombstone (R77). -/
theorem lease_fencePort_taken {p : Port} {s : State} {i : Slot} {l : Tenure} (hl : (s.lease i).live? = some l)
    (hp : l.port = p) : (fencePort p s).lease i = .revoked l .fenced s.tick := by
  have mem : i ∈ (fenceEntries p s).liveOf p allSlots := by
    rw [liveOf_fenceEntries, mem_liveOf, hl]; exact congrArg some hp
  rw [fencePort_eq, State.lease_modifyPort, (fencedSlots_fencePort p s).taken i mem, State.fencedLease, live?_fenceEntries, hl]
  rfl

/-- Every other record stands (R78). -/
theorem lease_fencePort_left {p : Port} {s : State} {i : Slot} (h : i ∉ s.liveOf p allSlots) :
    (fencePort p s).lease i = s.lease i := by
  rw [fencePort_eq, State.lease_modifyPort, (fencedSlots_fencePort p s).left i (by rwa [liveOf_fenceEntries]),
    lease_fenceEntries fun e => h ((mem_liveOf s p i).2 e)]

theorem generation_fencePort (p : Port) (s : State) (i : Slot) :
    ((fencePort p s).record i).generation = (s.record i).generation := by
  rw [fencePort_eq, State.record_modifyPort, (fencedSlots_fencePort p s).generation, fenceEntries, generation_dropEntriesOf]
  rfl

theorem waiting_fencePort (p : Port) (s : State) : (fencePort p s).waiting = s.waiting.filter fun e => e.port != p := by
  rw [fencePort_eq, State.modifyPort_waiting, (fencedSlots_fencePort p s).waiting]
  rfl

theorem device_fencePort (p : Port) (s : State) :
    (fencePort p s).grantCounter = s.grantCounter ∧ SameDevice s (fencePort p s) := by
  have slots := fencedSlots_fencePort p s
  have entries : SameDevice s (fenceEntries p s) := ⟨rfl, rfl, rfl, rfl, rfl, rfl, rfl, rfl, rfl, rfl⟩
  rw [fencePort_eq]
  exact ⟨by rw [State.modifyPort_grantCounter, slots.counter]; rfl,
    (entries.trans slots.device).trans (sameDevice_modifyPort _ p _)⟩

/-- Settles O7, from what the fence does to the port, to the other ports and to each record. -/
theorem fenceTakesEveryLease : Obligations.FenceTakesEveryLease := by
  intro p s
  have port := port_fencePort_self p s
  exact ⟨by rw [port], by rw [port], by rw [port], by rw [port], congrArg HostPort.notices port, waiting_fencePort p s,
    fun i l hl hp => lease_fencePort_taken hl hp, fun i hi => lease_fencePort_left hi, generation_fencePort p s,
    fun q hq => port_fencePort_of_ne s hq, device_fencePort p s⟩

end Sys2Proof.Machine
end

section
/-!
PROOFS. What entries' ends, recalls, revocations and grants do to the ports, the frame of the grant scan (R35, R40), and the laws
of the ports (R112, R121) and of their notices (R136).
-/

namespace Sys2Proof.Machine

/-! ### Responses and notices join; nothing else of a port changes -/

theorem OnlyCollects.refl (h : HostPort) : OnlyCollects h h :=
  ⟨rfl, rfl, rfl, rfl, rfl, rfl, rfl, List.prefix_rfl⟩

theorem OnlyCollects.trans {h k l : HostPort} (hk : OnlyCollects h k) (kl : OnlyCollects k l) : OnlyCollects h l := by
  obtain ⟨h1, h2, h3, h4, h5, h6, h7, h8⟩ := hk
  obtain ⟨k1, k2, k3, k4, k5, k6, k7, k8⟩ := kl
  exact ⟨k1.trans h1, k2.trans h2, k3.trans h3, k4.trans h4, k5.trans h5, k6.trans h6, k7.trans h7, h8.trans k8⟩

/-- Each port only collects responses and notices from the first state to the second. -/
def Collects (s u : State) : Prop := ∀ p, OnlyCollects (s.port p) (u.port p)

theorem Collects.refl (s : State) : Collects s s := fun _ => .refl _

theorem Collects.trans {s u v : State} (h : Collects s u) (h' : Collects u v) : Collects s v := fun p => (h p).trans (h' p)

theorem collects_modifyPort (s : State) (p : Port) (f : HostPort → HostPort) (h : OnlyCollects (s.port p) (f (s.port p))) :
    Collects s (s.modifyPort p f) := fun q => by
  rw [State.port_modifyPort]
  split
  · subst_vars; exact h
  · exact .refl _

theorem collects_of_ports {s u : State} (h : u.ports = s.ports) : Collects s u := fun p => by
  rw [State.port, State.port, h]; exact .refl _

theorem collects_queueResponse (s : State) (p : Port) (r : Response) : Collects s (queueResponse p r s) :=
  collects_modifyPort s p _ ⟨rfl, rfl, rfl, rfl, rfl, rfl, rfl, List.prefix_append _ _⟩

theorem collects_addNotice (s : State) (p : Port) (n : Notice) : Collects s (addNotice p n s) :=
  collects_modifyPort s p _ ⟨rfl, rfl, rfl, rfl, rfl, rfl, rfl, List.prefix_rfl⟩

theorem collects_endEntry (s : State) (e : Entry) (r : Result) (b : Body) : Collects s (endEntry e r b s) :=
  (collects_of_ports (ports_entryLeaves s e)).trans (collects_queueResponse (entryLeaves e s) e.port _)

theorem collects_endUpgrade (s : State) (i : Slot) (r : Result) : Collects s (endUpgrade i r s) := by
  rcases endUpgrade_cases s i r with h | ⟨_, _, _, _, e, -, -, h⟩ <;> rw [h]
  · exact .refl s
  · exact collects_endEntry s e r .empty

theorem Curtails.collects {i : Slot} {s u : State} (h : Curtails i s u) : Collects s u := by
  cases h with
  | nothing => exact .refl s
  | told r t l n live tenure forward handle =>
    exact (collects_endUpgrade s i r).trans (collects_addNotice ((endUpgrade i r s).setLease i l) t.port n)

theorem collects_grantEntry (s : State) (e : Entry) : Collects s (grantEntry e s) := by
  obtain ⟨r, hr⟩ := ports_grantEntry s e
  exact (collects_queueResponse s e.port r).trans (collects_of_ports hr)

theorem collects_grantScan (s : State) : Collects s (grantScan s) :=
  grantScan_induction (P := Collects s) (fun u i h => h.trans (curtails_beginRecall u i).collects)
    (fun u e h _ _ _ _ => h.trans (collects_grantEntry u e)) s (.refl s)

/-! ### A port that holds nothing -/

/-- A port that holds no lease record and no waiting entry, and is as given. -/
structure Bare (h : HostPort) (p : Port) (s : State) : Prop where
  port : s.port p = h
  holds : ∀ i, s.holder? i ≠ some p
  waits : ∀ e ∈ s.waiting, e.port ≠ p

namespace Bare

variable {h : HostPort} {p : Port} {s u : State}

/-- What grants nothing gives a bare port no record and no entry. -/
theorem relaxes (hb : Bare h p s) (hr : Relaxes s u) (hp : u.port p = s.port p) : Bare h p u where
  port := hp.trans hb.port
  holds i := fun hi => by
    simp only [State.holder?, LeaseState.holder?, Option.map_eq_some_iff] at hi
    obtain ⟨t, ht, hp⟩ := hi
    exact hb.holds i (by simp [State.holder?, LeaseState.holder?, hr.tenure i t ht, hp])
  waits f hf := by
    obtain ⟨e, he, hk⟩ := hr.waiting.mem hf
    simp only [Entry.key, Prod.mk.injEq] at hk
    rw [← hk.2.1]
    exact hb.waits e he

theorem ne_of_live (hb : Bare h p s) {i : Slot} {t : Tenure} (hl : (s.lease i).live? = some t) : p ≠ t.port := fun e =>
  hb.holds i (by simp [State.holder?, LeaseState.holder?, LeaseState.tenure?_of_live? hl, e])

theorem endEntry (hb : Bare h p s) {e : Entry} (he : e ∈ s.waiting) (r : Result) (b : Body) : Bare h p (endEntry e r b s) := by
  refine hb.relaxes (.endEntry he r b) ?_
  rw [endEntry_eq, State.port_modifyPort_of_ne _ _ _ _ (hb.waits e he).symm, port_entryLeaves]

theorem endUpgrade (hb : Bare h p s) (i : Slot) (r : Result) : Bare h p (endUpgrade i r s) := by
  rcases endUpgrade_cases s i r with hu | ⟨_, _, _, _, e, -, he, hu⟩ <;> rw [hu]
  · exact hb
  · exact hb.endEntry (List.mem_of_find?_eq_some he) r .empty

theorem curtails (hb : Bare h p s) {i : Slot} (hc : Curtails i s u) : Bare h p u := by
  refine hb.relaxes (.curtails hc) ?_
  cases hc with
  | nothing => rfl
  | told r t l n live tenure forward handle =>
    rw [addNotice, State.port_modifyPort_of_ne _ _ _ _ (hb.ne_of_live live), State.port_setLease]
    exact ((hb.endUpgrade i r).port.trans hb.port.symm)

/-- A grant to another port. -/
theorem grantEntry (hb : Bare h p s) {e : Entry} (he : e ∈ s.waiting) : Bare h p (grantEntry e s) := by
  have other := hb.waits e he
  have left : Bare h p (entryLeaves e s) := hb.relaxes (.entryLeaves he) (port_entryLeaves s p e)
  obtain ⟨v, r, hv, hg⟩ := grantEntry_cases (P := Bare h p) e s
    (fun spans term _ _ => by
      obtain ⟨_, hw⟩ := allocate_walk (Q := fun _ => Bare h p) e.port term (fun w i m _ _ hw =>
        ⟨hw.port, fun j hj => by
          rw [State.holder?, lease_allocateIn] at hj
          split at hj
          · exact other (Option.some.inj hj)
          · exact hw.holds j hj, hw.waits⟩) spans _ left
      exact hw)
    (fun g _ _ _ => ⟨by rw [State.port, ports_upgradeRecord]; exact left.port,
      fun j hj => left.holds j (holder?_upgradeRecord _ g.slot j ▸ hj),
      by rw [waiting_upgradeRecord]; exact left.waits⟩) left
  rw [hg]
  exact hv.relaxes (.modifyPort v e.port _) (State.port_modifyPort_of_ne v e.port p _ other.symm)

/-- The grant scan gives a bare port nothing (R40). -/
theorem grantScan (hb : Bare h p s) : Bare h p (grantScan s) :=
  grantScan_induction (P := Bare h p) (fun u i hu => hu.curtails (curtails_beginRecall u i))
    (fun _ _ hu he _ _ _ => hu.grantEntry he) s hb

theorem entriesOf (hb : Bare h p s) : s.entriesOf p = [] := by
  simpa [State.entriesOf, List.filter_eq_nil_iff] using hb.waits

end Bare

/-! ### FENCE# (R112) -/

theorem FenceLaw.collects {s u : State} (hc : Collects s u) (h : FenceLaw s) : FenceLaw u := fun p => by
  obtain ⟨-, state, -, -, line, -⟩ := hc p
  rw [state, line]
  exact h p

/-- A change of one port after which FENCE# is asserted exactly where the port is FENCED. -/
theorem FenceLaw.modifyPort {s : State} (h : FenceLaw s) (p : Port) (f : HostPort → HostPort)
    (hf : (f (s.port p)).fenceLine = true ↔ (f (s.port p)).state = .fenced) : FenceLaw (s.modifyPort p f) := fun q => by
  rw [State.port_modifyPort]
  split
  · subst_vars; exact hf
  · exact h q

theorem moves_fenceLaw : Moves FenceLaw where
  counted _ _ _ _ _ _ h := h
  quiet s p f hf h := h.modifyPort p f (by obtain ⟨state, -, -, line⟩ := hf (s.port p); rw [state, line]; exact h p)
  pulled s p h := h.modifyPort p _ (h p)
  responded s p r _ _ h := h.collects (collects_queueResponse s p r)
  noticesTaken s p _ _ h := h.modifyPort p _ (h p)
  sessionOpened s p hd h := h.modifyPort p _ (by simpa [hd] using h p)
  appeared s p ha h := h.modifyPort p _ (by simpa [ha] using h p)
  ended s e r b _ h := h.collects (collects_endEntry s e r b)
  recallBegun s i h := h.collects (curtails_beginRecall s i).collects
  revoked s i c h := h.collects (curtails_revoke s i c).collects
  fenced s p h q := by
    by_cases hq : q = p
    · subst hq; rw [port_fencePort_self]; simp
    · rw [port_fencePort_of_ne s hq]; exact h q
  entryGranted s e _ _ _ _ h := h.collects (collects_grantEntry s e)
  acquired _ p term spans _ _ _ _ h := h.collects (collects_of_ports (allocate_frame p term spans).1)
  upgradedNow s _ i _ _ _ _ _ _ _ h := h.collects (collects_of_ports (ports_upgradeRecord s i))
  acquireAdmitted s e _ _ _ _ _ _ _ _ _ _ h := h.collects (collects_of_ports (ports_admitEntry s e))
  upgradeAdmitted s e _ _ _ _ _ _ _ _ _ _ _ _ _ h := h.collects (collects_of_ports (ports_admitEntry s e))
  shared _ _ _ _ _ _ _ h := h
  retimed _ _ _ _ _ _ _ _ _ h := h
  unwarned _ _ _ _ _ _ _ _ h := h
  warned s _ t _ _ _ _ h := h.collects (collects_addNotice s t.port _)

theorem fenceLaw_blank {s : State} (h : Blank s) : FenceLaw s := fun p => by
  obtain ⟨state, -, -, line⟩ := h.port p
  rw [state, line]
  unfold stateByPresent
  split <;> simp

theorem kept_fenceLaw : Kept FenceLaw where
  toMoves := moves_fenceLaw
  started _ _ h := h
  configured _ _ _ _ _ _ _ h := h
  tornDown s p st hst h q := by
    by_cases hq : q = p
    · subst hq; rw [port_tearDown_self]; rcases hst with rfl | rfl <;> simp
    · rw [port_tearDown_of_ne s p q st hq]; exact h q
  released s p i _ r _ _ h := FenceLaw.modifyPort (s := freeRecord i (endUpgrade i r s))
    (h.collects (collects_endUpgrade s i r)) p _ (h.collects (collects_endUpgrade s i r) p)
  acked s p i _ _ _ _ _ h := FenceLaw.modifyPort (s := freeRecord i s) h p _ (h p)
  written _ _ _ _ _ _ _ _ _ _ _ _ _ h := h
  poweredOn s _ := fenceLaw_blank (blank_powerOnAct s)
  resetTaken s _ := fenceLaw_blank (blank_resetAssertedAct s)
  resetReleased s _ := fenceLaw_blank (blank_resetDeassertedAct s)
  cleared _ _ h := h

/-! ### What an ABSENT or DETACHED port may hold (R121) -/

/-- A port that is ABSENT or DETACHED. -/
def HostPort.Away (h : HostPort) : Prop := h.state = .absent ∨ h.state = .detached

/-- The second port is away only where the first is, and where the first has no notice, or is ABSENT with no response, neither
has the second. -/
structure Emptier (h k : HostPort) : Prop where
  away : k.Away → h.Away ∧ (h.notices = [] → k.notices = [])
  absent : k.state = .absent → h.state = .absent ∧ (h.queue = [] → k.queue = [])

theorem Emptier.refl (h : HostPort) : Emptier h h := ⟨fun a => ⟨a, id⟩, fun a => ⟨a, id⟩⟩

/-- A change that keeps a port's state and takes at most notices and responses from it. -/
theorem Emptier.of_state {h k : HostPort} (hs : k.state = h.state) (hn : h.notices = [] → k.notices = [])
    (hq : k.state = .absent → h.queue = [] → k.queue = []) : Emptier h k :=
  ⟨fun a => ⟨by rwa [HostPort.Away, hs] at a, hn⟩, fun a => ⟨hs ▸ a, hq a⟩⟩

/-- Nothing is asked of a port that is not away. -/
theorem Emptier.of_not_away {h k : HostPort} (ha : k.state ≠ .absent) (hd : k.state ≠ .detached) : Emptier h k :=
  ⟨fun a => (a.elim ha hd).elim, fun a => absurd a ha⟩

namespace PortLaw

variable {s u : State}

/-- A port away is bare. -/
theorem bare (h : PortLaw s) {p : Port} (hp : (s.port p).Away) : Bare (s.port p) p s :=
  have ⟨holds, waits, _⟩ := (h p).1 hp
  ⟨rfl, holds, waits⟩

/-- Ports that keep their states, where those away stay bare as they are. -/
theorem keeps (h : PortLaw s) (state : ∀ p, (u.port p).state = (s.port p).state)
    (stay : ∀ p, (s.port p).Away → Bare (s.port p) p s → Bare (s.port p) p u) : PortLaw u := fun p => by
  refine ⟨fun hp => ?_, fun hp => ?_⟩
  · rw [state] at hp
    obtain ⟨port, holds, waits⟩ := stay p hp (h.bare hp)
    exact ⟨holds, waits, port ▸ ((h p).1 hp).2.2⟩
  · rw [state] at hp
    rw [(stay p (.inl hp) (h.bare (.inl hp))).port]
    exact (h p).2 hp

theorem relaxes (h : PortLaw s) (hr : Relaxes s u) (hp : ∀ p, Emptier (s.port p) (u.port p)) : PortLaw u := fun p => by
  refine ⟨fun ha => ?_, fun ha => ?_⟩
  · obtain ⟨away, notices⟩ := (hp p).away ha
    have bare := (h.bare away).relaxes (u := { u with ports := s.ports }) ⟨hr.array, hr.stamps, hr.phase, hr.params,
      hr.counter, hr.tenure, hr.live, hr.waiting⟩ rfl
    exact ⟨bare.holds, bare.waits, notices ((h p).1 away).2.2⟩
  · obtain ⟨absent, queue⟩ := (hp p).absent ha
    exact queue ((h p).2 absent)

theorem modifyPort (h : PortLaw s) (p : Port) (f : HostPort → HostPort) (hf : Emptier (s.port p) (f (s.port p))) :
    PortLaw (s.modifyPort p f) :=
  h.relaxes (.modifyPort s p f) fun q => by
    rw [State.port_modifyPort]
    split
    · subst_vars; exact hf
    · exact .refl _

/-- What only adds responses and notices, and none to a bare port. -/
theorem collects (h : PortLaw s) (hc : Collects s u) (stay : ∀ p k, Bare k p s → Bare k p u) : PortLaw u :=
  h.keeps (fun p => (hc p).2.1) fun p _ hb => stay p _ hb

end PortLaw

/-- An entry admitted to a JOINED port, or records allocated to it, are none of a port's that is away. -/
theorem portLaw_admitEntry {s : State} {e : Entry} (hj : (s.port e.port).state = .joined) (h : PortLaw s) :
    PortLaw (admitEntry e s) := by
  have port : ∀ p, (admitEntry e s).port p = s.port p := fun p => by rw [State.port, ports_admitEntry]; rfl
  have holder : ∀ i, (admitEntry e s).holder? i = s.holder? i := by
    intro i
    unfold admitEntry
    dsimp only
    split
    · rfl
    · split
      · rename_i g _ _ t d w _ hl
        rw [State.holder?, State.lease_setLease]
        split
        · subst_vars; exact (congrArg LeaseState.holder? hl).symm
        · rfl
      · rfl
  refine h.keeps (fun p => by rw [port]) fun p ha hb => ⟨port p, fun i => by rw [holder]; exact hb.holds i, ?_⟩
  rw [waiting_admitEntry]
  refine List.forall_mem_append.2 ⟨hb.waits, List.forall_mem_singleton.2 fun hp => ?_⟩
  subst hp
  rcases ha with ha | ha <;> rw [hj] at ha <;> cases ha

theorem portLaw_allocate {s : State} {p : Port} {term : Nat} {spans : List ModeSpan} (hj : (s.port p).state = .joined)
    (h : PortLaw s) : PortLaw (allocate p term spans s).1 := by
  refine h.keeps (fun q => congrArg (fun v => (v[q] : HostPort).state) (allocate_frame p term spans).1) fun q ha hb => ?_
  obtain ⟨_, hw⟩ := allocate_walk (Q := fun _ => Bare (s.port q) q) p term (fun w i m _ _ hw =>
    ⟨hw.port, fun j hj' => by
      rw [State.holder?, lease_allocateIn] at hj'
      split at hj'
      · obtain rfl : p = q := Option.some.inj hj'
        rcases ha with ha | ha <;> rw [hj] at ha <;> cases ha
      · exact hw.holds j hj', hw.waits⟩) spans s hb
  exact hw

theorem moves_portLaw : Moves PortLaw where
  counted _ _ _ _ _ _ h := h
  quiet s p f hf h := by
    obtain ⟨state, queue, notices, -⟩ := hf (s.port p)
    exact h.modifyPort p f (.of_state state (notices ▸ id) fun _ => queue ▸ id)
  pulled s p h := h.modifyPort p _ (.of_state rfl id fun _ e => by rw [e]; rfl)
  responded s p r _ ha h := h.modifyPort p _ (.of_state rfl id fun e => absurd e ha)
  noticesTaken s p g hg h := h.modifyPort p _ (.of_state rfl (fun e => by
    have := hg (s.port p).notices
    rw [e] at this ⊢
    exact List.sublist_nil.1 this) fun _ => id)
  sessionOpened s p _ h := h.modifyPort p _ (.of_not_away (by simp) (by simp))
  appeared s p ha h := h.modifyPort p _ ⟨fun _ => ⟨.inl ha, id⟩, fun a => by cases a⟩
  ended s e r b he h := h.collects (collects_endEntry s e r b) fun _ _ hb => hb.endEntry he r b
  recallBegun s i h := h.collects (curtails_beginRecall s i).collects fun _ _ hb => hb.curtails (curtails_beginRecall s i)
  revoked s i c h := h.collects (curtails_revoke s i c).collects fun _ _ hb => hb.curtails (curtails_revoke s i c)
  fenced s p h := h.relaxes (.fencePort s p) fun q => by
    by_cases hq : q = p
    · subst hq
      rw [port_fencePort_self]
      exact .of_not_away (by simp) (by simp)
    · rw [port_fencePort_of_ne s hq]; exact .refl _
  entryGranted s e he _ _ _ h := h.collects (collects_grantEntry s e) fun _ _ hb => hb.grantEntry he
  acquired _ _ _ _ _ hj _ _ h := portLaw_allocate hj h
  upgradedNow s _ i _ _ _ _ _ _ _ h := h.keeps (fun p => by rw [State.port, ports_upgradeRecord]; rfl) fun p _ hb =>
    ⟨by rw [State.port, ports_upgradeRecord]; rfl, fun j => by rw [holder?_upgradeRecord]; exact hb.holds j,
      by rw [waiting_upgradeRecord]; exact hb.waits⟩
  acquireAdmitted _ _ _ _ _ hj _ _ _ _ _ _ h := portLaw_admitEntry hj h
  upgradeAdmitted _ _ _ _ _ _ _ hj _ _ _ _ _ _ _ h := portLaw_admitEntry hj h
  shared s i t d w u hl h := h.keeps (fun _ => rfl) fun p _ hb => ⟨rfl, fun j => by
    rw [State.holder?, State.lease_setLease]
    split
    · subst_vars; exact (congrArg LeaseState.holder? hl).symm ▸ hb.holds _
    · exact hb.holds j, hb.waits⟩
  retimed s i t d w u d' w' hl h := h.relaxes (.setLease s i (by rw [hl]; exact fun _ => id) (by rw [hl]; exact fun _ => id))
    fun _ => .refl _
  unwarned s i t d w r w' hl h := h.relaxes (.setLease s i (by rw [hl]; exact fun _ => id) (by rw [hl]; exact fun _ => id))
    fun _ => .refl _
  warned s i t d w u hl h := h.keeps (fun p => (collects_addNotice s t.port _ p).2.1) fun p _ hb =>
    ⟨State.port_modifyPort_of_ne s t.port p _ (hb.ne_of_live (by rw [hl]; rfl)), hb.holds, hb.waits⟩

theorem portLaw_blank {s : State} (h : Blank s) : PortLaw s := fun p => by
  obtain ⟨-, queue, notices, -⟩ := h.port p
  exact ⟨fun _ => ⟨fun i => by simp [State.holder?, h.lease, LeaseState.holder?, LeaseState.tenure?], by simp [h.waiting],
    notices⟩, fun _ => queue⟩

theorem holder?_tearDown (s : State) (p : Port) (st : PortState) (i : Slot) :
    (tearDown p st s).holder? i = if s.holder? i = some p then none else s.holder? i := by
  rw [State.holder?, State.lease, record_tearDown]
  split <;> rfl

/-- A torn-down port holds nothing (R119). -/
theorem bare_tearDown (s : State) (p : Port) (st : PortState) :
    Bare { s.port p with
      state := st, queue := [], notices := [], overrun := false, strikes := 0, fenceLine := false } p (tearDown p st s) where
  port := port_tearDown_self s p st
  holds i := by
    rw [holder?_tearDown]
    split
    · simp
    · assumption
  waits := by simp

theorem kept_portLaw : Kept PortLaw where
  toMoves := moves_portLaw
  started _ _ h := h
  configured _ _ _ _ _ _ _ h := h
  tornDown s p st _ h q := by
    by_cases hq : q = p
    · subst hq
      obtain ⟨port, holds, waits⟩ := bare_tearDown s q st
      exact ⟨fun _ => ⟨holds, waits, by rw [port]⟩, fun _ => by rw [port]⟩
    · have port := port_tearDown_of_ne s p q st hq
      rw [port]
      refine ⟨fun ha => ?_, (h q).2⟩
      have bare := (h.bare ha).relaxes (.tearDown s p st) port
      exact ⟨bare.holds, bare.waits, ((h q).1 ha).2.2⟩
  released s p i _ r _ _ h := by
    have ended : PortLaw (endUpgrade i r s) := h.collects (collects_endUpgrade s i r) fun _ _ hb => hb.endUpgrade i r
    exact (ended.relaxes (.freeRecord _ i) fun _ => .refl _).modifyPort p _ (.of_state rfl (fun e => by rw [e]; rfl) fun _ => id)
  acked s p i _ _ _ _ _ h :=
    (h.relaxes (.freeRecord _ i) fun _ => .refl _).modifyPort p _ (.of_state rfl (fun e => by rw [e]; rfl) fun _ => id)
  written _ _ _ _ _ _ _ _ _ _ _ _ _ h := h
  poweredOn s _ := portLaw_blank (blank_powerOnAct s)
  resetTaken s _ := portLaw_blank (blank_resetAssertedAct s)
  resetReleased s _ := portLaw_blank (blank_resetDeassertedAct s)
  cleared _ _ h := h

/-- Settles O52: a port away is bare, and what is ended, recalled, granted or told goes to ports that are not. -/
theorem stepKeepsPortLaws : Obligations.StepKeepsPortLaws := fun _ _ => ⟨kept_portLaw.step, kept_fenceLaw.step⟩

end Sys2Proof.Machine
end

section
/-!
PROOFS. Notices (R136): a notice's record stays held by its port, and what frees a record takes its notice.
-/

namespace Sys2Proof.Machine

/-- Each record that a port holds in the first state it holds in the second, under the same generation. -/
def StillHeld (s u : State) : Prop :=
  ∀ i p, s.holder? i = some p → (u.record i).generation = (s.record i).generation ∧ u.holder? i = some p

theorem StillHeld.refl (s : State) : StillHeld s s := fun _ _ h => ⟨rfl, h⟩

theorem StillHeld.trans {s u v : State} (h : StillHeld s u) (h' : StillHeld u v) : StillHeld s v := fun i p hp =>
  have ⟨g, hu⟩ := h i p hp
  have ⟨g', hv⟩ := h' i p hu
  ⟨g'.trans g, hv⟩

/-- A record changes to a state of the same holder. -/
theorem stillHeld_setLease {s : State} {i : Slot} {l : LeaseState} (h : l.holder? = s.holder? i) :
    StillHeld s (s.setLease i l) := fun j p hp => by
  refine ⟨s.generation_setLease i j l, ?_⟩
  rw [State.holder?, State.lease_setLease]
  split
  · subst_vars; exact h.trans hp
  · exact hp

theorem holder?_entryLeaves (s : State) (e : Entry) (i : Slot) : (entryLeaves e s).holder? i = s.holder? i := by
  rw [State.holder?, lease_entryLeaves]
  split
  · rfl
  · split
    · exact LeaseState.holder?_withoutUpgrade _
    · rfl

theorem stillHeld_entryLeaves (s : State) (e : Entry) : StillHeld s (entryLeaves e s) := fun i _ hp =>
  ⟨generation_entryLeaves s i e, (holder?_entryLeaves s e i).trans hp⟩

theorem stillHeld_endUpgrade (s : State) (i : Slot) (r : Result) : StillHeld s (endUpgrade i r s) := by
  rcases endUpgrade_cases s i r with h | ⟨_, _, _, _, e, -, -, h⟩ <;> rw [h]
  · exact .refl s
  · exact stillHeld_entryLeaves s e

theorem stillHeld_allocate (s : State) (p : Port) (term : Nat) (spans : List ModeSpan) :
    StillHeld s (allocate p term spans s).1 := by
  obtain ⟨_, h⟩ := allocate_walk (Q := fun _ => StillHeld s) p term (fun u i m _ hf hu j q hq => by
    obtain ⟨g, hu⟩ := hu j q hq
    have hj : j ≠ i := fun e => by simp [State.holder?, e, hf, LeaseState.holder?, LeaseState.tenure?] at hu
    rw [State.holder?, lease_allocateIn, record_allocateIn, if_neg hj, if_neg hj]
    exact ⟨g, hu⟩) spans s (.refl s)
  exact h

theorem stillHeld_upgradeRecord (s : State) (i : Slot) : StillHeld s (upgradeRecord i s) := fun j _ hp =>
  ⟨generation_upgradeRecord s i j, (holder?_upgradeRecord s i j).trans hp⟩

theorem stillHeld_grantEntry (s : State) (e : Entry) : StillHeld s (grantEntry e s) := by
  have left := stillHeld_entryLeaves s e
  obtain ⟨u, r, hu, h⟩ := grantEntry_cases (P := StillHeld s) e s
    (fun spans term _ _ => left.trans (stillHeld_allocate _ e.port term spans))
    (fun g _ _ _ => left.trans (stillHeld_upgradeRecord _ g.slot)) left
  rw [h]
  exact hu

theorem stillHeld_admitEntry (s : State) (e : Entry) : StillHeld s (admitEntry e s) := by
  unfold admitEntry
  dsimp only
  split
  · exact .refl s
  · split
    · rename_i hl
      exact stillHeld_setLease (s := { s with waiting := s.waiting ++ [e] }) (congrArg LeaseState.holder? hl).symm
    · exact .refl s

theorem stillHeld_fenceEntries (s : State) (p : Port) : StillHeld s (fenceEntries p s) := fun i _ hp =>
  ⟨by rw [fenceEntries, generation_dropEntriesOf]; rfl, by rw [fenceEntries, holder?_dropEntriesOf]; exact hp⟩

namespace NoticeLaw

variable {s u : State}

/-- No notice is added, and the record of each one left stays held as it was. -/
theorem keeps (h : NoticeLaw s) (sub : ∀ p, (u.port p).notices.Sublist (s.port p).notices)
    (held : ∀ p, ∀ n ∈ (u.port p).notices, s.holder? n.handle.slot = some p →
      (u.record n.handle.slot).generation = (s.record n.handle.slot).generation ∧ u.holder? n.handle.slot = some p) :
    NoticeLaw u := fun p => by
  obtain ⟨resolve, distinct⟩ := h p
  refine ⟨fun n hn => ?_, distinct.sublist (sub p)⟩
  have := resolve n ((sub p).subset hn)
  simp only [State.resolves, Bool.and_eq_true, beq_iff_eq] at this ⊢
  obtain ⟨g, hu⟩ := held p n hn this.2
  exact ⟨g.trans this.1, hu⟩

/-- Records still held, and no notice added. -/
theorem stillHeld (h : NoticeLaw s) (hs : StillHeld s u) (sub : ∀ p, (u.port p).notices.Sublist (s.port p).notices) :
    NoticeLaw u := h.keeps sub fun p n _ => hs n.handle.slot p

theorem same (h : NoticeLaw s) (hs : StillHeld s u) (notices : ∀ p, (u.port p).notices = (s.port p).notices) : NoticeLaw u :=
  h.stillHeld hs fun p => notices p ▸ List.Sublist.refl _

/-- A notice of a held record joins its holder's list in place of any notice of the record (R135). -/
theorem addNotice (h : NoticeLaw s) {i : Slot} {p : Port} {n : Notice} (hp : s.holder? i = some p)
    (hn : n.handle = s.handleOf i) : NoticeLaw (addNotice p n s) := fun q => by
  obtain ⟨resolve, distinct⟩ := h q
  have new : s.resolves p n.handle = true := hn ▸ (s.resolves_handleOf p i).2 hp
  show (∀ m ∈ ((Machine.addNotice p n s).port q).notices, s.resolves q m.handle = true) ∧ _
  rw [Machine.addNotice, State.port_modifyPort]
  split
  · subst_vars
    refine ⟨List.forall_mem_append.2 ⟨fun m hm => resolve m (List.mem_filter.1 hm).1, List.forall_mem_singleton.2 new⟩, ?_⟩
    refine List.pairwise_append.2 ⟨distinct.sublist List.filter_sublist, List.pairwise_singleton _ _, fun m hm k hk => ?_⟩
    rw [List.mem_singleton.1 hk]
    simpa [Notice.names] using (List.mem_filter.1 hm).2
  · exact ⟨resolve, distinct⟩

theorem endUpgrade (h : NoticeLaw s) (i : Slot) (r : Result) : NoticeLaw (endUpgrade i r s) := by
  refine h.same (stillHeld_endUpgrade s i r) fun p => ?_
  rcases endUpgrade_cases s i r with hu | ⟨_, _, _, _, e, -, -, hu⟩ <;> rw [hu]
  rw [endEntry_eq, State.port_modifyPort]
  split <;> simp

theorem curtails (h : NoticeLaw s) {i : Slot} (hc : Curtails i s u) : NoticeLaw u := by
  cases hc with
  | nothing => exact h
  | told r t l n live tenure forward handle =>
    have hl : ((Machine.endUpgrade i r s).lease i).tenure? = some t := LeaseState.tenure?_of_live? (by rw [live?_endUpgrade, live])
    have changed : NoticeLaw ((Machine.endUpgrade i r s).setLease i l) := (h.endUpgrade i r).same
      (stillHeld_setLease (by simp only [State.holder?, LeaseState.holder?, hl, tenure])) fun _ => rfl
    exact changed.addNotice (i := i) (by rw [State.holder?, State.lease_setLease_self, LeaseState.holder?, tenure]; rfl)
      (by rw [handle, State.handleOf_setLease, handleOf_endUpgrade])

/-- A port's record is freed, and the notice that names it removed (R6). -/
theorem freed (h : NoticeLaw s) {i : Slot} {p : Port} (hp : s.holder? i = some p) :
    NoticeLaw (removeNotice p i (freeRecord i s)) := by
  refine h.keeps (fun q => ?_) fun q n hn hq => ?_
  · rw [removeNotice, State.port_modifyPort]
    split
    · exact List.filter_sublist
    · exact List.Sublist.refl _
  · have hne : n.handle.slot ≠ i := by
      by_cases hqp : q = p
      · subst hqp
        rw [removeNotice, State.port_modifyPort_self] at hn
        simpa [Notice.names] using (List.mem_filter.1 hn).2
      · intro e
        rw [e, hp] at hq
        exact hqp (Option.some.inj hq).symm
    refine ⟨s.generation_setLease i _ _, ?_⟩
    rw [removeNotice, State.holder?_modifyPort, freeRecord, State.holder?, s.lease_setLease_of_ne i _ _ hne]
    exact hq

end NoticeLaw

theorem holder?_of_live {s : State} {i : Slot} {t : Tenure} (h : (s.lease i).live? = some t) : s.holder? i = some t.port := by
  rw [State.holder?, LeaseState.holder?, LeaseState.tenure?_of_live? h]
  rfl

theorem moves_noticeLaw : Moves NoticeLaw where
  counted _ _ _ _ _ _ h := h
  quiet s p f hf h := h.same (.refl s) fun q => by
    rw [State.port_modifyPort]
    split
    · exact (hf _).2.2.1
    · rfl
  pulled s p h := h.same (.refl s) fun q => by rw [State.port_modifyPort]; split <;> rfl
  responded s p r _ _ h := h.same (.refl s) fun q => by rw [queueResponse, State.port_modifyPort]; split <;> rfl
  noticesTaken s p g hg h := h.stillHeld (.refl s) fun q => by
    rw [State.port_modifyPort]
    split
    · exact hg _
    · exact List.Sublist.refl _
  sessionOpened s p _ h := h.same (.refl s) fun q => by rw [State.port_modifyPort]; split <;> rfl
  appeared s p _ h := h.same (.refl s) fun q => by rw [State.port_modifyPort]; split <;> rfl
  ended s e r b _ h := h.same (stillHeld_entryLeaves s e) fun q => by
    rw [endEntry_eq, State.port_modifyPort]
    split <;> simp
  recallBegun s i h := h.curtails (curtails_beginRecall s i)
  revoked s i c h := h.curtails (curtails_revoke s i c)
  fenced s p h := by
    have entries : NoticeLaw (fenceEntries p s) := h.same (stillHeld_fenceEntries s p) fun q => by
      rw [fenceEntries, port_dropEntriesOf, State.port_modifyPort]
      split <;> rfl
    obtain ⟨u, hu, hf⟩ := fencePort_induction p (fun v i _ _ _ hv => hv.curtails (curtails_revoke v i .fenced)) s entries
    rw [hf]
    exact hu.same (.refl u) fun q => by rw [State.port_modifyPort]; split <;> rfl
  entryGranted s e _ _ _ _ h := h.same (stillHeld_grantEntry s e) fun q => by
    obtain ⟨r, hr⟩ := ports_grantEntry s e
    rw [State.port, hr]
    show ((queueResponse e.port r s).port q).notices = _
    rw [queueResponse, State.port_modifyPort]
    split <;> rfl
  acquired s p term spans _ _ _ _ h := h.same (stillHeld_allocate s p term spans) fun q => by
    rw [State.port, (allocate_frame p term spans).1]; rfl
  upgradedNow s _ i _ _ _ _ _ _ _ h := h.same (stillHeld_upgradeRecord s i) fun q => by
    rw [State.port, ports_upgradeRecord]; rfl
  acquireAdmitted s e _ _ _ _ _ _ _ _ _ _ h := h.same (stillHeld_admitEntry s e) fun q => by
    rw [State.port, ports_admitEntry]; rfl
  upgradeAdmitted s e _ _ _ _ _ _ _ _ _ _ _ _ _ h := h.same (stillHeld_admitEntry s e) fun q => by
    rw [State.port, ports_admitEntry]; rfl
  shared s i t d w u hl h := h.same (stillHeld_setLease (congrArg LeaseState.holder? hl).symm) fun _ => rfl
  retimed s i t d w u d' w' hl h := h.same (stillHeld_setLease (congrArg LeaseState.holder? hl).symm) fun _ => rfl
  unwarned s i t d w r w' hl h := h.same (stillHeld_setLease (congrArg LeaseState.holder? hl).symm) fun _ => rfl
  warned s i t d w u hl h := h.addNotice (i := i) (holder?_of_live (by rw [hl]; rfl)) rfl

theorem noticeLaw_blank {s : State} (h : Blank s) : NoticeLaw s := fun p => by
  rw [(h.port p).2.2.1]
  exact ⟨by simp, .nil⟩

theorem kept_noticeLaw : Kept NoticeLaw where
  toMoves := moves_noticeLaw
  started _ _ h := h
  configured _ _ _ _ _ _ _ h := h
  tornDown s p st _ h := by
    refine h.keeps (fun q => ?_) fun q n hn hq => ?_
    · by_cases hqp : q = p
      · subst hqp; rw [port_tearDown_self]; exact List.nil_sublist _
      · rw [port_tearDown_of_ne s p q st hqp]
    · have hqp : q ≠ p := fun e => by subst e; rw [port_tearDown_self] at hn; cases hn
      have hne : s.holder? n.handle.slot ≠ some p := fun e => hqp (Option.some.inj (hq.symm.trans e))
      rw [holder?_tearDown, record_tearDown, if_neg hne, if_neg hne]
      exact ⟨rfl, hq⟩
  released s p i t r hl ht h := (h.endUpgrade i r).freed
    (ht ▸ holder?_of_live (by rw [live?_endUpgrade, hl]))
  acked s p i t c k hl ht h := h.freed (by rw [State.holder?, hl]; exact congrArg some ht)
  written _ _ _ _ _ _ _ _ _ _ _ _ _ h := h
  poweredOn s _ := noticeLaw_blank (blank_powerOnAct s)
  resetTaken s _ := noticeLaw_blank (blank_resetAssertedAct s)
  resetReleased s _ := noticeLaw_blank (blank_resetDeassertedAct s)
  cleared _ _ h := h

/-- Settles O54: who is told of a record holds it, and who frees it takes its notice. -/
theorem stepKeepsNoticeLaw : Obligations.StepKeepsNoticeLaw := fun _ _ => kept_noticeLaw.step

end Sys2Proof.Machine
end

section
/-!
PROOFS. Conflicts (R12, R13): what is granted conflicts with no live lease, a waiting UPGRADE is its own lease's, and no port's
spans overlap one another.
-/

namespace Sys2Proof.Machine

/-! ### Spans -/

theorem Span.overlaps_comm (a b : Span) : a.overlaps b = b.overlaps a := by
  simp only [Span.overlaps, Bool.and_comm]

theorem conflicts_comm (p q : Port) (a b : ModeSpan) : conflicts p a q b = conflicts q b p a := by
  rw [conflicts, conflicts, Span.overlaps_comm, bne_comm, Bool.or_comm]

/-- Spans of one port do not conflict (R12). -/
@[simp] theorem conflicts_self (p : Port) (a b : ModeSpan) : conflicts p a p b = false := by simp [conflicts]

/-- No live lease of another port conflicts with the spans (R33). -/
theorem holdersOff_eq_nil {s : State} {p : Port} {spans : List ModeSpan} : s.holdersOff p spans = [] ↔
    ∀ i t, (s.lease i).live? = some t → ∀ m ∈ spans, conflicts t.port t.modeSpan p m = false := by
  simp only [State.holdersOff, List.filter_eq_nil_iff, allSlots, List.mem_finRange, true_implies]
  refine forall_congr' fun i => ?_
  cases (s.lease i).live? <;> simp

/-! ### The law of conflicts (R12) -/

theorem ConflictLaw.relaxes {s u : State} (hr : Relaxes s u) (h : ConflictLaw s) : ConflictLaw u :=
  fun i j ti tj hi hj => h i j ti tj (hr.live i ti hi) (hr.live j tj hj)

/-- One record changes to a state whose lease, if it is live, conflicts with no other. -/
theorem ConflictLaw.update {s u : State} {i : Slot} {l : LeaseState} (h : ConflictLaw s)
    (hu : ∀ j, u.lease j = if j = i then l else s.lease j)
    (new : ∀ t, l.live? = some t → ∀ j t', j ≠ i → (s.lease j).live? = some t' →
      conflicts t'.port t'.modeSpan t.port t.modeSpan = false) : ConflictLaw u := fun j k tj tk hj hk => by
  rw [hu] at hj hk
  split at hj <;> split at hk
  · rw [hj] at hk; cases hk; exact conflicts_self _ _ _
  · rw [conflicts_comm]; exact new tj hj k tk ‹_› hk
  · exact new tk hk j tj ‹_› hj
  · exact h j k tj tk hj hk

/-- One record changes to a state with the same lease. -/
theorem ConflictLaw.sameLease {s : State} {i : Slot} {l : LeaseState} (h : ConflictLaw s) (hl : l.live? = (s.lease i).live?) :
    ConflictLaw (s.setLease i l) :=
  h.update (fun j => s.lease_setLease i j l) fun t ht j t' _ hj => h j i t' t hj (hl ▸ ht)

/-! ### The laws of the waiting list (R28, R30) -/

/-- Two keys that do not share port and tag. -/
def TagsDiffer (a b : EntryIndex × Port × Tag × Claim) : Prop := ¬(a.2.1 = b.2.1 ∧ a.2.2.1 = b.2.2.1)

theorem tagLaw_iff (s : State) : TagLaw s ↔ (s.waiting.map Entry.key).Pairwise TagsDiffer := by
  rw [List.pairwise_map]
  rfl

theorem TagLaw.shortened {s u : State} (hs : Shortened s.waiting u.waiting) (h : TagLaw s) : TagLaw u := by
  rw [tagLaw_iff] at h ⊢
  exact h.sublist hs.keys

/-- The entry of a port with a tag is the only one. -/
theorem TagLaw.unique {s : State} (h : TagLaw s) {e f : Entry} (he : e ∈ s.waiting) (hf : f ∈ s.waiting)
    (hp : e.port = f.port) (ht : e.tag = f.tag) : e = f := by
  have symm : Std.Symm fun a b : Entry => ¬(a.port = b.port ∧ a.tag = b.tag) := ⟨fun _ _ hab hba => hab ⟨hba.1.symm, hba.2.symm⟩⟩
  by_contra hne
  exact h.forall he hf hne ⟨hp, ht⟩

/-- The entries are of those before, and the leases they name stay GRANTED to their ports, with their spans and their pending
upgrades. -/
theorem UpgradeLaw.keeps {s u : State} (h : UpgradeLaw s) (entries : ∀ f ∈ u.waiting, ∃ e ∈ s.waiting, e.key = f.key)
    (leases : ∀ f ∈ u.waiting, ∀ g sp, f.claim = .upgrade g sp → ∀ t d w, s.lease g.slot = .granted t d w (some f.tag) →
      t.port = f.port → ∃ t' d' w', u.lease g.slot = .granted t' d' w' (some f.tag) ∧ t'.port = t.port ∧ t'.span = t.span) :
    UpgradeLaw u := fun f hf g sp hc => by
  obtain ⟨e, he, hk⟩ := entries f hf
  simp only [Entry.key, Prod.mk.injEq] at hk
  obtain ⟨-, port, tag, claim⟩ := hk
  obtain ⟨t, d, w, hl, hp, hsp⟩ := h e he g sp (claim.trans hc)
  obtain ⟨t', d', w', hl', hp', hsp'⟩ := leases f hf g sp hc t d w (tag ▸ hl) (port ▸ hp)
  exact ⟨t', d', w', hl', by rw [hp', hp, port], by rw [hsp', hsp]⟩

/-- The records that waiting UPGRADEs name stand. -/
theorem UpgradeLaw.same {s u : State} (h : UpgradeLaw s) (entries : ∀ f ∈ u.waiting, ∃ e ∈ s.waiting, e.key = f.key)
    (leases : ∀ f ∈ u.waiting, ∀ g sp, f.claim = .upgrade g sp → ∀ t d w, s.lease g.slot = .granted t d w (some f.tag) →
      t.port = f.port → u.lease g.slot = s.lease g.slot) : UpgradeLaw u :=
  h.keeps entries fun f hf g sp hc t d w hl hp => ⟨t, d, w, (leases f hf g sp hc t d w hl hp).trans hl, rfl, rfl⟩

/-- One record changes that no waiting UPGRADE names. -/
theorem UpgradeLaw.update {s u : State} {i : Slot} (h : UpgradeLaw s) (hw : u.waiting = s.waiting)
    (hu : ∀ j, j ≠ i → u.lease j = s.lease j) (none : ∀ f ∈ s.waiting, ∀ g sp, f.claim = .upgrade g sp → g.slot ≠ i) :
    UpgradeLaw u :=
  h.same (fun f hf => ⟨f, hw ▸ hf, rfl⟩) fun f hf g sp hc _ _ _ _ _ => hu _ (none f (hw ▸ hf) g sp hc)

/-- Where a record has no pending upgrade, no waiting UPGRADE names it. -/
theorem UpgradeLaw.not_named {s : State} (h : UpgradeLaw s) {i : Slot} (hi : ∀ t d w tag, s.lease i ≠ .granted t d w (some tag)) :
    ∀ f ∈ s.waiting, ∀ g sp, f.claim = .upgrade g sp → g.slot ≠ i := by
  rintro f hf g sp hc rfl
  obtain ⟨t, d, w, hl, -, -⟩ := h f hf g sp hc
  exact hi _ _ _ _ hl

/-! ### The three laws together -/

namespace LeaseLaw

variable {s : State}

theorem entryLeaves (h : LeaseLaw s) {e : Entry} (he : e ∈ s.waiting) : LeaseLaw (entryLeaves e s) := by
  obtain ⟨conflict, upgrade, tag⟩ := h
  have left := Relaxes.entryLeaves he
  refine ⟨conflict.relaxes left, upgrade.same (fun f hf => left.waiting.mem hf) fun f hf g sp hc t d w hl hp => ?_,
    tag.shortened left.waiting⟩
  rw [waiting_entryLeaves] at hf
  obtain ⟨g', hg', hk, hx⟩ := mem_withoutEntry e hf
  simp only [Entry.key, Prod.mk.injEq] at hk
  rw [lease_entryLeaves]
  split
  · rfl
  · rename_i k sp' hce
    refine if_neg fun hs => hx ?_
    obtain ⟨t', d', w', hl', hp', -⟩ := upgrade e he k sp' hce
    rw [← hs, hl] at hl'
    simp only [LeaseState.granted.injEq, Option.some.injEq] at hl'
    rw [tag.unique hg' he (by rw [hk.2.1, ← hp, hl'.1, hp']) (by rw [hk.2.2.1, hl'.2.2.2])]

theorem endUpgrade (h : LeaseLaw s) (i : Slot) (r : Result) : LeaseLaw (endUpgrade i r s) := by
  rcases endUpgrade_cases s i r with hu | ⟨_, _, _, _, e, -, he, hu⟩ <;> rw [hu]
  · exact h
  · exact h.entryLeaves (List.mem_of_find?_eq_some he)

/-- The pending upgrade that ended was the only one of its slot. -/
theorem not_named_endUpgrade (h : LeaseLaw s) (i : Slot) (r : Result) :
    ∀ f ∈ (Machine.endUpgrade i r s).waiting, ∀ g sp, f.claim = .upgrade g sp → g.slot ≠ i := by
  intro f hf g sp hc hgi
  obtain ⟨-, upgrade, tag⟩ := h
  obtain ⟨e, he, hk⟩ := (Relaxes.endUpgrade s i r).waiting.mem hf
  simp only [Entry.key, Prod.mk.injEq] at hk
  obtain ⟨t, d, w, hl, hp, -⟩ := upgrade e he g sp (hk.2.2.2.trans hc)
  have found : s.entryWithTag? t.port e.tag = some e := by
    cases hx : s.entryWithTag? t.port e.tag with
    | none => exact absurd (List.find?_eq_none.1 hx e he) (by simp [hp])
    | some x =>
      have := List.find?_some hx
      simp only [Bool.and_eq_true, beq_iff_eq] at this
      rw [tag.unique (List.mem_of_find?_eq_some hx) he (this.1.trans hp) this.2]
  rw [endUpgrade_pending s i e r (hgi ▸ hl) found, endEntry_eq, State.modifyPort_waiting, waiting_entryLeaves] at hf
  obtain ⟨e', he', hk', hx⟩ := mem_withoutEntry e hf
  simp only [Entry.key, Prod.mk.injEq] at hk'
  exact hx (hk'.1.trans hk.1.symm)

/-- One record that no waiting UPGRADE names changes, to a lease that conflicts with none, if it is live. -/
theorem update {u : State} {i : Slot} {l : LeaseState} (h : LeaseLaw s) (hw : u.waiting = s.waiting)
    (hu : ∀ j, u.lease j = if j = i then l else s.lease j)
    (none : ∀ f ∈ s.waiting, ∀ g sp, f.claim = .upgrade g sp → g.slot ≠ i)
    (new : ∀ t, l.live? = some t → ∀ j t', j ≠ i → (s.lease j).live? = some t' →
      conflicts t'.port t'.modeSpan t.port t.modeSpan = false) : LeaseLaw u := by
  obtain ⟨conflict, upgrade, tag⟩ := h
  refine ⟨conflict.update hu new, upgrade.update hw (fun j hj => by rw [hu, if_neg hj]) none, ?_⟩
  rw [TagLaw, hw]
  exact tag

theorem curtails {u : State} (h : LeaseLaw s) {i : Slot} (hc : Curtails i s u) : LeaseLaw u := by
  have relaxed := Relaxes.curtails hc
  cases hc with
  | nothing => exact h
  | told r t l n live tenure forward handle =>
    obtain ⟨-, upgrade, tag⟩ := h.endUpgrade i r
    exact ⟨h.1.relaxes relaxed, upgrade.update (i := i) rfl (fun j hj => State.lease_setLease_of_ne _ i j l hj)
      (h.not_named_endUpgrade i r), tag⟩

theorem fencePort (h : LeaseLaw s) (p : Port) : LeaseLaw (fencePort p s) := by
  have entries : LeaseLaw (fenceEntries p s) := by
    obtain ⟨conflict, upgrade, tag⟩ := h
    have left : Relaxes s (fenceEntries p s) := (Relaxes.modifyPort s p _).trans (.dropEntriesOf _ p)
    refine ⟨conflict.relaxes left, upgrade.same (fun f hf => left.waiting.mem hf) fun f hf g sp hc t d w hl hp => ?_,
      tag.shortened left.waiting⟩
    have hne : f.port ≠ p := by simpa using (List.mem_filter.1 hf).2
    rw [fenceEntries, lease_dropEntriesOf, State.lease_modifyPort, State.holder?_modifyPort]
    refine if_neg fun hh => hne ?_
    rw [State.holder?, hl] at hh
    exact hp.symm.trans (Option.some.inj hh)
  obtain ⟨u, hu, hf⟩ := fencePort_induction p (fun v i _ _ _ hv => hv.curtails (curtails_revoke v i .fenced)) s entries
  rw [hf]
  exact hu

/-- Records are allocated that conflict with no live lease. -/
theorem allocate (h : LeaseLaw s) {p : Port} {term : Nat} {spans : List ModeSpan}
    (hoff : ∀ i t, (s.lease i).live? = some t → ∀ m ∈ spans, conflicts t.port t.modeSpan p m = false) :
    LeaseLaw (allocate p term spans s).1 := by
  obtain ⟨_, h, -⟩ := allocate_walk (Q := fun ms u => LeaseLaw u ∧ ∀ i t, (u.lease i).live? = some t → ∀ m ∈ ms,
      conflicts t.port t.modeSpan p m = false) p term (fun u i m ms hi ⟨hu, hoff⟩ => by
    refine ⟨hu.update rfl (fun j => lease_allocateIn u p i j term m) (hu.2.1.not_named (by simp [hi])) ?_, ?_⟩
    · rintro t ⟨⟩ j t' - hj
      exact hoff j t' hj m (by simp)
    · intro j t hj m' hm'
      rw [lease_allocateIn] at hj
      split at hj
      · cases hj; exact conflicts_self _ _ _
      · exact hoff j t hj m' (by simp [hm'])) spans s ⟨h, hoff⟩
  exact h

/-- A lease without a pending upgrade is made EXCLUSIVE where its span, taken so, conflicts with no live lease. -/
theorem upgradeRecord (h : LeaseLaw s) {i : Slot} {t : Tenure} {d : Tick} {w : Option Tick} (hl : s.lease i = .granted t d w none)
    (hoff : s.holdersOff t.port [{ mode := .exclusive, span := t.span }] = []) : LeaseLaw (upgradeRecord i s) := by
  simp only [Machine.upgradeRecord, hl]
  refine h.update rfl (fun j => s.lease_setLease i j _) (h.2.1.not_named (by simp [hl])) ?_
  rintro _ ⟨⟩ j t' - hj
  exact holdersOff_eq_nil.1 hoff j t' hj _ (List.mem_singleton_self _)

theorem grantEntry (h : LeaseLaw s) {e : Entry} (he : e ∈ s.waiting) (hoff : s.holdersOff e.port e.claim.spans = []) :
    LeaseLaw (grantEntry e s) := by
  have left := h.entryLeaves he
  have live : ∀ i t, ((Machine.entryLeaves e s).lease i).live? = some t → ∀ m ∈ e.claim.spans,
      conflicts t.port t.modeSpan e.port m = false := fun i t ht =>
    holdersOff_eq_nil.1 hoff i t ((Relaxes.entryLeaves he).live i t ht)
  obtain ⟨u, r, hu, hg⟩ := grantEntry_cases (P := LeaseLaw) e s
    (fun spans term hc _ => left.allocate fun i t ht m hm => live i t ht m (by rw [hc]; exact hm))
    (fun g sp hc _ => by
      obtain ⟨t, d, w, hl, hp, rfl⟩ := h.2.1 e he g sp hc
      have hl' : (Machine.entryLeaves e s).lease g.slot = .granted t d w none := by
        rw [lease_entryLeaves, hc, hl]; exact if_pos rfl
      exact left.upgradeRecord hl' (holdersOff_eq_nil.2 fun i t' ht m hm => by
        rw [hp]; exact live i t' ht m (by rw [hc]; exact hm))) left
  rw [hg]
  exact hu

end LeaseLaw

theorem holdersOff_of_grantableNow {s : State} {p : Port} {spans : List ModeSpan} (h : grantableNow p spans s = true) :
    s.holdersOff p spans = [] := by
  simp only [grantableNow, Bool.and_eq_true, List.isEmpty_iff] at h
  exact h.2

theorem tagLaw_append {s : State} {e : Entry} (h : TagLaw s) (ht : s.tagInUse e.port e.tag = false) :
    (s.waiting ++ [e]).Pairwise fun a b => ¬(a.port = b.port ∧ a.tag = b.tag) := by
  refine List.pairwise_append.2 ⟨h, List.pairwise_singleton _ _, fun a ha b hb => ?_⟩
  rw [List.mem_singleton.1 hb]
  simpa [State.tagInUse] using List.any_eq_false.1 ht a ha

/-- A GRANTED lease changes, but not its port, its span or its pending upgrade, and conflicts with no other lease. -/
theorem leaseLaw_restated {s : State} {i : Slot} {t t' : Tenure} {d d' : Tick} {w w' : Option Tick} {u : Option Tag}
    (h : LeaseLaw s) (hl : s.lease i = .granted t d w u) (hp : t'.port = t.port) (hs : t'.span = t.span)
    (hm : t'.mode = t.mode ∨ t'.mode = .shared) : LeaseLaw (s.setLease i (.granted t' d' w' u)) := by
  obtain ⟨conflict, upgrade, tag⟩ := h
  refine ⟨conflict.update (fun j => s.lease_setLease i j _) ?_, upgrade.keeps (fun f hf => ⟨f, hf, rfl⟩) ?_, tag⟩
  · rintro _ ⟨⟩ j k - hj
    have := conflict j i k t hj (by rw [hl]; rfl)
    rcases hm with hm | hm <;> simp only [conflicts, Tenure.modeSpan, hp, hs, hm, Bool.and_eq_false_imp] at this ⊢
    · exact this
    · intro ho
      have := this ho
      simp only [Bool.or_eq_false_iff] at this ⊢
      exact ⟨this.1, rfl⟩
  · intro f _ g sp _ t₀ d₀ w₀ hg _
    rw [State.lease_setLease]
    split
    · rename_i hgi
      rw [hgi, hl] at hg
      cases hg
      exact ⟨_, _, _, rfl, hp, hs⟩
    · exact ⟨t₀, d₀, w₀, hg, rfl, rfl⟩

theorem moves_leaseLaw : Moves LeaseLaw where
  counted _ _ _ _ _ _ h := h
  quiet _ _ _ _ h := h
  pulled _ _ h := h
  responded _ _ _ _ _ h := h
  noticesTaken _ _ _ _ h := h
  sessionOpened _ _ _ h := h
  appeared _ _ _ h := h
  ended _ _ _ _ he h := h.entryLeaves he
  recallBegun s i h := h.curtails (curtails_beginRecall s i)
  revoked s i c h := h.curtails (curtails_revoke s i c)
  fenced _ p h := h.fencePort p
  entryGranted _ _ he _ _ hoff h := h.grantEntry he hoff
  acquired _ _ _ _ _ _ _ hg h := h.allocate (holdersOff_eq_nil.1 (holdersOff_of_grantableNow hg))
  upgradedNow _ _ _ _ _ _ hl hp hg _ h := h.upgradeRecord hl (hp ▸ holdersOff_of_grantableNow hg)
  acquireAdmitted s e spans term _ _ _ ht _ _ hc _ h := by
    obtain ⟨conflict, upgrade, tag⟩ := h
    simp only [admitEntry, hc]
    refine ⟨conflict, List.forall_mem_append.2 ⟨upgrade, List.forall_mem_singleton.2 fun g sp hg => ?_⟩, tagLaw_append tag ht⟩
    rw [hc] at hg
    cases hg
  upgradeAdmitted s e i t d w _ _ _ ht _ _ hl hp hc h := by
    obtain ⟨conflict, upgrade, tag⟩ := h
    have hi : ({ s with waiting := s.waiting ++ [e] } : State).lease i = .granted t d w none := hl
    simp only [admitEntry, hc, State.handleOf_slot, hi]
    refine ⟨ConflictLaw.sameLease (s := { s with waiting := s.waiting ++ [e] }) conflict (by rw [hi]; rfl),
      List.forall_mem_append.2 ⟨fun f hf g sp hg => ?_, List.forall_mem_singleton.2 fun g sp hg => ?_⟩, tagLaw_append tag ht⟩
    · rw [State.lease_setLease_of_ne _ _ _ _ (upgrade.not_named (by simp [hl]) f hf g sp hg)]
      exact upgrade f hf g sp hg
    · rw [hc] at hg
      cases hg
      exact ⟨t, d, w, State.lease_setLease_self _ i _, hp, rfl⟩
  shared s i t d w u hl h := leaseLaw_restated h hl rfl rfl (.inr rfl)
  retimed s i t d w u d' w' hl h := leaseLaw_restated h hl rfl rfl (.inl rfl)
  unwarned s i t d w r w' hl h := by
    obtain ⟨conflict, upgrade, tag⟩ := h
    exact ⟨conflict.sameLease (by rw [hl]; rfl), upgrade.update rfl (fun j hj => s.lease_setLease_of_ne i j _ hj)
      (upgrade.not_named (by simp [hl])), tag⟩
  warned _ _ _ _ _ _ _ h := h

theorem leaseLaw_blank {s : State} (h : Blank s) : LeaseLaw s := by
  refine ⟨fun i j ti tj hi => ?_, ?_, ?_⟩
  · rw [h.lease] at hi; cases hi
  · rw [UpgradeLaw, h.waiting]; simp
  · rw [TagLaw, h.waiting]; exact .nil

theorem kept_leaseLaw : Kept LeaseLaw where
  toMoves := moves_leaseLaw
  started _ _ h := h
  configured _ _ _ _ _ _ _ h := h
  tornDown s p st _ h := by
    obtain ⟨conflict, upgrade, tag⟩ := h
    have left := Relaxes.tearDown s p st
    refine ⟨conflict.relaxes left, upgrade.same (fun f hf => left.waiting.mem hf) fun f hf g sp hc t d w hl hp => ?_,
      tag.shortened left.waiting⟩
    have hne : f.port ≠ p := by simpa using (List.mem_filter.1 hf).2
    rw [State.lease, record_tearDown, if_neg fun hh => hne ?_]
    · rfl
    · rw [State.holder?, hl] at hh
      exact hp.symm.trans (Option.some.inj hh)
  released _ _ i _ r _ _ h := (h.endUpgrade i r).update rfl (fun j => State.lease_setLease _ i j _) (h.not_named_endUpgrade i r)
    fun _ ht => by cases ht
  acked _ _ i _ _ _ hl _ h := h.update rfl (fun j => State.lease_setLease _ i j _) (h.2.1.not_named (by simp [hl]))
    fun _ ht => by cases ht
  written _ _ _ _ _ _ _ _ _ _ _ _ _ h := h
  poweredOn s _ := leaseLaw_blank (blank_powerOnAct s)
  resetTaken s _ := leaseLaw_blank (blank_resetAssertedAct s)
  resetReleased s _ := leaseLaw_blank (blank_resetDeassertedAct s)
  cleared _ _ h := h

/-! ### The law of self-overlap (R13) -/

/-- Two spans with their modes have no block in common. -/
def Apart (m n : ModeSpan) : Prop := m.span.overlaps n.span = false

theorem Apart.symm {m n : ModeSpan} (h : Apart m n) : Apart n m := by
  rw [Apart, Span.overlaps_comm]; exact h

/-- Spans that overlap none of one another, no live lease of the port and no span of its entries: those of a request that does
not self-overlap (R13). -/
structure Fresh (s : State) (p : Port) (ms : List ModeSpan) : Prop where
  apart : ms.Pairwise Apart
  leases : ∀ m ∈ ms, ∀ i t, (s.lease i).live? = some t → t.port = p → m.span.overlaps t.span = false
  entries : ∀ m ∈ ms, ∀ f ∈ s.waiting, f.port = p → ∀ n ∈ f.claim.spans, Apart m n

theorem apart_of_anyOverlap {ms : List ModeSpan} (h : anyOverlap ms = false) : ms.Pairwise Apart := by
  induction ms with
  | nil => exact .nil
  | cons m ms ih =>
    simp only [anyOverlap, Bool.or_eq_false_iff, List.any_eq_false] at h
    exact List.pairwise_cons.2 ⟨fun n hn => by simpa [Apart] using h.1 n hn, ih h.2⟩

theorem fresh_of_acquirable {s : State} {p : Port} {ms : List ModeSpan} (h : acquirable s p ms = true) : Fresh s p ms := by
  simp only [acquirable, selfOverlaps, Bool.and_eq_true, Bool.not_eq_true', Bool.or_eq_false_iff, List.any_eq_false] at h
  obtain ⟨⟨⟨-, own, others⟩, -⟩, -⟩ := h
  have apart : ∀ m ∈ ms, ∀ n ∈ s.spansOf p, Apart m n := by simpa [Apart] using others
  refine ⟨apart_of_anyOverlap own, fun m hm i t hl hp => apart m hm t.modeSpan ?_, fun m hm f hf hp n hn => apart m hm n ?_⟩
  · refine List.mem_append_left _ (List.mem_filterMap.2 ⟨i, List.mem_finRange i, ?_⟩)
    simp [hl, hp]
  · exact List.mem_append_right _ (List.mem_flatMap.2 ⟨f, List.mem_filter.2 ⟨hf, by simpa using hp⟩, hn⟩)

namespace SelfOverlapLaw

variable {s u : State}

/-- A waiting ACQUIRE's spans overlap nothing of its port but the entries at its own place. -/
theorem entry (h : SelfOverlapLaw s) {e : Entry} {spans : List ModeSpan} {term : Nat} (he : e ∈ s.waiting)
    (hc : e.claim = .acquire spans term) : spans.Pairwise Apart ∧
      (∀ m ∈ spans, ∀ i t, (s.lease i).live? = some t → t.port = e.port → m.span.overlaps t.span = false) ∧
      ∀ m ∈ spans, ∀ f ∈ s.waiting, f.index ≠ e.index → f.port = e.port → ∀ n ∈ f.claim.spans, Apart m n :=
  have ⟨apart, rest⟩ := h.2 e he spans term hc
  ⟨apart, fun m hm => (rest m hm).1, fun m hm => (rest m hm).2⟩

/-- Each live lease has the port and span of one before, and each entry was waiting. -/
theorem keeps (h : SelfOverlapLaw s)
    (live : ∀ i t, (u.lease i).live? = some t → ∃ t₀, (s.lease i).live? = some t₀ ∧ t₀.port = t.port ∧ t₀.span = t.span)
    (entries : ∀ f ∈ u.waiting, ∃ e ∈ s.waiting, e.key = f.key) : SelfOverlapLaw u := by
  refine ⟨fun i j ti tj hij hi hj hp => ?_, fun f hf spans term hc => ?_⟩
  · obtain ⟨ai, hai, hpi, hsi⟩ := live i ti hi
    obtain ⟨aj, haj, hpj, hsj⟩ := live j tj hj
    rw [← hsi, ← hsj]
    exact h.1 i j ai aj hij hai haj (by rw [hpi, hp, hpj])
  · obtain ⟨e, he, hk⟩ := entries f hf
    simp only [Entry.key, Prod.mk.injEq] at hk
    obtain ⟨index, port, -, claim⟩ := hk
    obtain ⟨apart, leases, others⟩ := h.entry he (claim.trans hc)
    refine ⟨apart, fun m hm => ⟨fun i t hl hp => ?_, fun g hg hx hp n hn => ?_⟩⟩
    · obtain ⟨a, ha, hpa, hsa⟩ := live i t hl
      rw [← hsa]
      exact leases m hm i a ha (by rw [hpa, hp, port])
    · obtain ⟨g', hg', hk'⟩ := entries g hg
      simp only [Entry.key, Prod.mk.injEq] at hk'
      exact others m hm g' hg' (by rw [hk'.1, index]; exact hx) (by rw [hk'.2.1, port, hp]) n (by rw [hk'.2.2.2]; exact hn)

/-- One lease changes, but not its port or span. -/
theorem restated (h : SelfOverlapLaw s) {i : Slot} {l : LeaseState} {t t' : Tenure} (hl : (s.lease i).live? = some t)
    (hl' : l.live? = some t') (hp : t.port = t'.port) (hs : t.span = t'.span) : SelfOverlapLaw (s.setLease i l) :=
  h.keeps (fun j a ha => by
    rw [State.lease_setLease] at ha
    split at ha
    · rename_i hj
      rw [hl'] at ha
      cases ha
      exact ⟨t, hj ▸ hl, hp, hs⟩
    · exact ⟨a, ha, rfl, rfl⟩) fun f hf => ⟨f, hf, rfl⟩

/-- A record is allocated for a span that overlaps nothing of its port. -/
theorem allocateIn (h : SelfOverlapLaw s) {i : Slot} {p : Port} {term : Nat} {m : ModeSpan} {ms : List ModeSpan}
    (hf : Fresh s p (m :: ms)) : SelfOverlapLaw (allocateIn i p term m s) ∧ Fresh (allocateIn i p term m s) p ms := by
  obtain ⟨apart, leases, entries⟩ := hf
  obtain ⟨apart_m, apart⟩ := List.pairwise_cons.1 apart
  have live : ∀ j t, ((Machine.allocateIn i p term m s).lease j).live? = some t →
      j = i ∧ t.port = p ∧ t.span = m.span ∨ j ≠ i ∧ (s.lease j).live? = some t := fun j t ht => by
    rw [lease_allocateIn] at ht
    split at ht
    · cases ht; exact .inl ⟨‹_›, rfl, rfl⟩
    · exact .inr ⟨‹_›, ht⟩
  refine ⟨⟨fun j k tj tk hjk hj hk hp => ?_, fun e he spans n hc => ?_⟩, apart, fun m' hm' j t ht hp => ?_,
    fun m' hm' => entries m' (by simp [hm'])⟩
  · rcases live j tj hj with ⟨hji, hpj, hsj⟩ | ⟨hji, hj⟩ <;> rcases live k tk hk with ⟨hki, hpk, hsk⟩ | ⟨hki, hk⟩
    · exact absurd (hji.trans hki.symm) hjk
    · rw [hsj]; exact leases m (by simp) k tk hk (by rw [← hp, hpj])
    · rw [hsk, Span.overlaps_comm]; exact leases m (by simp) j tj hj (by rw [hp, hpk])
    · exact h.1 j k tj tk hjk hj hk hp
  · obtain ⟨apart_e, leases_e, others⟩ := h.entry he hc
    refine ⟨apart_e, fun m' hm' => ⟨fun j t ht hp => ?_, others m' hm'⟩⟩
    rcases live j t ht with ⟨-, hpj, hsj⟩ | ⟨-, hj⟩
    · rw [hsj]
      exact (entries m (by simp) e he (by rw [← hp, hpj]) m' (by rw [hc]; exact hm')).symm
    · exact leases_e m' hm' j t hj hp
  · rcases live j t ht with ⟨-, -, hsj⟩ | ⟨-, hj⟩
    · rw [hsj]; exact (apart_m m' hm').symm
    · exact leases m' (by simp [hm']) j t hj hp

theorem allocate (h : SelfOverlapLaw s) {p : Port} {term : Nat} {spans : List ModeSpan} (hf : Fresh s p spans) :
    SelfOverlapLaw (allocate p term spans s).1 := by
  obtain ⟨_, h, -⟩ := allocate_walk (Q := fun ms u => SelfOverlapLaw u ∧ Fresh u p ms) p term
    (fun u i m ms _ ⟨hu, hf⟩ => hu.allocateIn hf) spans s ⟨h, hf⟩
  exact h

/-- An entry is admitted whose spans, those of an ACQUIRE, overlap nothing of its port, and which other ACQUIREs do not
overlap. -/
theorem admitted (h : SelfOverlapLaw s) {e : Entry}
    (own : ∀ spans term, e.claim = .acquire spans term → Fresh s e.port spans)
    (others : ∀ f ∈ s.waiting, ∀ spans term, f.claim = .acquire spans term → f.port = e.port → ∀ m ∈ spans,
      ∀ n ∈ e.claim.spans, Apart m n) : SelfOverlapLaw { s with waiting := s.waiting ++ [e] } := by
  refine ⟨h.1, List.forall_mem_append.2 ⟨fun f hf spans term hc => ?_, List.forall_mem_singleton.2 fun spans term hc => ?_⟩⟩
  · obtain ⟨apart, leases, rest⟩ := h.entry hf hc
    refine ⟨apart, fun m hm => ⟨leases m hm, List.forall_mem_append.2 ⟨rest m hm, List.forall_mem_singleton.2 ?_⟩⟩⟩
    exact fun _ hp n hn => others f hf spans term hc hp.symm m hm n hn
  · obtain ⟨apart, leases, entries⟩ := own spans term hc
    refine ⟨apart, fun m hm => ⟨leases m hm, List.forall_mem_append.2 ⟨fun f hf _ => entries m hm f hf,
      List.forall_mem_singleton.2 fun hx => absurd rfl hx⟩⟩⟩

end SelfOverlapLaw

theorem grants_selfOverlapLaw : Grants SelfOverlapLaw where
  relaxed _ _ hr h := h.keeps (fun i t ht => ⟨t, hr.live i t ht, rfl, rfl⟩) fun _ hf => hr.waiting.mem hf
  shared _ _ t _ _ _ hl h := h.restated (t := t) (by rw [hl]; rfl) rfl rfl rfl
  upgraded _ _ t _ _ _ hl _ h := h.restated (t := t) (by rw [hl]; rfl) rfl rfl rfl
  entryAcquired s e spans term he hc _ h := by
    have left := Relaxes.entryLeaves he
    obtain ⟨apart, leases, others⟩ := h.entry he hc
    refine SelfOverlapLaw.allocate (h.keeps (fun i t ht => ⟨t, left.live i t ht, rfl, rfl⟩) fun _ hf => left.waiting.mem hf)
      ⟨apart, fun m hm i t ht => leases m hm i t (left.live i t ht), fun m hm f hf hp n hn => ?_⟩
    rw [waiting_entryLeaves] at hf
    obtain ⟨g, hg, hk, hx⟩ := mem_withoutEntry e hf
    simp only [Entry.key, Prod.mk.injEq] at hk
    exact others m hm g hg hx (hk.2.1.trans hp) n (by rw [hk.2.2.2]; exact hn)
  acquired _ _ _ _ _ ha h := h.allocate (fresh_of_acquirable ha)
  acquireAdmitted s e spans term _ _ _ hc ha h := by
    have fresh := fresh_of_acquirable ha
    refine h.admitted (fun spans' term' hc' => ?_) fun f hf spans' term' hc' hp m hm n hn => ?_
    · rw [hc] at hc'; cases hc'; exact fresh
    · rw [hc] at hn
      exact (fresh.entries n hn f hf hp m (by rw [hc']; exact hm)).symm
  upgradeAdmitted s e i t _ _ _ hl ht hc h := by
    refine h.admitted (fun spans term hc' => by rw [hc] at hc'; cases hc') fun f hf spans term hc' hp m hm n hn => ?_
    rw [hc] at hn
    rw [List.mem_singleton.1 hn]
    exact (h.entry hf hc').2.1 m hm i t hl (by rw [ht, hp])

theorem selfOverlapLaw_blank {s : State} (h : Blank s) : SelfOverlapLaw s := by
  refine ⟨fun i j ti tj _ hi => ?_, ?_⟩
  · rw [h.lease] at hi; cases hi
  · rw [h.waiting]; simp

theorem kept_selfOverlapLaw : Kept SelfOverlapLaw where
  toMoves := grants_selfOverlapLaw.moves
  started _ _ h := h
  configured _ _ _ _ _ _ _ h := h
  tornDown s p st _ := grants_selfOverlapLaw.tornDown s p st
  released s p i _ r _ _ := grants_selfOverlapLaw.released s p i r
  acked s p i _ _ _ _ _ := grants_selfOverlapLaw.acked s p i
  written _ _ _ _ _ _ _ _ _ _ _ _ _ h := h
  poweredOn s _ := selfOverlapLaw_blank (blank_powerOnAct s)
  resetTaken s _ := selfOverlapLaw_blank (blank_resetAssertedAct s)
  resetReleased s _ := selfOverlapLaw_blank (blank_resetDeassertedAct s)
  cleared _ _ h := h

/-- Settles O51: a grant asks that no live lease of another port conflicts, and a request that it does not self-overlap. -/
theorem stepKeepsLeaseLaw : Obligations.StepKeepsLeaseLaw := fun _ _ h he =>
  ⟨kept_leaseLaw.step h he, fun hs => kept_selfOverlapLaw.step hs he⟩

/-- Settles O57: the state after power-on is blank, and a blank state meets every law of the tables. -/
theorem resetMeetsTheLaws : Obligations.ResetMeetsTheLaws :=
  have h := blank_reset
  ⟨creditLaw_blank h, leaseLaw_blank h, selfOverlapLaw_blank h, portLaw_blank h, fenceLaw_blank h, stampLaw_blank h,
    noticeLaw_blank h, onlyInRun_blank h, quotaLaw_blank h, tableLaw_nil rfl, arrayLaw_nil rfl, spanLaw_blank h⟩

end Sys2Proof.Machine
end

section
/-!
PROOFS. Two rules of the whole machine: the parameters change only in SETUP (R146), and a lease in RECALLING never returns to
GRANTED (R66).
-/

namespace Sys2Proof.Machine

/-! ### The parameters (R146) -/

theorem moves_params (ps : Params) : Moves fun s => s.params = ps :=
  (Grants.of_device fun _ _ _ _ hp h => hp.trans h).moves

/-- Outside SETUP what is no reset keeps the parameters. -/
theorem acts_params {ph : Phase} (ps : Params) (h : ph ≠ .setup) :
    Acts (fun s => s.params = ps ∧ s.phase = ph) (fun s => s.params = ps) (fun s => s.params = ps) where
  taken _ _ h := h
  settles _ _ _ _ h := h
  moves := moves_params ps
  later := moves_params ps
  begun _ h := h.1
  done _ h := h
  started _ _ h := h.1
  configured _ _ _ _ _ hp _ hs := absurd (hs.2.symm.trans hp) h
  tornDown _ _ _ _ h := h.1
  released s _ i _ r _ _ h := (Relaxes.endUpgrade s i r).params.trans h.1
  acked _ _ _ _ _ _ _ _ h := h.1
  written _ _ _ _ _ _ _ _ _ _ _ _ _ h := h.1
  cleared _ _ h := h.1

/-- Settles O60: of the commands that are no reset only a SET changes the parameters, and it is taken in SETUP alone. -/
theorem parametersChangeOnlyInSetup : Obligations.ParametersChangeOnlyInSetup := by
  intro s t he hne
  by_contra hn
  simp only [not_or, not_exists] at hn
  obtain ⟨hp, hon, hasserted, hdeasserted⟩ := hn
  exact hne ((acts_params s.params hp).step ⟨rfl, rfl⟩ hon hasserted hdeasserted he)

/-! ### RECALLING (R66) -/

/-- What has become of a record that was RECALLING with this generation, tenure, lease deadline and recall deadline. -/
def Spent (g : Generation) (l : Tenure) (d r : Tick) (a : LeaseRecord) : Prop :=
  a.generation = g ∧ ((∃ w, a.state = .recalling l d w r) ∨ (∃ c k, a.state = .revoked l c k) ∨ a.state = .free) ∨
    a.generation = g + 1 ∧ a.state ≠ .free

section

variable {g : Generation} {l : Tenure} {d r : Tick} {s : State} {i j : Slot}

/-- A record that keeps its generation and loses at most a pending upgrade. -/
theorem Spent.withoutUpgrade {a b : LeaseRecord} (h : Spent g l d r a) (hg : b.generation = a.generation)
    (hs : b.state = a.state ∨ b.state = a.state.withoutUpgrade) : Spent g l d r b := by
  rcases hs with hs | hs
  · rwa [Spent, hg, hs]
  · rcases h with ⟨hg', ⟨w, h⟩ | ⟨c, k, h⟩ | h⟩ | ⟨hg', h⟩
    · exact .inl ⟨hg.trans hg', .inl ⟨w, by rw [hs, h]; rfl⟩⟩
    · exact .inl ⟨hg.trans hg', .inr (.inl ⟨c, k, by rw [hs, h]; rfl⟩)⟩
    · exact .inl ⟨hg.trans hg', .inr (.inr (by rw [hs, h]; rfl))⟩
    · refine .inr ⟨hg.trans hg', ?_⟩
      rw [hs]
      cases ha : a.state <;> simp_all [LeaseState.withoutUpgrade]

/-- A record that is GRANTED is a later lease of the slot. -/
theorem Spent.of_granted {t : Tenure} {d' : Tick} {w : Option Tick} {u : Option Tag} {k : LeaseState}
    (h : Spent g l d r (s.record i)) (hl : s.lease j = .granted t d' w u) (hk : k ≠ .free) :
    Spent g l d r ((s.setLease j k).record i) := by
  by_cases hij : i = j
  · subst hij
    rw [State.record_setLease_self]
    rcases h with ⟨-, ⟨w, h⟩ | ⟨c, k, h⟩ | h⟩ | ⟨hg, -⟩
    · cases hl.symm.trans h
    · cases hl.symm.trans h
    · cases hl.symm.trans h
    · exact .inr ⟨hg, hk⟩
  · rwa [s.record_setLease_of_ne j i k hij]

theorem spent_entryLeaves (e : Entry) (h : Spent g l d r (s.record i)) : Spent g l d r ((entryLeaves e s).record i) := by
  refine h.withoutUpgrade (generation_entryLeaves s i e) ?_
  rw [show ((entryLeaves e s).record i).state = _ from lease_entryLeaves s i e]
  split
  · exact .inl rfl
  · split
    · exact .inr rfl
    · exact .inl rfl

theorem spent_endUpgrade (j : Slot) (c : Result) (h : Spent g l d r (s.record i)) :
    Spent g l d r ((endUpgrade j c s).record i) := by
  rcases endUpgrade_cases s j c with hu | ⟨_, _, _, _, e, -, -, hu⟩ <;> rw [hu]
  · exact h
  · exact spent_entryLeaves e h

theorem spent_curtails {u : State} (hc : Curtails j s u) (h : Spent g l d r (s.record i)) : Spent g l d r (u.record i) := by
  cases hc with
  | nothing => exact h
  | told c t k n live tenure forward handle =>
    show Spent g l d r (((endUpgrade j c s).setLease j k).record i)
    by_cases hij : i = j
    · subst hij
      rw [State.record_setLease_self]
      rcases h with ⟨hg, ⟨w, h⟩ | ⟨_, _, h⟩ | h⟩ | ⟨hg, -⟩
      · replace h : s.lease i = _ := h
        rw [h] at live
        cases live
        rcases forward with hn | ⟨c', x, rfl⟩
        · exact absurd h (hn _ _ _)
        · exact .inl ⟨(generation_endUpgrade s i i c).trans hg, .inr (.inl ⟨c', x, rfl⟩)⟩
      · rw [State.lease, h] at live; cases live
      · rw [State.lease, h] at live; cases live
      · exact .inr ⟨(generation_endUpgrade s i i c).trans hg, by rintro rfl; cases tenure⟩
    · rw [State.record_setLease_of_ne _ j i k hij]
      exact spent_endUpgrade j c h

theorem spent_allocate (p : Port) (term : Nat) (spans : List ModeSpan) (h : Spent g l d r (s.record i)) :
    Spent g l d r ((allocate p term spans s).1.record i) := by
  obtain ⟨_, h⟩ := allocate_walk (Q := fun _ u => Spent g l d r (u.record i)) p term (fun u j m _ hf hu => by
    rw [record_allocateIn]
    split
    · subst_vars
      rcases hu with ⟨hg, -⟩ | ⟨-, hn⟩
      · exact .inr ⟨by rw [← hg], by simp⟩
      · exact absurd hf hn
    · exact hu) spans s h
  exact h

theorem spent_upgradeRecord (j : Slot) (h : Spent g l d r (s.record i)) : Spent g l d r ((upgradeRecord j s).record i) := by
  unfold upgradeRecord
  split
  · exact h.of_granted ‹_› (by simp)
  · exact h

theorem spent_admitEntry (e : Entry) (h : Spent g l d r (s.record i)) : Spent g l d r ((admitEntry e s).record i) := by
  unfold admitEntry
  dsimp only
  split
  · exact h
  · split
    · exact Spent.of_granted (s := { s with waiting := s.waiting ++ [e] }) h ‹_› (by simp)
    · exact h

end

theorem moves_spent (g : Generation) (l : Tenure) (d r : Tick) (i : Slot) : Moves fun s => Spent g l d r (s.record i) where
  counted _ _ _ _ _ _ h := h
  quiet _ _ _ _ h := h
  pulled _ _ h := h
  responded _ _ _ _ _ h := h
  noticesTaken _ _ _ _ h := h
  sessionOpened _ _ _ h := h
  appeared _ _ _ h := h
  ended _ e _ _ _ h := spent_entryLeaves e h
  recallBegun s j h := spent_curtails (curtails_beginRecall s j) h
  revoked s j c h := spent_curtails (curtails_revoke s j c) h
  fenced s p h := by
    have entries : Spent g l d r ((fenceEntries p s).record i) := by
      refine h.withoutUpgrade (by rw [fenceEntries, generation_dropEntriesOf]; rfl) ?_
      rw [show ((fenceEntries p s).record i).state = _ from lease_dropEntriesOf _ p i]
      split
      · exact .inr rfl
      · exact .inl rfl
    obtain ⟨u, hu, hf⟩ := fencePort_induction p (fun v j _ _ _ hv => spent_curtails (curtails_revoke v j .fenced) hv) s entries
    rw [hf]
    exact hu
  entryGranted s e _ _ _ _ h := by
    have left := spent_entryLeaves e h
    obtain ⟨u, r, hu, hg⟩ := grantEntry_cases (P := fun u => Spent g l d r (u.record i)) e s
      (fun spans term _ _ => spent_allocate e.port term spans left) (fun k _ _ _ => spent_upgradeRecord k.slot left) left
    rw [hg]
    exact hu
  acquired _ p term spans _ _ _ _ h := spent_allocate p term spans h
  upgradedNow _ _ j _ _ _ _ _ _ _ h := spent_upgradeRecord j h
  acquireAdmitted _ e _ _ _ _ _ _ _ _ _ _ h := spent_admitEntry e h
  upgradeAdmitted _ e _ _ _ _ _ _ _ _ _ _ _ _ _ h := spent_admitEntry e h
  shared _ _ _ _ _ _ hl h := h.of_granted hl (by simp)
  retimed _ _ _ _ _ _ _ _ hl h := h.of_granted hl (by simp)
  unwarned s j t d' w k w' hl h := by
    by_cases hij : i = j
    · subst hij
      rw [State.record_setLease_self]
      rcases h with ⟨hg, ⟨w₀, h⟩ | ⟨_, _, h⟩ | h⟩ | ⟨hg, -⟩
      · cases hl.symm.trans h
        exact .inl ⟨hg, .inl ⟨w', rfl⟩⟩
      · cases hl.symm.trans h
      · cases hl.symm.trans h
      · exact .inr ⟨hg, by simp⟩
    · rwa [s.record_setLease_of_ne j i _ hij]
  warned _ _ _ _ _ _ _ h := h

/-- A record that is RECALLING now, through a command that is no reset. -/
theorem acts_spent {a : LeaseRecord} {l : Tenure} {d r : Tick} {w : Option Tick} (i : Slot) (ha : a.state = .recalling l d w r) :
    Acts (fun s => s.record i = a) (fun s => Spent a.generation l d r (s.record i))
      (fun s => Spent a.generation l d r (s.record i)) := by
  have begun : ∀ s : State, s.record i = a → Spent a.generation l d r (s.record i) :=
    fun s h => by rw [h]; exact .inl ⟨rfl, .inl ⟨w, ha⟩⟩
  have freed : ∀ (s : State) (j : Slot), (s.record i).generation = a.generation → Spent a.generation l d r (s.record i) →
      Spent a.generation l d r ((freeRecord j s).record i) := by
    intro s j hg h
    by_cases hij : i = j
    · subst hij
      rw [freeRecord, State.record_setLease_self]
      exact .inl ⟨hg, .inr (.inr rfl)⟩
    · rwa [freeRecord, s.record_setLease_of_ne j i _ hij]
  exact {
    taken := fun _ _ h => h
    settles := fun _ _ _ _ h => h
    moves := moves_spent a.generation l d r i
    later := moves_spent a.generation l d r i
    begun := begun
    done := fun _ h => h
    started := fun s _ h => begun s h
    configured := fun s _ _ _ _ _ _ h => begun s h
    tornDown := fun s p st _ h => by
      rw [record_tearDown]
      split
      · exact .inl ⟨by rw [h], .inr (.inr rfl)⟩
      · exact begun s h
    released := fun s p j _ c _ _ h => freed _ j (by rw [generation_endUpgrade, h]) (spent_endUpgrade j c (begun s h))
    acked := fun s p j _ _ _ _ _ h => freed s j (by rw [h]) (begun s h)
    written := fun s _ _ _ _ _ _ _ _ _ _ _ _ h => begun s h
    cleared := fun s _ h => begun s h }

/-- Settles O59: no move but a reset or the freeing of the record ends a tombstone, and a freed slot is allocated under the next
generation. -/
theorem recallingNeverReturnsToGranted : Obligations.RecallingNeverReturnsToGranted := by
  intro s t i l d w r hl he
  rcases (acts_spent i (show (s.record i).state = _ from hl)).stepOrBlank rfl he with spent | blank
  · rcases spent with ⟨-, ⟨w', h⟩ | ⟨c, k, h⟩ | h⟩ | ⟨h, -⟩
    · exact .inl ⟨w', h⟩
    · exact .inr (.inl ⟨c, k, h⟩)
    · exact .inr (.inr (.inl h))
    · exact .inr (.inr (.inr h))
  · exact .inr (.inr (.inl (blank.lease i)))

end Sys2Proof.Machine
end

section
/-!
PROOFS. Bytes: a built request frame is intact and read back (R154, R155, R158), a request body is read back from its bytes (R159,
R160), and the bytes of a PUSH are its command (R152 to R156).
-/

namespace Sys2Proof

/-! ### The request frame -/

section

variable (kind : Byte) (tag : Tag) (body : List Byte)

/-- A built frame's head: kind, tag, length and body. -/
def requestHead : List Byte := kind :: tag :: leBytes 2 body.length ++ body

theorem requestFrame_eq : requestFrame kind tag body = requestHead kind tag body ++ crcField (requestHead kind tag body) := rfl

@[simp] theorem length_requestHead : (requestHead kind tag body).length = 4 + body.length := by
  simp [requestHead]; omega

@[simp] theorem frameKind_requestFrame : frameKind (requestFrame kind tag body) = kind := rfl

@[simp] theorem frameTag_requestFrame : frameTag (requestFrame kind tag body) = tag := rfl

variable {body}

theorem frameLength_requestFrame (h : body.length ≤ 272) : frameLength (requestFrame kind tag body) = body.length :=
  leValue_leBytes_two body.length (by omega)

theorem frameBody_requestFrame (h : body.length ≤ 272) : frameBody (requestFrame kind tag body) = body := by
  rw [frameBody, frameLength_requestFrame kind tag h]
  show (body ++ _).take body.length = body
  exact List.take_left

theorem frameIntact_requestFrame (h : body.length ≤ 272) : frameIntact (requestFrame kind tag body) = true := by
  have hlen := length_requestHead kind tag body
  simp only [frameIntact, frameLength_requestFrame kind tag h, length_requestFrame, maxBody, Bool.and_eq_true,
    decide_eq_true_eq, beq_iff_eq]
  refine ⟨⟨⟨by omega, h⟩, by omega⟩, ?_⟩
  rw [requestFrame_eq, ← hlen, List.drop_left, List.take_left]

end

/-- Settles O42: the length field and the CRC are those that the integrity check computes again. -/
theorem requestFrameRoundTrip : Obligations.RequestFrameRoundTrip := fun kind tag _ h =>
  ⟨frameIntact_requestFrame kind tag h, rfl, rfl, frameBody_requestFrame kind tag h, length_requestFrame _ _ _⟩

/-- The kind that a kind's code names is the kind. -/
@[simp] theorem kindOfCode_kindCode (k : Kind) : kindOfCode (kindCode k) = some k := by cases k <;> rfl

end Sys2Proof

namespace Sys2Proof.Machine

/-! ### Request bodies -/

section

variable (h : Handle)

@[simp] theorem length_handleBody : (handleBody h).length = 2 := rfl
@[simp] theorem length_handleNumberBody (n : Nat) : (handleNumberBody h n).length = 6 := rfl
@[simp] theorem length_setBody (i q : Byte) (v : Nat) : (setBody i q v).length = 6 := rfl
@[simp] theorem length_readBody (a n : Nat) : (readBody h a n).length = 8 := rfl

@[simp] theorem length_writeBody (a : Nat) (bs : List Byte) : (writeBody h a bs).length = 8 + bs.length := by
  simp [writeBody]

theorem handleOfValue_leBytes :
    handleOfValue (leValue [BitVec.ofNat 8 h.value, BitVec.ofNat 8 (h.value / 256)]) = h := by
  rw [leValue_leBytes_two _ h.value_lt, handleOfValue_value]

@[simp] theorem parseHandle_handleBody : parseHandle (handleBody h) = some h :=
  congrArg some (handleOfValue_leBytes h)

theorem parseHandleNumber_body {n : Nat} (hn : n < 4294967296) : parseHandleNumber (handleNumberBody h n) = some (h, n) :=
  congrArg some (Prod.ext (handleOfValue_leBytes h) (leValue_leBytes_four n hn))

theorem parseSet_setBody (i q : Byte) {v : Nat} (hv : v < 4294967296) : parseSet (setBody i q v) = some (i, q, v) :=
  congrArg (fun x => some (i, q, x)) (leValue_leBytes_four v hv)

/-- The fields of a READ or WRITE are read back whatever bytes follow them. -/
theorem parseAccess_readBody_append {a n : Nat} (ha : a < 4294967296) (hn : n < 65536) (bs : List Byte) :
    parseAccess (readBody h a n ++ bs) = some (h, a, n, bs) := by
  show some (_, _, _, bs) = _
  rw [handleOfValue_leBytes, leValue_leBytes_four a ha, leValue_leBytes_two n hn]

theorem parseAccess_readBody {a n : Nat} (ha : a < 4294967296) (hn : n < 65536) :
    parseAccess (readBody h a n) = some (h, a, n, []) := by
  simpa using parseAccess_readBody_append h ha hn []

theorem parseAccess_writeBody {a : Nat} {bs : List Byte} (ha : a < 4294967296) (hb : bs.length < 65536) :
    parseAccess (writeBody h a bs) = some (h, a, bs.length, bs) :=
  parseAccess_readBody_append h ha hb bs

end

/-! ### ACQUIRE's body -/

@[simp] theorem modeOfByte_modeCode (m : Mode) : modeOfByte (BitVec.ofNat 8 (modeCode m)) = some m := by cases m <;> rfl

/-- Valid spans are read back, one after another. -/
theorem parseSpans_flatMap (ms : List ModeSpan) (h : ∀ m ∈ ms, m.span.valid = true) :
    parseSpans (ms.flatMap spanBody) = some ms := by
  induction ms with
  | nil => rfl
  | cons m ms ih =>
    have valid := h m (by simp)
    obtain ⟨mode, first, count⟩ := m
    have bounds : 1 ≤ count ∧ count ≤ 64 ∧ first + count ≤ 512 := by simpa [Span.valid, and_assoc] using valid
    have hfirst : leValue [BitVec.ofNat 8 first, BitVec.ofNat 8 (first / 256)] = first :=
      leValue_leBytes_two first (by omega)
    have hcount : (BitVec.ofNat 8 count).toNat = count := by rw [BitVec.toNat_ofNat]; omega
    show parseSpans (BitVec.ofNat 8 (modeCode mode) :: BitVec.ofNat 8 first :: BitVec.ofNat 8 (first / 256) ::
      BitVec.ofNat 8 count :: ms.flatMap spanBody) = _
    simp only [parseSpans, modeOfByte_modeCode, ih fun m hm => h m (by simp [hm]), hfirst, hcount]
    exact if_pos valid

theorem length_acquireBody (r : AcquireRequest) : (acquireBody r).length = 9 + 4 * r.spans.length := by
  have spans : ∀ ms : List ModeSpan, (ms.flatMap spanBody).length = 4 * ms.length := by
    intro ms
    induction ms with
    | nil => rfl
    | cons m ms ih => simp [List.flatMap_cons, spanBody, byteOf, ih]; omega
  simp [acquireBody, byteOf, spans]
  omega

theorem parseAcquire_acquireBody (r : AcquireRequest) (ht : r.term < 4294967296) (hw : r.wait < 4294967296)
    (h1 : 1 ≤ r.spans.length) (h4 : r.spans.length ≤ 4) (hv : ∀ m ∈ r.spans, m.span.valid = true) :
    parseAcquire (acquireBody r) = some r := by
  have hcount : (BitVec.ofNat 8 r.spans.length).toNat = r.spans.length := by rw [BitVec.toNat_ofNat]; omega
  obtain ⟨term, wait, spans⟩ := r
  simp only [acquireBody, leBytes, byteOf, List.cons_append, List.nil_append, parseAcquire, parseSpans_flatMap spans hv,
    leValue_leBytes_four term ht, leValue_leBytes_four wait hw, hcount]
  simp [h1, h4]

/-- Settles O44: each field is read back from its bytes, and an ACQUIRE's span entries by induction on them. -/
theorem requestBodiesRoundTrip : Obligations.RequestBodiesRoundTrip :=
  ⟨parseHandle_handleBody, fun h _ hn => parseHandleNumber_body h hn, fun i q _ hv => parseSet_setBody i q hv,
    fun h _ _ ha hn => parseAccess_readBody h ha hn, fun h _ _ ha hb => parseAccess_writeBody h ha hb,
    parseAcquire_acquireBody⟩

/-! ### Bytes and commands -/

variable (k : Kind) (p : Port) (kind : Byte) (tag : Tag) {body : List Byte} (s : State)

/-- A taken built frame is an intact one of its kind byte. -/
theorem takeFrame_requestFrame (h : body.length ≤ 272) :
    takeFrame p (requestFrame kind tag body) s = takeIntact p kind tag body s := by
  simp [takeFrame, frameIntact_requestFrame kind tag h, frameBody_requestFrame kind tag h]

theorem takeIntact_kindCode (body : List Byte) : takeIntact p (kindCode k) tag body = takeKind k p tag body := by
  funext s
  simp [takeIntact]

/-- The PUSH of a frame by its fields is the PUSH of its bytes. -/
theorem pushFrame_eq_pushBytes (h : body.length ≤ 272) :
    pushFrame p kind tag body (takeIntact p kind tag body) s = pushBytes p (requestFrame kind tag body) s := by
  have taken : (fun u => if body.length ≤ maxBody then takeIntact p kind tag body u else answerBadFrame p kind tag u) =
      takeFrame p (requestFrame kind tag body) := by
    funext u
    rw [takeFrame_requestFrame p kind tag u h]
    exact if_pos h
  rw [pushFrame, pushBytes, taken, length_requestFrame, frameBytes]

/-- A transaction of type 0x5A is the PUSH of the bytes after its second. -/
theorem endBytes_push (byte1 : Byte) (f : List Byte) : endBytes p (typePush :: byte1 :: f) s = pushBytes p f s := rfl

/-- Settles O43: both are the PUSH of the same frame, which is intact and of its kind. -/
theorem pushedBytesAreTheCommand : Obligations.PushedBytesAreTheCommand := by
  intro k p tag body byte1 s h
  rw [exec_commandOf, ← takeIntact_kindCode, pushFrame_eq_pushBytes p _ tag s h]
  exact congrArg Host.Outcome.next (endBytes_push p s byte1 _)

end Sys2Proof.Machine
end

section
/-!
PROOFS. The link: frames that cannot be read, pushes at 0 credits, transactions without a frame, PULL and the fall of chip select
(chapters 7, 8 and 10).
-/

namespace Sys2Proof.Machine

section

variable {s : State} {p : Port}

/-! ### A PUSH of bytes -/

theorem pushBytes_taken {f : List Byte} (h : takesFrame s p = true) (hf : f ≠ []) :
    pushBytes p f s = takeFrame p f (afterPush s p f.length) :=
  endPush_taken _ _ h (by simpa using hf)

theorem takeFrame_not_intact {f : List Byte} (h : frameIntact f = false) :
    takeFrame p f s = answerBadFrame p (frameKind f) (frameTag f) s := by
  simp [takeFrame, h]

/-- The integrity check fails where a part of it does (R155). -/
theorem frameIntact_eq_false {f : List Byte} (h : f.length < 6 ∨ 272 < frameLength f ∨ f.length ≠ 4 + frameLength f + 2 ∨
    f.drop (4 + frameLength f) ≠ crcField (f.take (4 + frameLength f))) : frameIntact f = false := by
  rw [Bool.eq_false_iff]
  intro hi
  simp only [frameIntact, Bool.and_eq_true, decide_eq_true_eq, beq_iff_eq] at hi
  obtain ⟨⟨⟨long, short⟩, whole⟩, crc⟩ := hi
  rcases h with h | h | h | h
  · omega
  · exact absurd short (Nat.not_le.2 h)
  · exact h whole
  · exact h crc

/-- A kind byte that is none of R156's codes names no kind. -/
theorem kindOfCode_eq_none {c : Byte} (h : c ∉ allKinds.map kindCode) : kindOfCode c = none := by
  rw [kindOfCode, List.find?_eq_none]
  intro k hk
  simp only [beq_iff_eq]
  rintro rfl
  exact h (List.mem_map_of_mem hk)

/-- Settles O37: a frame that is taken is settled by its integrity first and its kind byte then. -/
theorem unreadableFramesAnswered : Obligations.UnreadableFramesAnswered := by
  intro p s ht
  refine ⟨fun f hf => ?_, fun kind tag body hb hk => ?_⟩
  · intro l hl
    exact congrArg Host.Outcome.next
      ((pushBytes_taken ht hf).trans (takeFrame_not_intact (frameIntact_eq_false hl)))
  · have unknown : takeIntact p kind tag body = answerBadKind p kind tag := by
      funext u
      simp only [takeIntact, kindOfCode_eq_none hk]
    show Host.Outcome.next (pushFrame p kind tag body (takeIntact p kind tag body) s) = _
    rw [pushFrame_taken _ _ _ _ ht hb, unknown]
    rfl

/-- Settles O38: the credits are looked at before the frame. -/
theorem pushAtZeroCreditsDiscarded : Obligations.PushAtZeroCreditsDiscarded := by
  intro p f s hs hf
  have nonempty : f.length ≠ 0 := by simpa using hf
  refine ⟨fun hc => ⟨?_, fun k tag body => ?_⟩, fun hc => ?_⟩
  · exact congrArg Host.Outcome.next (endPush_discarded _ _ hs hc nonempty)
  · rw [exec_commandOf, pushFrame, endPush_discarded _ _ hs hc (by simp [frameBytes]), frameBytes]
  · have taken : takesFrame s p = true := by simp [takesFrame, hs, hc]
    exact congrArg Host.Outcome.next (pushBytes_taken taken hf)

/-! ### Transactions that take and remove nothing -/

/-- In CLEARING, and with no whole frame byte, a PUSH settles nothing (R141, R154). -/
theorem settlePush_nothing {s : State} {m : Nat} {taken : State → State} (h : m = 0 ∨ s.phase = .clearing) :
    settlePush p m taken s = s := by
  rcases h with h | h <;> simp [settlePush, h]

/-- A port that is ABSENT, and any port while RESET# is asserted, answers no transaction (R111). -/
theorem answers_eq_false (h : (s.port p).state = .absent ∨ s.resetAsserted = true) : s.answers p = false := by
  rcases h with e | e <;> simp [State.answers, e]

theorem endIdle_settled (h : settles s p = true) (n : Nat) : endIdle p n s = afterTransaction s p n [] :=
  endTransaction_settled _ _ _ h

/-- A transaction that the part ignores, from its fall on or because the port does not answer, is over at its rise with nothing
else changed (R111). -/
theorem endTransaction_ends (h : (s.port p).transaction = .ignored ∨
      (s.port p).transaction = .none ∧ ((s.port p).state = .absent ∨ s.resetAsserted = true))
    (n : Nat) (shifted : Option Response → List Byte) (settlement : Option Response → State → State) :
    endTransaction p n shifted settlement s = s.modifyPort p fun h => { h with transaction := .none } := by
  rcases h with h | ⟨h, silent⟩
  · exact endTransaction_ignored n shifted settlement h
  · rw [endTransaction_silent n shifted settlement h (answers_eq_false silent),
      State.modifyPort_congr s p (fun h => { h with transaction := .none }) (g := fun h => h) (by rw [← h]),
      State.modifyPort_id]

/-- Settles O39: such a transaction settles nothing, or is not settled at all. -/
theorem transactionsWithoutFrame : Obligations.TransactionsWithoutFrame := by
  intro p s
  refine ⟨fun hs => ⟨fun f hc => ?_, fun rest hr => ?_, fun n => ?_, fun bs hb => ?_⟩, fun hi => ?_⟩
  · have clearing : (afterPush s p f.length).phase = .clearing := hc
    show Host.Outcome.next (endTransaction p (f.length + 2) _ _ s) = _
    rw [endTransaction_settled _ _ _ hs, afterPush_eq, settlePush_nothing (.inr clearing)]
  · show Host.Outcome.next (endTransaction p (rest.length + 1) _ _ s) = _
    rw [endTransaction_settled _ _ _ hs, settlePush_nothing (.inl (by omega))]
  · exact congrArg Host.Outcome.next (endIdle_settled hs n)
  · have idle : endBytes p bs s = endIdle p bs.length s := by
      cases bs with
      | nil => rfl
      | cons b rest =>
        obtain ⟨push, pull, -⟩ := hb b rfl
        simp [endBytes, typePush, typePull, push, pull]
    exact congrArg Host.Outcome.next (idle.trans (endIdle_settled hs _))
  · have ends := endTransaction_ends hi
    refine ⟨fun k tag body => ?_, fun f => ?_, fun kind tag body => ?_, fun rest => ?_, fun n => ?_, fun n => ?_, fun bs => ?_⟩
    · rw [exec_commandOf]
      exact congrArg Host.Outcome.next (ends _ _ _)
    · have bytes : pushBytes p f s = _ := ends _ _ _
      exact ⟨congrArg _ bytes, congrArg _ bytes, congrArg _ bytes⟩
    · exact congrArg Host.Outcome.next (ends _ _ _)
    · exact congrArg Host.Outcome.next (ends _ _ _)
    · exact congrArg Host.Outcome.next (ends _ _ _)
    · exact congrArg Host.Outcome.next (ends _ _ _)
    · refine congrArg Host.Outcome.next (?_ : endBytes p bs s = _)
      unfold endBytes
      split
      · exact ends _ _ _
      · split
        · exact ends _ _ _
        · split
          · exact ends _ _ _
          · exact ends _ _ _

/-! ### PULL -/

theorem endPull_settled (n : Nat) (h : settles s p = true) :
    endPull p n s = settlePull p n (fixedHead s p) (afterTransaction s p n (pulledFrame (fixedHead s p))) :=
  endTransaction_settled _ _ _ h

/-- Settles O40: the head fixed at the fall decides what is shifted and, by its length, whether it is removed. -/
theorem pullRemovesTheShiftedHead : Obligations.PullRemovesTheShiftedHead := by
  intro p n s hs
  have pull : exec (.pull p n) s = .next (endPull p n s) := rfl
  refine ⟨fun r hr => ⟨fun hn => ?_, fun hn => ?_⟩, fun hr => ?_⟩ <;> rw [pull, endPull_settled n hs, hr]
  · rw [settlePull, if_pos hn]
    rfl
  · rw [settlePull, if_neg (by omega)]
    rfl
  · rfl

/-! ### The fall of chip select -/

/-- A bit of a byte built from its number. -/
theorem getLsbD_ofNat_byte {n i : Nat} {b : Bool} (hi : i < 8) (h : n / 2 ^ i % 2 = flagBit b) :
    (BitVec.ofNat 8 n).getLsbD i = b := by
  rw [BitVec.getLsbD_ofNat, decide_eq_true hi, Nat.testBit_eq_decide_div_mod_eq, h]
  cases b <;> rfl

theorem flagBit_le_one (b : Bool) : flagBit b ≤ 1 := by cases b <;> decide

/-- Status byte 0, field by field (R153). -/
theorem statusByte0_fields (s : State) (p : Port) :
    (s.statusByte0 p).toNat % 32 = s.credits p ∧ (s.statusByte0 p).getLsbD 5 = s.respPending p ∧
      (s.statusByte0 p).getLsbD 6 = s.noticePending p ∧ (s.statusByte0 p).getLsbD 7 = (s.port p).overrun := by
  have credits : s.credits p ≤ 16 := Nat.sub_le _ _
  have resp := flagBit_le_one (s.respPending p)
  have notice := flagBit_le_one (s.noticePending p)
  have overrun := flagBit_le_one (s.port p).overrun
  unfold State.statusByte0
  refine ⟨?_, getLsbD_ofNat_byte (by decide) ?_, getLsbD_ofNat_byte (by decide) ?_, getLsbD_ofNat_byte (by decide) ?_⟩
  · rw [BitVec.toNat_ofNat]; omega
  all_goals norm_num; omega

/-- Status byte 1, field by field (R153). -/
theorem statusByte1_fields (s : State) (p : Port) :
    (s.statusByte1 p).toNat % 4 = portStateCode (s.port p).state ∧ (s.statusByte1 p).toNat / 4 % 4 = phaseCode s.phase ∧
      (s.statusByte1 p).getLsbD 4 = (s.phase != .clearing) ∧ (s.statusByte1 p).toNat < 32 := by
  unfold State.statusByte1
  cases (s.port p).state <;> cases s.phase <;> decide

theorem chipSelectFalls_begins (h : (s.port p).transaction = .none) :
    chipSelectFalls p s =
      s.modifyPort p fun h => { h with transaction := if s.answers p then fixedAtFall p s else .ignored } := by
  simp [chipSelectFalls, h]

/-- Settles O41: the fall fixes the two status bytes and the head frame, whose fields are read off them. -/
theorem chipSelectFixesStatus : Obligations.ChipSelectFixesStatus := by
  intro p s
  refine ⟨fun hn ha hr => ?_, fun hn silent => ?_, fun hn => ?_⟩
  · have answers : s.answers p = true := by simp [State.answers, ha, hr]
    obtain ⟨credits, resp, notice, overrun⟩ := statusByte0_fields s p
    obtain ⟨state, phase, ready, bound⟩ := statusByte1_fields s p
    refine ⟨s.statusByte0 p, s.statusByte1 p, _, ?_, credits, resp, notice, overrun, state.trans ?_, phase.trans ?_, ready,
      bound, rfl⟩
    · show Host.Outcome.next (chipSelectFalls p s) = _
      rw [chipSelectFalls_begins hn, answers]
      rfl
    · cases (s.port p).state <;> rfl
    · cases s.phase <;> rfl
  · show Host.Outcome.next (chipSelectFalls p s) = _
    rw [chipSelectFalls_begins hn, answers_eq_false silent]
    rfl
  · refine congrArg Host.Outcome.next (?_ : chipSelectFalls p s = s)
    cases ht : (s.port p).transaction with
    | none => exact absurd ht hn
    | running => simp [chipSelectFalls, ht]
    | ignored => simp [chipSelectFalls, ht]

end

end Sys2Proof.Machine
end

section
/-!
PROOFS. The array: a byte changes only by power-on clearing or by a WRITE under an EXCLUSIVE lease (R99). Every move but a WRITE
leaves the array alone; a WRITE is traced back to the frame that the command pushes.
-/

namespace Sys2Proof.Machine

section

variable {s : State} {p : Port} {tag : Tag} {body : List Byte}

/-! ### READ's and WRITE's checks, passed -/

/-- A READ or WRITE whose handle resolves to a live lease (R96 and R98, steps 1 to 5). -/
theorem accessChecks_ok {k : Kind} {l : Tenure} {a n : Nat} {bs : List Byte}
    (h : accessChecks k p tag body s = .ok (l, a, n, bs)) :
    commonCheck k p tag s = none ∧
      ∃ g, parseAccess body = some (g, a, n, bs) ∧ s.resolves p g = true ∧ (s.lease g.slot).live? = some l := by
  unfold accessChecks at h
  split at h
  · cases h
  · refine ⟨‹_›, ?_⟩
    split at h
    · cases h
    · split at h
      · split at h
        · cases h
        · cases h
          exact ⟨_, ‹_›, ‹_›, ‹_›⟩
      · cases h

/-- A WRITE that passes its checks (R98). -/
theorem writeChecks_ok {g a : Nat} {bs : List Byte} (h : writeChecks p tag body s = .ok (g, a, bs)) :
    ∃ l, accessChecks .write p tag body s = .ok (l, a, bs.length, bs) ∧ l.mode = .exclusive ∧
      withinSpan l.span a bs.length = true := by
  unfold writeChecks at h
  split at h
  · cases h
  · rename_i l a' n bs' hacc
    split at h
    · cases h
    · split at h
      · cases h
      · split at h
        · cases h
        · rename_i exclusive fits within
          cases h
          obtain rfl : bs.length = n := by
            by_contra hne
            exact fits (.inr hne)
          exact ⟨l, hacc, by simpa using exclusive, by simpa using within⟩

/-! ### What leaves the array alone -/

theorem moves_array (m : Memory) : Moves fun s => s.array = m :=
  (Grants.of_device fun _ _ array _ _ h => array.trans h).moves

/-- A taken frame of every kind but WRITE leaves the array alone. -/
theorem array_takeKind (ht : Taken s p) {k : Kind} (hk : k ≠ .write) : (takeKind k p tag body s).array = s.array := by
  have M := moves_array s.array
  cases k with
  | write => exact absurd rfl hk
  | leave => exact M.settled ht _ _ _ (fun _ _ => M.scan rfl) rfl
  | start => exact M.settled ht _ _ _ (fun _ _ => rfl) rfl
  | set => exact M.settled ht _ _ _ (fun _ _ => rfl) rfl
  | release => exact M.settled ht _ _ _ (fun i _ => M.scan (Relaxes.endUpgrade s i .cancelled).array) rfl
  | ackRevoked => exact M.settled ht _ _ _ (fun _ _ => rfl) rfl
  | join => exact M.takeJoin ht rfl
  | getConfig => exact M.takeGetConfig ht rfl
  | time => exact M.takeTime ht rfl
  | sync => exact M.takeSync ht rfl
  | acquire => exact M.takeAcquire ht rfl
  | upgrade => exact M.takeUpgrade ht rfl
  | downgrade => exact M.takeDowngrade ht rfl
  | renew => exact M.takeRenew ht rfl
  | cancel => exact M.takeCancel ht rfl
  | query => exact M.takeQuery ht rfl
  | read => exact M.takeRead ht rfl
  | takeNotices => exact M.takeTakeNotices ht rfl

/-! ### A frame that stores -/

/-- A frame at a port is an intact WRITE of these bytes, under a live EXCLUSIVE lease of the port that covers them. -/
structure Stores (s : State) (p : Port) (f : List Byte) (h : Handle) (first : Nat) (bs : List Byte) (l : Tenure) : Prop where
  intact : frameIntact f = true
  kind : frameKind f = 0x21#8
  fields : parseAccess (frameBody f) = some (h, first, bs.length, bs)
  joined : (s.port p).state = .joined
  run : s.phase = .run
  resolves : s.resolves p h = true
  live : (s.lease h.slot).live? = some l
  exclusive : l.mode = .exclusive
  within : withinSpan l.span first bs.length = true

theorem Stores.port {f : List Byte} {h : Handle} {first : Nat} {bs : List Byte} {l : Tenure} (w : Stores s p f h first bs l) :
    l.port = p := by
  have held : s.holder? h.slot = some p := by
    have := w.resolves
    simp only [State.resolves, Bool.and_eq_true, beq_iff_eq] at this
    exact this.2
  exact port_of_holder? held (LeaseState.tenure?_of_live? w.live)

/-- The array after an act is as it was, or holds the bytes of a frame that stores. -/
def StoredBy (s : State) (p : Port) (f : List Byte) (m : Memory) : Prop :=
  m = s.array ∨ ∃ h first bs l, Stores s p f h first bs l ∧ m = writeBytes s.array first bs

theorem kindOfCode_write {c : Byte} (h : kindOfCode c = some .write) : c = 0x21#8 :=
  (eq_of_beq (List.find?_some (p := fun k => kindCode k == c) h)).symm

/-- A taken frame changes the array only as a WRITE that passes its checks. -/
theorem storedBy_takeFrame (ht : Taken s p) (f : List Byte) : StoredBy s p f (takeFrame p f s).array := by
  unfold takeFrame takeIntact
  split
  · rename_i intact
    split
    · exact .inl rfl
    · rename_i k hk
      by_cases hw : k = .write
      · subst hw
        show StoredBy s p f (takeWrite p (frameTag f) (frameBody f) s).array
        unfold takeWrite
        cases hc : writeChecks p (frameTag f) (frameBody f) s with
        | error r => exact .inl rfl
        | ok w =>
          obtain ⟨g, first, bs⟩ := w
          obtain ⟨l, hacc, exclusive, within⟩ := writeChecks_ok hc
          obtain ⟨common, h, fields, resolves, live⟩ := accessChecks_ok hacc
          obtain ⟨run, joined⟩ := running_of_commonCheck ht common rfl
          exact .inr ⟨h, first, bs, l, ⟨intact, kindOfCode_write hk, fields, joined, run, resolves, live, exclusive, within⟩, rfl⟩
      · exact .inl (array_takeKind ht hw)
  · exact .inl rfl

/-! ### A transaction -/

/-- What a transaction changes of the state, but for its settlement: nothing of the array, the phase, the records and the ports'
states. -/
def OnlyTransacts (p : Port) (s u : State) : Prop := ∃ x o, u = s.modifyPort p fun h => { h with transaction := x, sdo := o }

/-- A transaction that ends leaves the state but for the transaction, or settles it. -/
theorem endTransaction_cases (n : Nat) (shifted : Option Response → List Byte) (settlement : Option Response → State → State) :
    OnlyTransacts p s (endTransaction p n shifted settlement s) ∨
      ∃ head u, OnlyTransacts p s u ∧ endTransaction p n shifted settlement s = settlement head u := by
  by_cases hs : settles s p = true
  · exact .inr ⟨_, _, ⟨_, _, rfl⟩, endTransaction_settled n shifted settlement hs⟩
  · left
    cases ht : (s.port p).transaction with
    | ignored =>
      refine ⟨.none, (s.port p).sdo, (endTransaction_ignored n shifted settlement ht).trans ?_⟩
      exact State.modifyPort_congr _ _ _ rfl
    | running => simp [settles, ht] at hs
    | none =>
      refine ⟨(s.port p).transaction, (s.port p).sdo,
        (endTransaction_silent n shifted settlement ht (by simpa [settles, ht] using hs)).trans ?_⟩
      exact (State.modifyPort_id s p).symm.trans (State.modifyPort_congr _ _ _ rfl)

/-- A frame that stores in the state after a transaction alone stores in the state before it. -/
theorem StoredBy.before {u : State} {f : List Byte} {m : Memory} (hu : OnlyTransacts p s u) (h : StoredBy u p f m) :
    StoredBy s p f m := by
  obtain ⟨x, o, rfl⟩ := hu
  refine h.imp id fun ⟨h, first, bs, l, w, hm⟩ => ⟨h, first, bs, l, ?_, hm⟩
  exact { w with joined := by simpa using w.joined }

/-- A PUSH changes the array only as its frame does, where it is taken. -/
theorem storedBy_settlePush (f : List Byte) (m : Nat) (taken : State → State)
    (ht : Taken s p → StoredBy s p f (taken s).array) : StoredBy s p f (settlePush p m taken s).array := by
  unfold settlePush
  split
  · exact .inl rfl
  · split
    · exact .inl rfl
    · split
      · exact .inl rfl
      · split
        · exact .inl rfl
        · exact ht ⟨Nat.pos_of_ne_zero ‹_›, ‹_›, ‹_›⟩

theorem storedBy_endPush (f : List Byte) (m : Nat) (taken : State → State)
    (ht : ∀ u, Taken u p → StoredBy u p f (taken u).array) : StoredBy s p f (endPush p m taken s).array := by
  rcases endTransaction_cases (s := s) (p := p) (m + 2) (fun _ => []) (fun _ => settlePush p m taken)
    with ⟨x, o, h⟩ | ⟨_, u, hu, h⟩ <;> rw [endPush, h]
  · exact .inl rfl
  · exact (storedBy_settlePush f m taken (ht u)).before hu

theorem storedBy_pushBytes (f : List Byte) : StoredBy s p f (pushBytes p f s).array :=
  storedBy_endPush f _ _ fun _ hu => storedBy_takeFrame hu f

theorem storedBy_pushFrame (kind : Byte) :
    StoredBy s p (requestFrame kind tag body) (pushFrame p kind tag body (takeIntact p kind tag body) s).array := by
  by_cases h : body.length ≤ 272
  · rw [pushFrame_eq_pushBytes p kind tag s h]
    exact storedBy_pushBytes _
  · refine storedBy_endPush _ _ _ fun u _ => ?_
    rw [if_neg (show ¬body.length ≤ maxBody from h)]
    exact .inl rfl

/-! ### Commands and steps -/

/-- What a command may have done to the array: nothing, the clearing of it, or the storing of the frame that it pushes. -/
def ArrayTraced (c : Instr) (s t : State) : Prop :=
  t.array = s.array ∨ s.phase = .clearing ∨ c = .powerOn ∨ ∃ p f, Pushes c p f ∧ StoredBy s p f t.array

theorem arrayTraced_push {c : Instr} {t : State} {f : List Byte} (hc : Pushes c p f) (h : StoredBy s p f t.array) :
    ArrayTraced c s t := .inr (.inr (.inr ⟨p, f, hc, h⟩))

theorem arrayTraced_request (k : Kind) (p : Port) (tag : Tag) (body : List Byte) :
    ArrayTraced (commandOf k p tag body) s (pushFrame p (kindCode k) tag body (takeKind k p tag body) s) := by
  rw [← takeIntact_kindCode]
  exact arrayTraced_push (.inl ⟨k, tag, body, rfl, rfl⟩) (storedBy_pushFrame _)

theorem array_endPull (n : Nat) : (endPull p n s).array = s.array := by
  rcases endTransaction_cases (s := s) (p := p) n Machine.pulledFrame (settlePull p n)
    with ⟨x, o, h⟩ | ⟨head, u, ⟨x, o, hu⟩, h⟩ <;> rw [endPull, h]
  · rfl
  · subst hu
    unfold settlePull
    split
    · rfl
    · split <;> rfl

theorem array_endIdle (n : Nat) : (endIdle p n s).array = s.array := by
  rcases endTransaction_cases (s := s) (p := p) n (fun _ => []) (fun _ s => s)
    with ⟨x, o, h⟩ | ⟨head, u, ⟨x, o, hu⟩, h⟩ <;> rw [endIdle, h]
  · rfl
  · rw [hu]; rfl

theorem array_presentFalls : (presentFallsAct p s).array = s.array := by
  unfold presentFallsAct
  split
  · dsimp only
    split
    · rfl
    · exact (moves_array s.array).scan rfl
  · rfl

theorem array_clearing (h : s.clearingRuns = true) : s.phase = .clearing := by
  simp only [State.clearingRuns, Bool.and_eq_true, beq_iff_eq] at h
  exact h.1

theorem array_idle : (idle s).array = s.array ∨ s.phase = .clearing := by
  unfold idle
  split
  · exact .inl ((moves_array s.array).one ‹_› rfl)
  · unfold refclkPeriod
    split
    · exact .inr (array_clearing ‹_›)
    · left
      split
      · rfl
      · split
        · rfl
        · exact (moves_array s.array).ticked rfl

/-- The array's changes through each command. -/
theorem arrayTraced_exec (c : Instr) {t : State} (he : exec c s = .next t) : ArrayTraced c s t := by
  have M := moves_array s.array
  have ran : ∀ {u}, exec c s = .next u → ArrayTraced c s u → ArrayTraced c s t := by
    intro u hu h
    rw [he] at hu
    cases hu
    exact h
  cases c with
  | join p tag b => exact ran rfl (arrayTraced_request .join p tag b)
  | leave p tag b => exact ran rfl (arrayTraced_request .leave p tag b)
  | start p tag b => exact ran rfl (arrayTraced_request .start p tag b)
  | set p tag b => exact ran rfl (arrayTraced_request .set p tag b)
  | getConfig p tag b => exact ran rfl (arrayTraced_request .getConfig p tag b)
  | time p tag b => exact ran rfl (arrayTraced_request .time p tag b)
  | sync p tag b => exact ran rfl (arrayTraced_request .sync p tag b)
  | acquire p tag b => exact ran rfl (arrayTraced_request .acquire p tag b)
  | upgrade p tag b => exact ran rfl (arrayTraced_request .upgrade p tag b)
  | downgrade p tag b => exact ran rfl (arrayTraced_request .downgrade p tag b)
  | renew p tag b => exact ran rfl (arrayTraced_request .renew p tag b)
  | release p tag b => exact ran rfl (arrayTraced_request .release p tag b)
  | cancel p tag b => exact ran rfl (arrayTraced_request .cancel p tag b)
  | query p tag b => exact ran rfl (arrayTraced_request .query p tag b)
  | read p tag b => exact ran rfl (arrayTraced_request .read p tag b)
  | write p tag b => exact ran rfl (arrayTraced_request .write p tag b)
  | takeNotices p tag b => exact ran rfl (arrayTraced_request .takeNotices p tag b)
  | ackRevoked p tag b => exact ran rfl (arrayTraced_request .ackRevoked p tag b)
  | badKind p kind tag b =>
    exact ran rfl (arrayTraced_push (.inr (.inl ⟨kind, tag, b, rfl, rfl⟩)) (storedBy_pushFrame kind))
  | badFrame p f => exact ran rfl (arrayTraced_push (.inr (.inr (.inl rfl))) (storedBy_pushBytes f))
  | pushDiscarded p f => exact ran rfl (arrayTraced_push (.inr (.inr (.inr (.inl rfl)))) (storedBy_pushBytes f))
  | pushInClearing p f =>
    exact ran rfl (arrayTraced_push (.inr (.inr (.inr (.inr (.inl rfl))))) (storedBy_pushBytes f))
  | pushNoFrame p rest =>
    cases rest with
    | nil => exact ran rfl (.inl (array_endIdle 1))
    | cons b f =>
      exact ran rfl (arrayTraced_push (.inr (.inr (.inr (.inr (.inr (.inl ⟨b, rfl⟩)))))) (storedBy_pushBytes f))
  | pull p n => exact ran rfl (.inl (array_endPull n))
  | status p n => exact ran rfl (.inl (array_endIdle n))
  | otherTransaction p bs =>
    refine ran rfl ?_
    unfold endBytes
    split
    · exact .inl (array_endIdle 0)
    · rename_i b rest
      split
      · subst_vars
        cases rest with
        | nil => exact .inl (array_endIdle 1)
        | cons b f => exact arrayTraced_push (.inr (.inr (.inr (.inr (.inr (.inr ⟨b, rfl⟩)))))) (storedBy_pushBytes f)
      · split
        · exact .inl (array_endPull _)
        · exact .inl (array_endIdle _)
  | presentRises p => exact ran rfl (.inl (M.rose rfl))
  | presentFalls p => exact ran rfl (.inl array_presentFalls)
  | powerOn => exact .inr (.inr (.inl rfl))
  | clearingEnd =>
    refine ran rfl ?_
    split
    · exact .inr (.inl (array_clearing ‹_›))
    · exact .inl rfl
  | resetAsserted n =>
    refine ran rfl (.inl ?_)
    split <;> rfl
  | resetDeasserted =>
    refine ran rfl (.inl ?_)
    split <;> rfl
  | tickEvent =>
    refine ran rfl (.inl ?_)
    split
    · rfl
    · exact M.ticked rfl
  | leaseDeadline i => exact ran rfl (.inl (M.deadline _ rfl))
  | warningTick i => exact ran rfl (.inl (M.deadline _ rfl))
  | recallDeadline i => exact ran rfl (.inl (M.deadline _ rfl))
  | waitDeadline x => exact ran rfl (.inl (M.deadline _ rfl))
  | csFalls p =>
    refine ran rfl (.inl ?_)
    unfold chipSelectFalls
    split <;> rfl

/-- A byte that the storing of a run of bytes changes is one of them. -/
theorem readByte_changed {m : Memory} {a first : Nat} {bs : List Byte} (hm : memoryWf m = true)
    (h : readByte (writeBytes m first bs) a ≠ readByte m a) :
    first ≤ a ∧ a < first + bs.length ∧ some (readByte (writeBytes m first bs) a) = bs[a - first]? := by
  have inside : first ≤ a ∧ a < first + bs.length := by
    by_contra hn
    exact h (readByte_writeBytes_of_outside m first a bs (by omega))
  have read := readByte_writeBytes m first (a - first) bs hm (by omega)
  rw [show first + (a - first) = a by omega] at read
  exact ⟨inside.1, inside.2, read⟩

/-- Settles O58: the step's command is traced to the frame it pushes, whose bytes the changed byte is one of. -/
theorem bytesChangeOnlyUnderExclusiveLease : Obligations.BytesChangeOnlyUnderExclusiveLease := by
  intro s t a he hwf hne
  unfold step at he
  split at he
  · cases he
    rcases array_idle (s := s) with h | h
    · exact absurd (by rw [h]) hne
    · exact .inl h
  · rename_i c rest hp
    rcases arrayTraced_exec c he with h | h | h | ⟨p, f, pushes, h | ⟨h, first, bs, l, w, hm⟩⟩
    · exact absurd (by rw [h]) hne
    · exact .inl h
    · subst h
      exact .inr (.inl (by rw [hp]; rfl))
    · exact absurd (by rw [h]) hne
    · rw [hm] at hne ⊢
      obtain ⟨low, high, read⟩ := readByte_changed hwf hne
      have within := w.within
      simp only [withinSpan, Bool.and_eq_true] at within
      obtain rfl := w.port
      exact .inr (.inr ⟨c, f, h, first, bs.length, bs, l, by rw [hp]; rfl, pushes, w.intact, w.kind, w.fields, rfl, w.joined,
        w.run, w.resolves, w.live, w.exclusive, of_decide_eq_true within.1,
        of_decide_eq_true within.2, low, high, read⟩)

end

end Sys2Proof.Machine
end

section
/-!
PROOFS. Steps and the clock: the command at the front of the queue, REFCLK periods and ticks (chapter 5), and what each deadline
reached does to its owner (R45, R50, R70, R71).
-/

namespace Sys2Proof.Machine

/-- Settles O1. -/
theorem stepRunsFrontCommand : Obligations.StepRunsFrontCommand := fun _ _ _ => rfl

section

variable {s : State} {i : Slot} {t : Tenure}

/-! ### REFCLK periods and ticks -/

theorem periodsPerTick_eq (c : Fin 5) : periodsPerTick c = [200, 800, 6250, 50000, 400000].getD c.val 0 := by
  revert c
  decide

theorem takeOne_nothing (h : s.outstanding = []) : takeOne s = none := by
  unfold takeOne
  rw [h]

theorem takeOne_single {d : Deadline} (h : s.outstanding = [d]) : takeOne s = some (takeDeadline d s) := by
  unfold takeOne
  rw [h]

theorem takeReached_nothing (n : Nat) (h : s.outstanding = []) : takeReached n s = s := by
  cases n with
  | zero => rfl
  | succ n => simp only [takeReached, takeOne_nothing h]

theorem takeReached_single {d : Deadline} (n : Nat) (h : s.outstanding = [d]) (hd : (takeDeadline d s).outstanding = []) :
    takeReached (n + 1) s = takeDeadline d s := by
  simp only [takeReached, takeOne_single h, takeReached_nothing n hd]

theorem tickAct_nothing (h : s.outstanding = []) : tickAct s = { s with tick := s.tick + 1, prescaler := 0 } := by
  simp only [tickAct, takeReached_nothing maxDeadlines h]

/-- With no command waiting and no deadline outstanding a step is a REFCLK period. -/
theorem step_idle (hp : s.pending = []) (ho : s.outstanding = []) : step s = .next (refclkPeriod s) := by
  unfold step
  rw [hp]
  simp only [idle, takeOne_nothing ho]

theorem refclkPeriod_held (hc : s.clearingRuns = false) (hh : s.clockHeld = true) : refclkPeriod s = s := by
  simp [refclkPeriod, hc, hh]

theorem refclkPeriod_counts (hc : s.clearingRuns = false) (hh : s.clockHeld = false) : refclkPeriod s =
    if s.prescaler + 1 < periodsPerTick s.params.tickPeriod then { s with prescaler := s.prescaler + 1 } else tickAct s := by
  simp [refclkPeriod, hc, hh]

/-- Settles O2: a REFCLK period of a clock that is not held counts the prescaler or is a tick, with no deadline to take. -/
theorem idleStepCountsRefclk : Obligations.IdleStepCountsRefclk := by
  intro s hp ho hc
  rw [step_idle hp ho]
  refine ⟨fun hh => by rw [refclkPeriod_held hc hh], fun hh => ?_⟩
  rw [refclkPeriod_counts hc hh, periodsPerTick_eq]
  refine ⟨fun hlt => by rw [if_pos hlt], fun hle => ?_⟩
  rw [if_neg (Nat.not_lt.2 hle), tickAct_nothing ho]

/-- Settles O3: a tick event takes what is reached first. -/
theorem tickEventAdvancesCounter : Obligations.TickEventAdvancesCounter := by
  intro s
  have run : exec .tickEvent s = .next (if s.clockHeld then s else tickAct s) := rfl
  rw [run]
  refine ⟨fun hh => by rw [hh]; rfl, fun hh ho => ?_, fun hh d ho hd => ?_⟩ <;> rw [hh, if_neg Bool.false_ne_true]
  · rw [tickAct_nothing ho]
  · simp only [tickAct, maxDeadlines, takeReached_single 223 ho hd]

/-! ### A deadline reached -/

theorem takeDeadline_not_reached {d : Deadline} (h : s.deadlineValue? d ≠ some s.tick) : takeDeadline d s = s :=
  if_neg (by simpa [State.reached] using h)

theorem reached_of_value {d : Deadline} (h : s.deadlineValue? d = some s.tick) : s.reached d = true := by
  simp [State.reached, h]

/-- The lease of an UPGRADE entry that ends loses its pending upgrade and nothing else. -/
theorem lease_endEntry_upgrade {d : Tick} {w : Option Tick} {u : Option Tag} {e : Entry} {sp : Span} (r : Result) (b : Body)
    (hl : s.lease i = .granted t d w u) (hc : e.claim = .upgrade (s.handleOf i) sp) :
    (endEntry e r b s).lease i = .granted t d w none := by
  rw [endEntry_eq, State.lease_modifyPort, lease_entryLeaves, hc]
  simp [hl, LeaseState.withoutUpgrade]

/-- A live lease with a pending upgrade revoked: the upgrade's entry ends REVOKED first (R68). -/
theorem revoke_pending {d : Tick} {w : Option Tick} {tag : Tag} {e : Entry} {sp : Span} (c : Cause)
    (hl : s.lease i = .granted t d w (some tag)) (he : s.entryWithTag? t.port tag = some e)
    (hc : e.claim = .upgrade (s.handleOf i) sp) :
    revoke i c s = revoke i c (endEntry e .revoked .empty s) := by
  have once := endUpgrade_granted_none (endEntry e .revoked .empty s) i .revoked (lease_endEntry_upgrade _ _ hl hc)
  simp only [revoke, endUpgrade_pending s i e .revoked hl he, once]

/-- Settles O4: the revocation of a live lease with no upgrade pending, after the end of the one that is. -/
theorem leaseDeadlineRevokes : Obligations.LeaseDeadlineRevokes := by
  intro i s t
  have acts : (s.lease i).deadline? = some s.tick →
      exec (.leaseDeadline i) s = .next (grantScan (revoke i .expired s)) := fun h =>
    congrArg Host.Outcome.next (if_pos (reached_of_value (d := .lease i) h))
  refine ⟨fun w hl => ?_, fun w r hl => ?_, fun w tag e sp hl he hc => ?_, fun hn => ?_⟩
  · rw [acts (by rw [hl]; rfl), revoke_live s i .expired (by rw [hl]; rfl) (by simp [hl])]
  · rw [acts (by rw [hl]; rfl), revoke_live s i .expired (by rw [hl]; rfl) (by simp [hl])]
  · have left := lease_endEntry_upgrade .revoked .empty hl hc
    have tick : (endEntry e .revoked .empty s).tick = s.tick := tick_entryLeaves s e
    rw [acts (by rw [hl]; rfl), revoke_pending .expired hl he hc,
      revoke_live _ i .expired (by rw [left]; rfl) (by simp [left]), tick]
  · exact congrArg Host.Outcome.next (takeDeadline_not_reached (d := .lease i) hn)

/-- Settles O5: by the state of the record whose warning tick it is. -/
theorem warningTickTellsHolder : Obligations.WarningTickTellsHolder := by
  intro i s t d
  have acts : (s.lease i).warning? = some s.tick → exec (.warningTick i) s = .next (warningTickAct i s) := fun h =>
    congrArg Host.Outcome.next (if_pos (reached_of_value (d := .warning i) h))
  refine ⟨fun u hl => ?_, fun r hl => ?_, fun hn => ?_⟩
  · rw [acts (by rw [hl]; rfl)]
    simp only [warningTickAct, hl, LeaseState.withoutWarning]
  · rw [acts (by rw [hl]; rfl)]
    simp only [warningTickAct, hl, LeaseState.withoutWarning]
  · exact congrArg Host.Outcome.next (takeDeadline_not_reached (d := .warning i) hn)

/-- Settles O6: the revocation leaves the strike count alone, and the check made after the strike is the fence's. -/
theorem recallDeadlineStrikes : Obligations.RecallDeadlineStrikes := by
  intro i s t d w revoked strikes struck
  refine ⟨fun hl => ?_, fun hn => congrArg Host.Outcome.next (takeDeadline_not_reached (d := .recallEnds i) hn)⟩
  have value : s.deadlineValue? (.recallEnds i) = some s.tick := by
    show (s.lease i).recallAt? = _
    rw [hl]
    rfl
  have holder : s.holder? i = some t.port := by simp [State.holder?, LeaseState.holder?, hl, LeaseState.tenure?]
  have strike : countStrike t.port (revoke i .recallTimeout s) = struck := by
    rw [revoke_live s i .recallTimeout (by rw [hl]; rfl) (by simp [hl])]
    refine State.modifyPort_congr _ _ _ ?_
    simp [strikes, addNotice]
  have count : (struck.port t.port).strikes = strikes := by simp [struck]
  have acts : exec (.recallDeadline i) s = .next (grantScan (fenceCheck t.port struck)) := by
    refine (congrArg Host.Outcome.next (if_pos (reached_of_value value))).trans ?_
    simp only [recallDeadlineAct, holder, strike]
  have params : struck.params = s.params := rfl
  rw [acts, fenceCheck, params, count]
  refine ⟨fun h => ?_, fun h0 h => ?_⟩
  · rw [if_neg (by omega)]
  · rw [if_pos ⟨h0, h⟩]

/-- Settles O8: the command's deadline is that of the entry in its place. -/
theorem waitDeadlineEndsEntry : Obligations.WaitDeadlineEndsEntry := by
  intro x s
  refine ⟨fun e he hd => ?_, fun hn => ?_⟩
  · have value : s.deadlineValue? (.wait x) = some s.tick := by simp [State.deadlineValue?, he, hd]
    refine (congrArg Host.Outcome.next (if_pos (reached_of_value value))).trans ?_
    simp only [waitDeadlineAct, he]
  · refine congrArg Host.Outcome.next (takeDeadline_not_reached (d := .wait x) ?_)
    simpa [State.deadlineValue?] using hn

end

end Sys2Proof.Machine
end

section
/-!
PROOFS. Entries, recalls and the grant scan: what an entry's end leaves (R29, R31), how a recall begins (R63, R64), what a scan leaves
alone (R35, R40), and how it judges the waiting list in order (R32 to R38, R42).
-/

namespace Sys2Proof.Machine

/-! ### What entries, recalls and grants leave of the device -/

theorem sameDevice_entryLeaves (s : State) (e : Entry) : SameDevice s (entryLeaves e s) := by
  unfold entryLeaves
  split <;> exact .refl s

theorem sameDevice_endEntry (s : State) (e : Entry) (r : Result) (b : Body) : SameDevice s (endEntry e r b s) :=
  (sameDevice_entryLeaves s e).trans (sameDevice_modifyPort _ _ _)

theorem Curtails.sameDevice {i : Slot} {s u : State} (h : Curtails i s u) : SameDevice s u := by
  cases h with
  | nothing => exact .refl s
  | told r t l n live tenure forward handle =>
    have ended : SameDevice s (endUpgrade i r s) := by
      rcases endUpgrade_cases s i r with hu | ⟨_, _, _, _, e, -, -, hu⟩ <;> rw [hu]
      · exact .refl s
      · exact sameDevice_endEntry s e r .empty
    exact ended

theorem sameDevice_upgradeRecord (s : State) (i : Slot) : SameDevice s (upgradeRecord i s) := by
  unfold upgradeRecord
  split <;> exact .refl s

theorem sameDevice_grantEntry (s : State) (e : Entry) : SameDevice s (grantEntry e s) := by
  have left := sameDevice_entryLeaves s e
  obtain ⟨u, r, hu, h⟩ := grantEntry_cases (P := SameDevice s) e s
    (fun spans term _ _ => left.trans (allocate_frame e.port term spans).2.2)
    (fun h _ _ _ => left.trans (sameDevice_upgradeRecord _ h.slot)) left
  rw [h]
  exact hu

theorem sameDevice_grantScan (s : State) : SameDevice s (grantScan s) :=
  grantScan_induction (P := SameDevice s) (fun u i h => h.trans (curtails_beginRecall u i).sameDevice)
    (fun u e h _ _ _ _ => h.trans (sameDevice_grantEntry u e)) s (.refl s)

/-! ### The grant counter -/

theorem grantCounter_le_allocate (s : State) (p : Port) (term : Nat) (spans : List ModeSpan) :
    s.grantCounter ≤ (allocate p term spans s).1.grantCounter :=
  allocate_induction (Q := fun u => s.grantCounter ≤ u.grantCounter) p term (fun _ _ _ h => Nat.le_succ_of_le h) spans
    (Nat.le_refl _)

theorem grantCounter_le_upgradeRecord (s : State) (i : Slot) : s.grantCounter ≤ (upgradeRecord i s).grantCounter := by
  unfold upgradeRecord
  split
  · exact Nat.le_succ _
  · exact Nat.le_refl _

theorem grantCounter_le_grantEntry (s : State) (e : Entry) : s.grantCounter ≤ (grantEntry e s).grantCounter := by
  have left := grantCounter_entryLeaves s e
  obtain ⟨u, r, hu, h⟩ := grantEntry_cases (P := fun u => s.grantCounter ≤ u.grantCounter) e s
    (fun spans term _ _ => left ▸ grantCounter_le_allocate (entryLeaves e s) e.port term spans)
    (fun h _ _ _ => left ▸ grantCounter_le_upgradeRecord (entryLeaves e s) h.slot) left.ge
  rw [h]
  exact hu

theorem grantCounter_le_grantScan (s : State) : s.grantCounter ≤ (grantScan s).grantCounter :=
  grantScan_induction (P := fun u => s.grantCounter ≤ u.grantCounter)
    (fun u i h => (Relaxes.curtails (curtails_beginRecall u i)).counter ▸ h)
    (fun u e h _ _ _ _ => Nat.le_trans h (grantCounter_le_grantEntry u e)) s (Nat.le_refl _)

/-! ### The waiting list and the queues -/

theorem shortened_grantScan (s : State) : Shortened s.waiting (grantScan s).waiting :=
  grantScan_induction (P := fun u => Shortened s.waiting u.waiting)
    (fun u i h => h.trans (Relaxes.curtails (curtails_beginRecall u i)).waiting)
    (fun u e h he _ _ _ => by rw [waiting_grantEntry]; exact h.left e he) s .refl

@[simp] theorem queue_addNotice (s : State) (p q : Port) (n : Notice) :
    ((addNotice p n s).port q).queue = (s.port q).queue := by
  rw [addNotice, State.port_modifyPort]
  split <;> rfl

/-- A port without waiting entries gets no response from a recall or a revocation. -/
theorem Curtails.queue {i : Slot} {s u : State} {p : Port} (h : Curtails i s u) (waits : ∀ e ∈ s.waiting, e.port ≠ p) :
    (u.port p).queue = (s.port p).queue := by
  cases h with
  | nothing => rfl
  | told r t l n live tenure forward handle =>
    rw [queue_addNotice, State.port_setLease]
    rcases endUpgrade_cases s i r with hu | ⟨_, _, _, _, e, -, he, hu⟩ <;> rw [hu]
    rw [endEntry_eq, State.port_modifyPort_of_ne _ _ _ _ (waits e (List.mem_of_find?_eq_some he)).symm, port_entryLeaves]

theorem queue_grantScan {s : State} {p : Port} (waits : ∀ e ∈ s.waiting, e.port ≠ p) :
    ((grantScan s).port p).queue = (s.port p).queue := by
  have shorter : ∀ {u v : State}, Shortened u.waiting v.waiting → (∀ e ∈ u.waiting, e.port ≠ p) →
      ∀ e ∈ v.waiting, e.port ≠ p := by
    intro u v hs hu e he
    obtain ⟨g, hg, hkey⟩ := hs.mem he
    have port : g.port = e.port := congrArg (·.2.1) hkey
    exact port ▸ hu g hg
  refine (grantScan_induction (P := fun u => (∀ e ∈ u.waiting, e.port ≠ p) ∧ (u.port p).queue = (s.port p).queue)
    (fun u i ⟨hw, hq⟩ => ?_) (fun u e ⟨hw, hq⟩ he _ _ _ => ?_) s ⟨waits, rfl⟩).2
  · have c := curtails_beginRecall u i
    exact ⟨shorter (Relaxes.curtails c).waiting hw, (c.queue hw).trans hq⟩
  · obtain ⟨r, hr⟩ := ports_grantEntry u e
    refine ⟨shorter (by rw [waiting_grantEntry]; exact Shortened.refl.left e he) hw, ?_⟩
    have port : (grantEntry e u).port p = (queueResponse e.port r u).port p := by rw [State.port, State.port, hr]
    rw [port, queueResponse, State.port_modifyPort_of_ne _ _ _ _ (hw e he).symm, hq]

/-- Settles O12: what each grant and each recall of the walk leaves alone. -/
theorem grantScanFrame : Obligations.GrantScanFrame := fun s =>
  ⟨sameDevice_grantScan s, collects_grantScan s, (shortened_grantScan s).map (·.1), grantCounter_le_grantScan s,
    fun p h => queue_grantScan (by simpa [State.entriesOf, List.filter_eq_nil_iff] using h)⟩

/-! ### An entry's end and a recall's beginning -/

/-- Settles O9: of the list by what taking an entry out of it does, of the leases by what leaving does. -/
theorem endedEntryLeaves : Obligations.EndedEntryLeaves := by
  intro before after e r b s hw hx t pool
  have waiting : t.waiting = if e.source = .reserved then promoteFirst e.port (before ++ after) else before ++ after := by
    rw [← withoutEntry_split e hx, ← hw]
    exact waiting_entryLeaves s e
  have device := sameDevice_endEntry s e r b
  refine ⟨fun h => ?_, fun front first back hs hl hp hsrc hf => ?_, fun h sp l d w u hc hl => ⟨?_, fun i hi => ?_⟩,
    fun spans term hc => ?_, ?_, fun q hq => ?_, grantCounter_entryLeaves s e, device⟩
  · rw [waiting]
    split
    · rename_i hs
      refine promoteFirst_none _ fun a ha hp => ?_
      have hpool : pool = [] := h.resolve_left (by rw [hs]; decide)
      exact List.filter_eq_nil_iff.1 hpool a ha (by simp [hp])
    · rfl
  · rw [waiting, if_pos hs, hl, promoteFirst_first _ hp hsrc hf]
  · show (entryLeaves e s).lease h.slot = _
    rw [lease_entryLeaves, hc]
    simp [hl, LeaseState.withoutUpgrade]
  · show (entryLeaves e s).record i = _
    simp only [entryLeaves, hc]
    exact State.record_setLease_of_ne _ _ _ _ hi
  · show (entryLeaves e s).leases = _
    simp only [entryLeaves, hc]
  · rw [show t = _ from endEntry_eq s e r b, State.port_modifyPort_self, port_entryLeaves]
  · rw [show t = _ from endEntry_eq s e r b, State.port_modifyPort_of_ne _ _ _ _ hq, port_entryLeaves]

/-- A recall begun on a lease with a pending upgrade begins with the upgrade's end (R63). -/
theorem beginRecall_pending {s : State} {i : Slot} {t : Tenure} {d : Tick} {w : Option Tick} {tag : Tag} {e : Entry} {sp : Span}
    (hl : s.lease i = .granted t d w (some tag)) (he : s.entryWithTag? t.port tag = some e)
    (hc : e.claim = .upgrade (s.handleOf i) sp) : beginRecall i s = beginRecall i (endEntry e .recalled .empty s) := by
  have once := endUpgrade_granted_none _ i .recalled (lease_endEntry_upgrade .recalled .empty hl hc)
  simp only [beginRecall, endUpgrade_pending s i e .recalled hl he, once]

/-- Settles O11: by the state of the lease. -/
theorem recallBegins : Obligations.RecallBegins := fun i s =>
  ⟨fun _ _ _ hl => beginRecall_granted s i hl,
    fun _ _ _ _ _ _ hl he hc => ⟨lease_endEntry_upgrade .recalled .empty hl hc, beginRecall_pending hl he hc⟩,
    beginRecall_not_granted s i⟩

end Sys2Proof.Machine
end

section
/-!
PROOFS. The grant scan's order (R32 to R38, R40, R42): the head of the list is judged first, entries blocked behind a head that stays
cause nothing, and an entry that conflicts with an earlier one waits behind it.
-/

namespace Sys2Proof.Machine

section

variable {s u : State} {e : Entry} {rest : List Entry}

/-! ### The head of the list -/

/-- The head of the list has no entry before it, so its visit is a grant or recalls. -/
theorem visitEntry_head (hw : s.waiting = e :: rest) : visitEntry s e.index =
    if (s.holdersOff e.port e.claim.spans).isEmpty then grantEntry e s
    else beginRecalls (s.holdersOff e.port e.claim.spans) s := by
  simp [visitEntry, State.entryAt?, hw, earlierThan, blockedBy]

theorem grantScan_cons (hw : s.waiting = e :: rest) :
    grantScan s = (rest.map (·.index)).foldl visitEntry (visitEntry s e.index) := by
  rw [grantScan, hw]
  rfl

/-- A grantable head is granted or ends EXHAUSTED, and the walk goes on with the rest of the list. -/
theorem grantScan_grantable (hw : s.waiting = e :: rest) (hx : ∀ x ∈ rest, x.index ≠ e.index)
    (ho : s.holdersOff e.port e.claim.spans = []) : grantScan s = grantScan (grantEntry e s) := by
  have left : (grantEntry e s).waiting.map (·.index) = rest.map (·.index) := by
    rw [waiting_grantEntry, map_withoutEntry e (·.index) (fun _ _ => rfl), hw, List.filter_cons_of_neg (by simp),
      filter_index_ne hx]
  rw [grantScan_cons hw, visitEntry_head hw, ho, grantScan, left]
  rfl

/-! ### Entries blocked behind a head that stays -/

/-- What each recall of some leases keeps, the recalls of them all keep. -/
theorem beginRecalls_mem_induction {P : State → Prop} (is : List Slot) (step : ∀ s, ∀ i ∈ is, P s → P (beginRecall i s))
    (s : State) (h : P s) : P (beginRecalls is s) := by
  induction is generalizing s with
  | nil => exact h
  | cons i is ih => exact ih (fun s j hj => step s j (by simp [hj])) _ (step s i (by simp) h)

/-- The holders-off of a port are live leases of other ports (R33). -/
theorem port_ne_of_mem_holdersOff {p : Port} {ms : List ModeSpan} {i : Slot} (h : i ∈ s.holdersOff p ms) :
    ∃ t, (s.lease i).live? = some t ∧ t.port ≠ p := by
  simp only [State.holdersOff, List.mem_filter] at h
  obtain ⟨-, h⟩ := h
  split at h
  · rename_i t ht
    obtain ⟨b, -, hb⟩ := List.any_eq_true.1 h
    simp only [conflicts, Bool.and_eq_true, bne_iff_ne] at hb
    exact ⟨t, ht, hb.1.1⟩
  · cases h

/-- The head of a list of entries stays at its head when an entry of another index leaves. -/
theorem head_withoutEntry {f : Entry} (hf : f.index ≠ e.index) :
    (withoutEntry f (e :: rest)).head?.map Entry.key = some e.key := by
  rw [← List.head?_map, key_withoutEntry, List.filter_cons_of_pos (by simpa using hf.symm)]
  rfl

/-- Of the entries a recall changes none but that of the pending upgrade that it ends. -/
theorem waiting_beginRecall (s : State) (i : Slot) : (beginRecall i s).waiting = (endUpgrade i .recalled s).waiting := by
  unfold beginRecall
  dsimp only
  split <;> rfl

/-- Of the queues a recall changes none but that of the pending upgrade that it ends. -/
theorem queue_beginRecall (s : State) (i : Slot) (p : Port) :
    ((beginRecall i s).port p).queue = ((endUpgrade i .recalled s).port p).queue := by
  unfold beginRecall
  dsimp only
  split
  · rw [queue_addNotice, State.port_setLease]
  · rfl

/-- A state that some recalls of other ports' leases have led to from a list with this head: no lease has become live, no entry has
joined, and the head stands. -/
structure HeadStays (s : State) (e : Entry) (u : State) : Prop where
  relaxes : Relaxes s u
  head : u.waiting.head?.map Entry.key = some e.key

theorem HeadStays.cons (h : HeadStays s e u) : ∃ a as, u.waiting = a :: as ∧ a.key = e.key := by
  have head := h.head
  cases hl : u.waiting with
  | nil => rw [hl] at head; cases head
  | cons a as => rw [hl] at head; exact ⟨a, as, rfl, Option.some.inj head⟩

theorem HeadStays.beginRecall (hw : s.waiting = e :: rest) (hx : ∀ x ∈ rest, x.index ≠ e.index) (h : HeadStays s e u) {i : Slot}
    {ms : List ModeSpan} (hi : i ∈ s.holdersOff e.port ms) : HeadStays s e (beginRecall i u) := by
  obtain ⟨t, live, other⟩ := port_ne_of_mem_holdersOff hi
  refine ⟨h.relaxes.trans (.curtails (curtails_beginRecall u i)), ?_⟩
  rw [waiting_beginRecall]
  rcases endUpgrade_cases u i .recalled with hu | ⟨t', d, w, tag, f, hl, hf, hu⟩ <;> rw [hu]
  · exact h.head
  · have same : t' = t := by
      have := h.relaxes.live i t' (by rw [hl]; rfl)
      rw [live] at this
      exact (Option.some.inj this).symm
    have port : f.port = t'.port := by
      have := List.find?_some hf
      simp only [Bool.and_eq_true, beq_iff_eq] at this
      exact this.1
    obtain ⟨g, hg, hkey⟩ := h.relaxes.waiting.mem (List.mem_of_find?_eq_some hf)
    have gport : g.port = f.port := congrArg (·.2.1) hkey
    have gindex : g.index = f.index := congrArg (·.1) hkey
    have ne : f.index ≠ e.index := by
      rw [hw] at hg
      rcases List.mem_cons.1 hg with rfl | hg
      · exact absurd (by rw [gport, port, same]) other.symm
      · exact gindex ▸ hx g hg
    rw [show (endEntry f .recalled .empty u).waiting = _ from waiting_entryLeaves u f]
    obtain ⟨a, as, hl, head⟩ := h.cons
    rw [hl, head_withoutEntry (fun hfa => ne (hfa.trans (congrArg (·.1) head))), head]

/-- Where the head stands, a visit of an entry that conflicts with it does nothing. -/
theorem HeadStays.visitEntry (hw : s.waiting = e :: rest)
    (hc : ∀ w ∈ rest, anyConflict e.port e.claim.spans w.port w.claim.spans = true) (h : HeadStays s e u) {x : EntryIndex}
    (hx : x ≠ e.index) : visitEntry u x = u := by
  rcases visitEntry_cases u x with hv | ⟨f, hf, hb, -⟩
  · exact hv
  · exfalso
    have hfx : f.index = x := by simpa using List.find?_some hf
    obtain ⟨g, hg, hkey⟩ := h.relaxes.waiting.mem (List.mem_of_find?_eq_some hf)
    have gindex : g.index = f.index := congrArg (·.1) hkey
    have gport : g.port = f.port := congrArg (·.2.1) hkey
    have gclaim : g.claim = f.claim := congrArg (·.2.2.2) hkey
    rw [hw] at hg
    have conflict := hc g ((List.mem_cons.1 hg).resolve_left fun he => hx (by rw [← hfx, ← gindex, he]))
    rw [gport, gclaim] at conflict
    obtain ⟨a, as, hl, head⟩ := h.cons
    have aindex : a.index = e.index := congrArg (·.1) head
    have aport : a.port = e.port := congrArg (·.2.1) head
    have aclaim : a.claim = e.claim := congrArg (·.2.2.2) head
    have blocked : blockedBy (earlierThan x u.waiting) f.port f.claim.spans = true := by
      rw [hl, earlierThan, List.takeWhile_cons_of_pos (by simpa [aindex] using hx.symm), blockedBy, List.any_cons, aport, aclaim,
        conflict]
      rfl
    exact absurd blocked (by rw [hb]; decide)

/-- A head that is held off begins its recalls, and entries that all conflict with it cause nothing (R33, R34). -/
theorem grantScan_heldOff (hw : s.waiting = e :: rest) (hx : ∀ x ∈ rest, x.index ≠ e.index)
    (ho : s.holdersOff e.port e.claim.spans ≠ [])
    (hc : ∀ w ∈ rest, anyConflict e.port e.claim.spans w.port w.claim.spans = true) :
    grantScan s = beginRecalls (s.holdersOff e.port e.claim.spans) s := by
  have stays : HeadStays s e (beginRecalls (s.holdersOff e.port e.claim.spans) s) :=
    beginRecalls_mem_induction (P := HeadStays s e) _ (fun _ _ hi h => h.beginRecall hw hx hi) s
      ⟨.refl s, by rw [hw]; rfl⟩
  rw [grantScan_cons hw, visitEntry_head hw, if_neg (by simpa using ho)]
  have walk : ∀ xs : List EntryIndex, (∀ x ∈ xs, x ≠ e.index) →
      xs.foldl visitEntry (beginRecalls (s.holdersOff e.port e.claim.spans) s) =
        beginRecalls (s.holdersOff e.port e.claim.spans) s := by
    intro xs
    induction xs with
    | nil => exact fun _ => rfl
    | cons x xs ih =>
      intro h
      rw [List.foldl_cons, stays.visitEntry hw hc (h x (by simp))]
      exact ih fun y hy => h y (by simp [hy])
  refine walk _ fun x hm => ?_
  obtain ⟨w, hwr, rfl⟩ := List.mem_map.1 hm
  exact hx w hwr

/-! ### A grantable head -/

/-- An ACQUIRE entry that leaves changes the list alone. -/
theorem entryLeaves_acquire {spans : List ModeSpan} {term : Nat} (hc : e.claim = .acquire spans term) :
    entryLeaves e s = { s with waiting := withoutEntry e s.waiting } := by
  simp only [entryLeaves, hc]

/-- A waiting ACQUIRE granted, or ended EXHAUSTED (R36, R38). -/
theorem grantEntry_acquire {spans : List ModeSpan} {term : Nat} (hc : e.claim = .acquire spans term) :
    (s.grantCounter + spans.length ≤ Config.maxGrant →
      grantEntry e s = answer e.port .acquire e.tag .ok
        (.grants (allocate e.port term spans { s with waiting := withoutEntry e s.waiting }).2)
        (allocate e.port term spans { s with waiting := withoutEntry e s.waiting }).1) ∧
    (Config.maxGrant < s.grantCounter + spans.length →
      grantEntry e s = answer e.port .acquire e.tag .exhausted .empty { s with waiting := withoutEntry e s.waiting }) := by
  refine ⟨fun h => ?_, fun h => ?_⟩
  · simp only [grantEntry, hc, State.canSupply, h, decide_true, if_true, entryLeaves_acquire hc]
  · simp only [grantEntry, hc, State.canSupply, Nat.not_le.2 h, decide_false, Bool.false_eq_true, if_false, endEntry,
      entryLeaves_acquire hc, Claim.kind]

variable {i : Slot} {sp : Span} {t : Tenure} {d : Tick} {w : Option Tick} {v : Option Tag}

/-- The grant of an UPGRADE of a GRANTED lease, and the grant record that answers it (R37, R53). -/
theorem upgradeRecord_granted (hl : s.lease i = .granted t d w v) : upgradeRecord i s =
    { s.setLease i (.granted { t with mode := .exclusive, grant := s.grantCounter + 1 } d w none) with
      grantCounter := s.grantCounter + 1 } := by
  simp only [upgradeRecord, hl]

theorem upgradeBody_granted (hl : s.lease i = .granted t d w v) : upgradeBody i (upgradeRecord i s) =
    .upgraded { handle := s.handleOf i, grant := s.grantCounter + 1, deadline := d, stamp := spanStampOf s.stamps t.span } := by
  have lease : (upgradeRecord i s).lease i = .granted { t with mode := .exclusive, grant := s.grantCounter + 1 } d w none := by
    rw [upgradeRecord_granted hl]
    exact State.lease_setLease_self s i _
  have handle : (upgradeRecord i s).handleOf i = s.handleOf i := by
    simp [State.handleOf, generation_upgradeRecord]
  have stamps : (upgradeRecord i s).stamps = s.stamps := by rw [upgradeRecord_granted hl]; rfl
  simp only [upgradeBody, lease, State.grantRecord, handle, State.spanStamp, stamps]

/-- A waiting UPGRADE granted, or ended EXHAUSTED (R37, R38). -/
theorem grantEntry_upgrade (hc : e.claim = .upgrade (s.handleOf i) sp) (hl : s.lease i = .granted t d w v) :
    (s.grantCounter + 1 ≤ Config.maxGrant →
      grantEntry e s = answer e.port .upgrade e.tag .ok
        (.upgraded { handle := s.handleOf i, grant := s.grantCounter + 1, deadline := d, stamp := spanStampOf s.stamps t.span })
        { ({ s with waiting := withoutEntry e s.waiting } : State).setLease i
            (.granted { t with mode := .exclusive, grant := s.grantCounter + 1 } d w none) with
          grantCounter := s.grantCounter + 1 }) ∧
    (Config.maxGrant < s.grantCounter + 1 →
      grantEntry e s = answer e.port .upgrade e.tag .exhausted .empty
        (({ s with waiting := withoutEntry e s.waiting } : State).setLease i (.granted t d w none))) := by
  have left : entryLeaves e s = ({ s with waiting := withoutEntry e s.waiting } : State).setLease i (.granted t d w none) := by
    have hl' : ({ s with waiting := withoutEntry e s.waiting } : State).lease i = .granted t d w v := hl
    simp only [entryLeaves, hc, State.handleOf_slot, hl', LeaseState.withoutUpgrade]
  have lease : (entryLeaves e s).lease i = .granted t d w none := by rw [left, State.lease_setLease_self]
  refine ⟨fun h => ?_, fun h => ?_⟩
  · have granted : grantEntry e s = answer e.port .upgrade e.tag .ok (upgradeBody i (upgradeRecord i (entryLeaves e s)))
        (upgradeRecord i (entryLeaves e s)) := by
      simp only [grantEntry, hc, State.canSupply, h, decide_true, if_true, State.handleOf_slot]
    rw [granted, upgradeBody_granted lease, upgradeRecord_granted lease, left, State.handleOf_setLease, State.setLease_setLease]
    rfl
  · simp only [grantEntry, hc, State.canSupply, Nat.not_le.2 h, decide_false, Bool.false_eq_true, if_false, endEntry, left,
      Claim.kind]

/-! ### An entry behind one that it conflicts with -/

/-- Of two entries of a list with distinct indexes, the earlier one stands earlier in every shorter list that has both. -/
theorem mem_earlierThan {front after es : List Entry} {x y z : Entry} (hs : Shortened (front ++ z :: after) es)
    (hd : (front ++ z :: after).Pairwise fun a b => a.index ≠ b.index) (hx : x ∈ front) (hy : y ∈ es) (hyx : y.key = x.key) :
    y ∈ earlierThan z.index es := by
  have keys := hs.keys
  rw [List.map_append, List.sublist_append_iff] at keys
  obtain ⟨k₁, k₂, hk, sub₁, sub₂⟩ := keys
  obtain ⟨l₁, l₂, rfl, rfl, rfl⟩ := List.map_eq_append_iff.1 hk
  obtain ⟨-, -, cross⟩ := List.pairwise_append.1 hd
  have before : ∀ a ∈ l₁, (a.index != z.index) = true := by
    intro a ha
    obtain ⟨b, hb, hkey⟩ := List.mem_map.1 (sub₁.subset (List.mem_map_of_mem ha))
    have : b.index = a.index := congrArg (·.1) hkey
    simpa [← this] using cross b hb z (by simp)
  have inFront : y ∈ l₁ := by
    refine (List.mem_append.1 hy).resolve_right fun h => ?_
    obtain ⟨b, hb, hkey⟩ := List.mem_map.1 (sub₂.subset (List.mem_map_of_mem h))
    exact cross x hx b hb (congrArg (·.1) (hyx.symm.trans hkey.symm))
  rw [earlierThan, List.takeWhile_append_of_pos before]
  exact List.mem_append_left _ inFront

/-- An entry that stays when one of another index leaves. -/
theorem key_mem_withoutEntry {f w : Entry} {es : List Entry} (hw : w.key ∈ es.map Entry.key) (hf : f.index ≠ w.index) :
    w.key ∈ (withoutEntry f es).map Entry.key := by
  obtain ⟨g, hg, hkey⟩ := List.mem_map.1 hw
  have : g.index = w.index := congrArg (·.1) hkey
  rw [key_withoutEntry]
  exact List.mem_map.2 ⟨g, List.mem_filter.2 ⟨hg, by simpa [this] using hf.symm⟩, hkey⟩

/-- The response of an entry that a recall has ended. -/
def recalledResponse (w : Entry) : Response := responseTo (kindCode w.claim.kind) w.tag .recalled .empty

/-- What the walk has made of an entry that conflicts with an earlier one: while that one waits, it waits too, or a recall of its own
lease has ended it. -/
structure WaitsBehind (s : State) (x w : Entry) (u : State) : Prop where
  waiting : Shortened s.waiting u.waiting
  collects : Collects s u
  behind : (∃ y ∈ u.waiting, y.index = x.index) → w.key ∈ u.waiting.map Entry.key ∨
    recalledResponse w ∈ (u.port w.port).queue.drop (s.port w.port).queue.length

/-- A response that the walk has queued stays queued. -/
theorem mem_queue_drop {n : Nat} {p : Port} {r : Response} {u v : State} (h : Collects u v)
    (hr : r ∈ (u.port p).queue.drop n) : r ∈ (v.port p).queue.drop n := by
  obtain ⟨-, -, -, -, -, -, -, prefixed⟩ := h p
  exact (prefixed.drop n).subset hr

/-- Entries of a list with distinct indexes that share an index are one. -/
theorem eq_of_index {es : List Entry} (hd : es.Pairwise fun a b => a.index ≠ b.index) {a b : Entry} (ha : a ∈ es) (hb : b ∈ es)
    (h : a.index = b.index) : a = b :=
  List.inj_on_of_nodup_map (List.pairwise_map.2 hd) ha hb h

namespace WaitsBehind

variable {x w : Entry}

theorem recalled (hd : s.waiting.Pairwise fun a b => a.index ≠ b.index) (hw : w ∈ s.waiting) (h : WaitsBehind s x w u) (i : Slot) :
    WaitsBehind s x w (beginRecall i u) := by
  have c := curtails_beginRecall u i
  refine ⟨h.waiting.trans (Relaxes.curtails c).waiting, h.collects.trans c.collects, fun ⟨y, hy, hyx⟩ => ?_⟩
  obtain ⟨y', hy', hkey⟩ := (Relaxes.curtails c).waiting.mem hy
  have still : y'.index = x.index := (congrArg (·.1) hkey : y'.index = y.index).trans hyx
  rcases h.behind ⟨y', hy', still⟩ with waits | told
  · rw [waiting_beginRecall, queue_beginRecall]
    rcases endUpgrade_cases u i .recalled with hu | ⟨_, _, _, _, f, -, hf, hu⟩ <;> rw [hu]
    · exact .inl waits
    · by_cases hfw : f.index = w.index
      · right
        obtain ⟨g, hg, hgf⟩ := h.waiting.mem (List.mem_of_find?_eq_some hf)
        obtain rfl : g = w := eq_of_index hd hg hw ((congrArg (·.1) hgf : g.index = f.index).trans hfw)
        have port : g.port = f.port := congrArg (·.2.1) hgf
        have tag : g.tag = f.tag := congrArg (·.2.2.1) hgf
        have claim : g.claim = f.claim := congrArg (·.2.2.2) hgf
        obtain ⟨-, -, -, -, -, -, -, older⟩ := h.collects g.port
        rw [endEntry_eq, port, State.port_modifyPort_self, port_entryLeaves, ← port, List.drop_append_of_le_length older.length_le]
        exact List.mem_append_right _ (by simp [recalledResponse, responseTo, tag, claim])
      · left
        rw [show (endEntry f .recalled .empty u).waiting = _ from waiting_entryLeaves u f]
        exact key_mem_withoutEntry waits hfw
  · exact .inr (mem_queue_drop c.collects told)

/-- No entry that stands behind one that it conflicts with is granted (R32). -/
theorem granted {front back : List Entry} (hs : s.waiting = front ++ w :: back) (hx : x ∈ front)
    (hd : s.waiting.Pairwise fun a b => a.index ≠ b.index)
    (hc : anyConflict x.port x.claim.spans w.port w.claim.spans = true) (h : WaitsBehind s x w u) (he : e ∈ u.waiting)
    (hb : blockedBy (earlierThan e.index u.waiting) e.port e.claim.spans = false) :
    WaitsBehind s x w (grantEntry e u) := by
  have left : Shortened u.waiting (grantEntry e u).waiting := by
    rw [waiting_grantEntry]
    exact Shortened.refl.left e he
  refine ⟨h.waiting.trans left, h.collects.trans (collects_grantEntry u e), fun ⟨y, hy, hyx⟩ => ?_⟩
  obtain ⟨y', hy', hkey⟩ := left.mem hy
  have still : y'.index = x.index := (congrArg (·.1) hkey : y'.index = y.index).trans hyx
  rcases h.behind ⟨y', hy', still⟩ with waits | told
  · left
    rw [waiting_grantEntry]
    refine key_mem_withoutEntry waits fun hew => ?_
    have old : ∀ {a b : Entry}, a ∈ u.waiting → b ∈ s.waiting → a.index = b.index → a.key = b.key := by
      intro a b ha hb hab
      obtain ⟨g, hg, hga⟩ := h.waiting.mem ha
      obtain rfl : g = b := eq_of_index hd hg hb ((congrArg (·.1) hga : g.index = a.index).trans hab)
      exact hga.symm
    have ykey : y'.key = x.key := old hy' (by rw [hs]; exact List.mem_append_left _ hx) still
    have ekey : e.key = w.key := old he (by rw [hs]; simp) hew
    have earlier : y' ∈ earlierThan e.index u.waiting := by
      rw [hew]
      exact mem_earlierThan (hs ▸ h.waiting) (hs ▸ hd) hx hy' ykey
    have yport : y'.port = x.port := congrArg (·.2.1) ykey
    have yclaim : y'.claim = x.claim := congrArg (·.2.2.2) ykey
    have eport : e.port = w.port := congrArg (·.2.1) ekey
    have eclaim : e.claim = w.claim := congrArg (·.2.2.2) ekey
    have blocked : blockedBy (earlierThan e.index u.waiting) e.port e.claim.spans = true :=
      List.any_eq_true.2 ⟨y', earlier, by rw [yport, yclaim, eport, eclaim]; exact hc⟩
    rw [hb] at blocked
    cases blocked
  · exact .inr (mem_queue_drop (collects_grantEntry u e) told)

end WaitsBehind

theorem waitsBehind_grantScan {x w : Entry} {front back : List Entry} (hs : s.waiting = front ++ w :: back) (hx : x ∈ front)
    (hd : s.waiting.Pairwise fun a b => a.index ≠ b.index)
    (hc : anyConflict x.port x.claim.spans w.port w.claim.spans = true) : WaitsBehind s x w (grantScan s) := by
  have hw : w ∈ s.waiting := by rw [hs]; simp
  exact grantScan_induction (P := WaitsBehind s x w) (fun _ i h => h.recalled hd hw i)
    (fun _ _ h he _ hb _ => h.granted hs hx hd hc he hb) s
    ⟨.refl, .refl s, fun _ => .inl (List.mem_map_of_mem hw)⟩

end

/-- Settles O13: the head by its visit, and an entry behind another by what the whole walk keeps. -/
theorem grantScanJudgesInListOrder : Obligations.GrantScanJudgesInListOrder := by
  refine ⟨grantScan_nil, fun e rest s hw hx => ⟨fun ho hc => grantScan_heldOff hw hx ho hc, fun ho spans term hc => ?_,
    fun ho i sp t d w hc hl => ?_⟩, fun front mid back x w s hs hd hc => ?_⟩
  · obtain ⟨supplied, exhausted⟩ := grantEntry_acquire (s := s) hc
    rw [grantScan_grantable hw hx ho]
    exact ⟨fun h => by rw [supplied h], fun h => by rw [exhausted h]⟩
  · obtain ⟨supplied, exhausted⟩ := grantEntry_upgrade hc hl
    rw [grantScan_grantable hw hx ho]
    exact ⟨fun h => by rw [supplied h], fun h => by rw [exhausted h]⟩
  · intro t hy
    refine ((waitsBehind_grantScan hs (by simp) hd hc).behind hy).imp (fun h => ?_) id
    obtain ⟨v, hv, hkey⟩ := List.mem_map.1 h
    exact ⟨v, hv, congrArg (·.1) hkey, congrArg (·.2.1) hkey, congrArg (·.2.2.1) hkey, congrArg (·.2.2.2) hkey⟩

end Sys2Proof.Machine
end

section
/-!
PROOFS. The checks common to all kinds (R113 to R115, R156), and the requests of the session, setup and clock kinds (chapters 5, 7, 8
and 9).
-/

namespace Sys2Proof.Machine

section

variable {s : State} {p : Port} {tag : Tag} {body : List Byte} {k : Kind} {r : Result}

/-! ### The common checks -/

theorem commonCheck_admission (h : admission k (s.port p).state = some r) : commonCheck k p tag s = some r := by
  simp only [commonCheck, h]

theorem commonCheck_phase (ha : admission k (s.port p).state = none) (h : phaseCheck k s.phase = some r) :
    commonCheck k p tag s = some r := by
  simp only [commonCheck, ha, h]

theorem commonCheck_tag (ha : admission k (s.port p).state = none) (hp : phaseCheck k s.phase = none) :
    commonCheck k p tag s = if s.tagInUse p tag then some .tagInUse else none := by
  simp only [commonCheck, ha, hp]

/-- A request that a common check refuses is answered so, and nothing else. -/
theorem takeKind_refused (h : commonCheck k p tag s = some r) : takeKind k p tag body s = answer p k tag r .empty s := by
  cases k with
  | join | leave | start | getConfig | time | sync =>
    simp only [takeKind, takeJoin, takeLeave, takeStart, takeGetConfig, takeTime, takeSync, emptyBodyChecks, h, settle]
  | set => simp only [takeKind, takeSet, setChecks, h, settle]
  | acquire => simp only [takeKind, takeAcquire, acquireChecks, h, settle]
  | upgrade => simp only [takeKind, takeUpgrade, upgradeChecks, handleNumberChecks, h, settle]
  | downgrade => simp only [takeKind, takeDowngrade, downgradeChecks, handleChecks, h, settle]
  | renew => simp only [takeKind, takeRenew, renewChecks, handleNumberChecks, h, settle]
  | release => simp only [takeKind, takeRelease, releaseChecks, handleChecks, h, settle]
  | cancel => simp only [takeKind, takeCancel, cancelChecks, h, settle]
  | query => simp only [takeKind, takeQuery, handleChecks, h, settle]
  | read => simp only [takeKind, takeRead, readChecks, accessChecks, h, settle]
  | write => simp only [takeKind, takeWrite, writeChecks, accessChecks, h, settle]
  | takeNotices => simp only [takeKind, takeTakeNotices, takeNoticesChecks, h, settle]
  | ackRevoked => simp only [takeKind, takeAckRevoked, ackRevokedChecks, handleChecks, h, settle]

/-- A taken request command that a common check refuses. -/
theorem exec_refused (ht : takesFrame s p = true) (hb : body.length ≤ 272) (h : commonCheck k p tag s = some r) :
    exec (commandOf k p tag body) s = .next (answer p k tag r .empty (afterPush s p (6 + body.length))) := by
  rw [exec_commandOf_taken k tag body ht hb, takeKind_refused (by rwa [commonCheck_afterPush])]

/-! ### A body of the wrong length -/

theorem parseHandle_none (h : body.length ≠ 2) : parseHandle body = none := by
  unfold parseHandle
  split
  · exact absurd rfl h
  · rfl

theorem parseHandleNumber_none (h : body.length ≠ 6) : parseHandleNumber body = none := by
  unfold parseHandleNumber
  split
  · exact absurd rfl h
  · rfl

theorem parseByte_none (h : body.length ≠ 1) : parseByte body = none := by
  unfold parseByte
  split
  · exact absurd rfl h
  · rfl

theorem parseSet_none (h : body.length ≠ 6) : parseSet body = none := by
  unfold parseSet
  split
  · exact absurd rfl h
  · rfl

theorem parseAccess_none (h : body.length < 8) : parseAccess body = none := by
  unfold parseAccess
  split
  · simp only [List.length_cons] at h
    omega
  · rfl

/-- A body of another length than its kind's layout fixes is refused with RANGE (R156, R160). -/
theorem takeKind_range {n : Nat} (hc : commonCheck k p tag s = none) (hk : fixedLength? k = some n) (hn : body.length ≠ n) :
    takeKind k p tag body s = answer p k tag .range .empty s := by
  cases k with
  | join | leave | start | getConfig | time | sync =>
    obtain rfl : 0 = n := by simpa [fixedLength?] using hk
    have : body.isEmpty = false := by simpa using hn
    simp only [takeKind, takeJoin, takeLeave, takeStart, takeGetConfig, takeTime, takeSync, emptyBodyChecks, hc, this, settle,
      Bool.false_eq_true, if_false]
  | cancel | takeNotices =>
    obtain rfl : 1 = n := by simpa [fixedLength?] using hk
    simp only [takeKind, takeCancel, cancelChecks, takeTakeNotices, takeNoticesChecks, hc, parseByte_none hn, settle]
  | downgrade | release | query | ackRevoked =>
    obtain rfl : 2 = n := by simpa [fixedLength?] using hk
    simp only [takeKind, takeDowngrade, downgradeChecks, takeRelease, releaseChecks, takeQuery, takeAckRevoked, ackRevokedChecks,
      handleChecks, hc, parseHandle_none hn, settle]
  | upgrade | renew =>
    obtain rfl : 6 = n := by simpa [fixedLength?] using hk
    simp only [takeKind, takeUpgrade, upgradeChecks, takeRenew, renewChecks, handleNumberChecks, hc, parseHandleNumber_none hn,
      settle]
  | set =>
    obtain rfl : 6 = n := by simpa [fixedLength?] using hk
    simp only [takeKind, takeSet, setChecks, hc, parseSet_none hn, settle]
  | acquire | read | write => cases hk

/-- A READ or WRITE body too short for its three fields is refused with RANGE (R96, R98). -/
theorem takeKind_short (hc : commonCheck k p tag s = none) (hk : k ∈ [Kind.read, .write]) (hn : body.length < 8) :
    takeKind k p tag body s = answer p k tag .range .empty s := by
  simp only [List.mem_cons, List.not_mem_nil, or_false] at hk
  rcases hk with rfl | rfl
  · simp only [takeKind, takeRead, readChecks, accessChecks, hc, parseAccess_none hn, settle]
  · simp only [takeKind, takeWrite, writeChecks, accessChecks, hc, parseAccess_none hn, settle]

/-! ### Admission and phase -/

/-- What can be decided of each kind holds of every kind. -/
theorem forall_kind {P : Kind → Prop} (h : ∀ k ∈ allKinds, P k) (k : Kind) : P k := h k (by cases k <;> decide)

theorem admission_detached (h : k ∈ [Kind.join, .getConfig, .time, .sync]) : admission k .detached = none := by
  revert k; decide

theorem admission_fenced (h : k ∈ [Kind.takeNotices, .ackRevoked, .query, .sync, .time, .getConfig, .leave]) :
    admission k .fenced = none := by
  revert k; decide

theorem admission_detached_refused (h : k ∉ [Kind.join, .getConfig, .time, .sync]) :
    admission k .detached = some .notJoined :=
  forall_kind (P := fun k => k ∉ [Kind.join, .getConfig, .time, .sync] → admission k .detached = some .notJoined) (by decide) k h

theorem admission_fenced_refused (h : k ∉ [Kind.takeNotices, .ackRevoked, .query, .sync, .time, .getConfig, .leave]) :
    admission k .fenced = some .fenced :=
  forall_kind (P := fun k => k ∉ [Kind.takeNotices, .ackRevoked, .query, .sync, .time, .getConfig, .leave] →
    admission k .fenced = some .fenced) (by decide) k h

theorem admission_joined (h : k ≠ .join) : admission k .joined = none := if_neg h

theorem phaseCheck_none (hs : s.phase = .setup → k ∉ [Kind.acquire, .upgrade, .downgrade, .renew, .release, .cancel, .read, .write])
    (hr : s.phase = .run → k ∉ [Kind.set, .start]) (hc : s.phase ≠ .clearing) : phaseCheck k s.phase = none := by
  cases hp : s.phase with
  | clearing => exact absurd hp hc
  | setup => exact forall_kind (P := fun k => k ∉ [Kind.acquire, .upgrade, .downgrade, .renew, .release, .cancel, .read, .write] →
      phaseCheck k .setup = none) (by decide) k (hs hp)
  | run => exact forall_kind (P := fun k => k ∉ [Kind.set, .start] → phaseCheck k .run = none) (by decide) k (hr hp)

/-- A frame that is taken is not taken in CLEARING. -/
theorem phase_of_takesFrame (h : takesFrame s p = true) : s.phase ≠ .clearing := by
  simpa using (taken_afterPush 0 h).ready

/-- Settles O21: the first check that fails gives the answer, and after the common ones the body's length does. -/
theorem commonChecksRefuse : Obligations.CommonChecksRefuse := by
  intro k p tag body s ht hb
  refine ⟨fun hs hk => exec_refused ht hb (commonCheck_admission ?_), fun hs hk => exec_refused ht hb (commonCheck_admission ?_),
    fun hs hk => exec_refused ht hb (commonCheck_admission ?_), fun hs hp hk => exec_refused ht hb (commonCheck_phase ?_ ?_),
    fun hs hp hk => exec_refused ht hb (commonCheck_phase ?_ ?_), fun hs hp hk he => exec_refused ht hb ?_,
    fun hs hsetup hrun htag => ?_⟩
  · rw [hs]; exact admission_detached_refused hk
  · rw [hs]; exact admission_fenced_refused hk
  · rw [hs, hk]; rfl
  · rw [hs]; revert k; decide
  · rw [hp]; revert k; decide
  · rw [hs]; revert k; decide
  · rw [hp]; revert k; decide
  · have used : s.tagInUse p tag = true := by simpa [State.tagInUse] using he
    have other : k ≠ .join := by rintro rfl; simp at hk
    have phase := phaseCheck_none (k := k) (fun h => by rw [hp] at h; cases h) (fun _ h => hk (by simp_all)) (phase_of_takesFrame ht)
    rw [commonCheck_tag (by rw [hs]; exact admission_joined other) phase, used]
    rfl
  · have admitted : admission k (s.port p).state = none := by
      rcases hs with ⟨hs, hk⟩ | ⟨hs, hk⟩ | ⟨hs, hk⟩ <;> rw [hs]
      · exact admission_detached hk
      · exact admission_fenced hk
      · exact admission_joined hk
    have passes : commonCheck k p tag (afterPush s p (6 + body.length)) = none := by
      rw [commonCheck_afterPush, commonCheck_tag admitted (phaseCheck_none hsetup hrun (phase_of_takesFrame ht)), htag]
      rfl
    rw [exec_commandOf_taken k tag body ht hb]
    exact ⟨fun n hk hn => by rw [takeKind_range passes hk hn], fun hk hn => by rw [takeKind_short passes hk hn]⟩

end

end Sys2Proof.Machine
end

section
/-!
PROOFS. JOIN, LEAVE, START, SET, GET_CONFIG, TIME and SYNC (chapters 5, 7, 8 and 9), and the fall of PRESENT, which tears a port down
as LEAVE does (R110, R119).
-/

namespace Sys2Proof.Machine

section

variable {s : State} {p : Port} {tag : Tag} {k : Kind}

/-! ### A request without a body -/

theorem emptyBodyChecks_pass (h : commonCheck k p tag s = none) : emptyBodyChecks k p tag [] s = .ok () := by
  simp only [emptyBodyChecks, h, List.isEmpty_nil, if_true]

theorem admission_any (hk : k ∈ [Kind.getConfig, .time, .sync]) (st : PortState) : admission k st = none := by
  cases st <;> revert k <;> decide

theorem phaseCheck_any (hk : k ∈ [Kind.getConfig, .time, .sync]) (ph : Phase) : phaseCheck k ph = none := by
  cases ph <;> revert k <;> decide

theorem commonCheck_any (hk : k ∈ [Kind.getConfig, .time, .sync]) :
    commonCheck k p tag s = if s.tagInUse p tag then some .tagInUse else none :=
  commonCheck_tag (admission_any hk _) (phaseCheck_any hk _)

/-- GET_CONFIG, TIME and SYNC with a tag in use are answered TAG_IN_USE and do nothing. -/
theorem exec_tagInUse (ht : takesFrame s p = true) (hk : k ∈ [Kind.getConfig, .time, .sync]) (hu : s.tagInUse p tag = true) :
    exec (commandOf k p tag []) s = .next (answer p k tag .tagInUse .empty (afterPush s p 6)) :=
  exec_refused ht (by decide) (by rw [commonCheck_any hk, hu]; rfl)

theorem commonCheck_any_afterPush (hk : k ∈ [Kind.getConfig, .time, .sync]) (hu : s.tagInUse p tag = false) :
    commonCheck k p tag (afterPush s p 6) = none := by
  rw [commonCheck_afterPush, commonCheck_any hk, hu]
  rfl

/-- Settles O18: TIME passes every common check but the tag's. -/
theorem timeReadsTheCounter : Obligations.TimeReadsTheCounter := by
  intro p tag s ht
  refine ⟨fun hu => exec_tagInUse (k := .time) ht (by decide) hu, fun hu => ?_⟩
  have passes := emptyBodyChecks_pass (commonCheck_any_afterPush (k := .time) (by decide) hu)
  refine (exec_commandOf_taken .time tag [] ht (by decide)).trans ?_
  simp only [takeKind, takeTime, List.length_nil, Nat.add_zero, passes, settle, timeEffect, afterPush_tick]

/-- Settles O20: SYNC passes every common check but the tag's. -/
theorem syncClearsOverrun : Obligations.SyncClearsOverrun := by
  intro p tag s ht
  refine ⟨fun hu => exec_tagInUse (k := .sync) ht (by decide) hu, fun hu => ?_⟩
  have passes := emptyBodyChecks_pass (commonCheck_any_afterPush (k := .sync) (by decide) hu)
  refine (exec_commandOf_taken .sync tag [] ht (by decide)).trans ?_
  simp only [takeKind, takeSync, List.length_nil, Nat.add_zero, passes, settle]
  rfl

/-! ### GET_CONFIG -/

theorem toList_four (v : Vector Nat 4) : v.toList = [v[0], v[1], v[2], v[3]] := by
  apply List.ext_getElem
  · simp
  · intro i hi _
    have : i < 4 := by simpa using hi
    interval_cases i <;> rfl

/-- The body of GET_CONFIG is 24 bytes of which the last is the shared pool's size (R148, R161). -/
theorem configBytes_shape (ph : Phase) (ps : Params) :
    ∃ front, configBytes ph ps = front ++ [BitVec.ofNat 8 ps.sharedPool] ∧ front.length = 23 := by
  refine ⟨_, rfl, ?_⟩
  simp [byteOf, toList_four]

/-- Settles O19: GET_CONFIG passes every common check but the tag's. -/
theorem getConfigReportsParameters : Obligations.GetConfigReportsParameters := by
  intro p tag s ht
  obtain ⟨front, body, length⟩ := configBytes_shape s.phase s.params
  refine ⟨fun hu => exec_tagInUse (k := .getConfig) ht (by decide) hu, fun hu => ?_, ?_, ?_⟩
  · have passes := emptyBodyChecks_pass (commonCheck_any_afterPush (k := .getConfig) (by decide) hu)
    refine (exec_commandOf_taken .getConfig tag [] ht (by decide)).trans ?_
    simp only [takeKind, takeGetConfig, List.length_nil, Nat.add_zero, passes, settle, getConfigEffect, afterPush_phase,
      afterPush_params]
  · rw [bodyBytes, body]
    simp [length]
  · rw [bodyBytes, body, List.getLast?_concat, Params.sharedPool, toList_four]
    simp [Config.tableEntries, Nat.add_assoc]

/-! ### JOIN and START -/

/-- Settles O14: admission is by the port's state, and no phase refuses a JOIN. -/
theorem joinOpensSession : Obligations.JoinOpensSession := by
  intro p tag s ht
  refine ⟨fun hs hu => ?_, fun hs => exec_refused (k := .join) (body := []) ht (by decide) (commonCheck_admission (by rw [hs]; rfl)),
    fun hs => exec_refused (k := .join) (body := []) ht (by decide) (commonCheck_admission (by rw [hs]; rfl)), rfl⟩
  have common : commonCheck .join p tag (afterPush s p 6) = none := by
    rw [commonCheck_afterPush, commonCheck_tag (by rw [hs]; rfl) rfl, hu]
    rfl
  refine (exec_commandOf_taken .join tag [] ht (by decide)).trans ?_
  simp only [takeKind, takeJoin, List.length_nil, Nat.add_zero, emptyBodyChecks_pass common, settle]
  rfl

/-- Settles O16: a START from a JOINED port is refused by the phase alone. -/
theorem startEntersRun : Obligations.StartEntersRun := by
  intro p tag s ht hs
  have admitted : admission .start (s.port p).state = none := by rw [hs]; rfl
  refine ⟨fun hp hu => ?_,
    fun hp => exec_refused (k := .start) (body := []) ht (by decide) (commonCheck_phase admitted (by rw [hp]; rfl))⟩
  have common : commonCheck .start p tag (afterPush s p 6) = none := by
    rw [commonCheck_afterPush, commonCheck_tag admitted (by rw [hp]; rfl), hu]
    rfl
  refine (exec_commandOf_taken .start tag [] ht (by decide)).trans ?_
  simp only [takeKind, takeStart, List.length_nil, Nat.add_zero, emptyBodyChecks_pass common, settle]
  rfl

/-! ### SET -/

section

variable (ps : Params) (v : Nat)

theorem setParam_tickPeriod (h : v < 5) : setParam ps 1 0 v = some { ps with tickPeriod := ⟨v, h⟩ } := by
  simp [setParam, h]

theorem setParam_tickPeriod_bad (h : 5 ≤ v) : setParam ps 1 0 v = none := by
  simp [setParam, Nat.not_lt.2 h]

theorem setParam_maxTerm : setParam ps 2 0 v = if 1 ≤ v ∧ v ≤ 16777215 then some { ps with maxTerm := v } else none := by
  simp [setParam, inRange]

theorem setParam_maxWait : setParam ps 3 0 v = if v ≤ 16777215 then some { ps with maxWait := v } else none := by
  simp [setParam, inRange]

theorem setParam_recallWindow : setParam ps 4 0 v = if 1 ≤ v ∧ v ≤ 65535 then some { ps with recallWindow := v } else none := by
  simp [setParam, inRange]

theorem setParam_warnMargin : setParam ps 5 0 v = if v ≤ 65535 then some { ps with warnMargin := v } else none := by
  simp [setParam, inRange]

theorem setParam_fenceStrikes : setParam ps 6 0 v = if v ≤ 15 then some { ps with fenceStrikes := v } else none := by
  simp [setParam, inRange]

theorem setParam_leaseQuota (q : Port) : setParam ps 7 (BitVec.ofNat 8 q.val) v =
    if v ≤ 64 ∧ (ps.leaseQuota.set q v).toList.sum ≤ 64 then some { ps with leaseQuota := ps.leaseQuota.set q v } else none := by
  have hq : (BitVec.ofNat 8 q.val).toNat = q.val := by rw [BitVec.toNat_ofNat]; omega
  simp [setParam, inRange, hq]

theorem setParam_reservedEntries (q : Port) : setParam ps 8 (BitVec.ofNat 8 q.val) v =
    if v ≤ 8 then some { ps with reservedEntries := ps.reservedEntries.set q v } else none := by
  have hq : (BitVec.ofNat 8 q.val).toNat = q.val := by rw [BitVec.toNat_ofNat]; omega
  simp [setParam, inRange, hq]

/-- An identifier or a port number that names no parameter (R145). -/
theorem setParam_unknown {i q : Byte} (h : i = 0 ∨ 8 < i.toNat ∨ (i.toNat ≤ 6 ∧ q ≠ 0) ∨ 3 < q.toNat) :
    setParam ps i q v = none := by
  have single : ∀ c : Byte, c.toNat ≤ 6 → c ≠ 0 → ¬(i = c ∧ q = 0#8) := by
    rintro c hc hz ⟨rfl, rfl⟩
    rcases h with h | h | ⟨-, h⟩ | h
    · exact hz h
    · omega
    · exact h rfl
    · simp at h
  have double : ∀ c : Byte, 6 < c.toNat → c.toNat ≤ 8 → i = c → ¬q.toNat < 4 := by
    rintro c h6 h8 rfl
    rcases h with rfl | h | ⟨h, -⟩ | h
    · simp at h6
    all_goals omega
  simp only [setParam, single 0x01#8 (by decide) (by decide), single 0x02#8 (by decide) (by decide),
    single 0x03#8 (by decide) (by decide), single 0x04#8 (by decide) (by decide), single 0x05#8 (by decide) (by decide),
    single 0x06#8 (by decide) (by decide), if_false]
  split
  · exact dif_neg (double 0x07#8 (by decide) (by decide) ‹_›)
  · split
    · exact dif_neg (double 0x08#8 (by decide) (by decide) ‹_›)
    · rfl

end

/-- A SET in SETUP is settled by what its parameter becomes. -/
theorem exec_set {v : Nat} (ht : takesFrame s p = true) (hs : (s.port p).state = .joined) (hp : s.phase = .setup)
    (hu : s.tagInUse p tag = false) (hv : v < 4294967296) (i q : Byte) :
    exec (.set p tag (setBody i q v)) s = .next (match setParam s.params i q v with
      | none => answer p .set tag .badValue .empty (afterPush s p 12)
      | some ps => setEffect p tag (i, q, v, ps) (afterPush s p 12)) := by
  have common : commonCheck .set p tag (afterPush s p 12) = none := by
    rw [commonCheck_afterPush, commonCheck_tag (by rw [hs]; rfl) (by rw [hp]; rfl), hu]
    rfl
  refine (exec_commandOf_taken .set tag _ ht (by simp)).trans (congrArg Host.Outcome.next ?_)
  simp only [takeKind, takeSet, length_setBody, setChecks, common, parseSet_setBody i q hv, afterPush_params]
  cases setParam s.params i q v <;> rfl

/-- A SET of another parameter than TICK_PERIOD changes it alone, where its value is in range, and is answered BAD_VALUE else. -/
theorem exec_set_ranged {v : Nat} {c : Prop} [Decidable c] {ps : Params} {i q : Byte} (ht : takesFrame s p = true)
    (hs : (s.port p).state = .joined) (hp : s.phase = .setup) (hu : s.tagInUse p tag = false) (hv : v < 4294967296) (hi : i ≠ 1)
    (h : setParam s.params i q v = if c then some ps else none) :
    exec (.set p tag (setBody i q v)) s =
      if c then .next (answer p .set tag .ok (.param i q v) { afterPush s p 12 with params := ps })
      else .next (answer p .set tag .badValue .empty (afterPush s p 12)) := by
  rw [exec_set ht hs hp hu hv, h]
  by_cases hc : c
  · rw [if_pos hc, if_pos hc]
    simp only [setEffect, if_neg (show ¬i = 0x01#8 from hi)]
  · rw [if_neg hc, if_neg hc]

/-- Settles O17: one clause for each identifier, by what `setParam` makes of it. -/
theorem setChangesOneParameter : Obligations.SetChangesOneParameter := by
  intro p tag s v ht hs hp hu hv set done bad
  have ranged : ∀ {c : Prop} [Decidable c] {ps : Params} {i q : Byte}, i ≠ 1 →
      setParam s.params i q v = (if c then some ps else none) → set i q = if c then done i q ps else bad := fun hi h =>
    exec_set_ranged ht hs hp hu hv hi h
  have refused : ∀ {i q : Byte}, setParam s.params i q v = none → set i q = bad := fun h => by
    refine (exec_set ht hs hp hu hv _ _).trans ?_
    rw [h]
  refine ⟨fun h => ?_, fun h => refused (setParam_tickPeriod_bad _ v h), ranged (by decide) (setParam_maxTerm _ v),
    ranged (by decide) (setParam_maxWait _ v), ranged (by decide) (setParam_recallWindow _ v),
    ranged (by decide) (setParam_warnMargin _ v), ranged (by decide) (setParam_fenceStrikes _ v),
    fun q => ⟨ranged (by decide) (setParam_leaseQuota _ v q), ranged (by decide) (setParam_reservedEntries _ v q)⟩,
    fun i q h => refused (setParam_unknown _ v h)⟩
  refine (exec_set ht hs hp hu hv _ _).trans ?_
  rw [setParam_tickPeriod _ v h]
  rfl

/-! ### A port torn down -/

variable {u : State} {h : HostPort} {f : HostPort → HostPort}

theorem TornDown.before (ht : TornDown p (s.modifyPort p f) u) : TornDown p s u := by
  obtain ⟨ports, waiting, records, counter, device⟩ := ht
  exact ⟨fun q hq => (ports q hq).trans (s.port_modifyPort_of_ne p q f hq), waiting, records, counter, device⟩

theorem TornDown.after (ht : TornDown p s u) : TornDown p s (u.modifyPort p f) := by
  obtain ⟨ports, waiting, records, counter, device⟩ := ht
  exact ⟨fun q hq => (u.port_modifyPort_of_ne p q f hq).trans (ports q hq), waiting, records, counter, device⟩

theorem Bare.modifyPort (hb : Bare h p s) : Bare (f h) p (s.modifyPort p f) :=
  ⟨by rw [State.port_modifyPort_self, hb.port], hb.holds, hb.waits⟩

/-- Settles O15: the torn-down port holds nothing but its answer, and a scan gives nothing to a port that holds nothing. -/
theorem leaveTearsDownThePort : Obligations.LeaveTearsDownThePort := by
  intro p tag s ht hs hu left
  have common : commonCheck .leave p tag (afterPush s p 6) = none := by
    rw [commonCheck_afterPush, commonCheck_tag (by rcases hs with hs | hs <;> rw [hs] <;> rfl) rfl, hu]
    rfl
  let u := answer p .leave tag .ok .empty (tearDown p .detached (afterPush s p 6))
  have bare : Bare left p u := by
    have := (bare_tearDown (afterPush s p 6) p .detached).modifyPort
      (f := fun h => { h with queue := h.queue ++ [responseTo (kindCode .leave) tag .ok .empty] })
    rwa [afterPush_port_self] at this
  have torn : TornDown p s u := (tornDown_tearDown (afterPush s p 6) p .detached).before.after
  have scanned := bare.grantScan
  refine ⟨u, ?_, bare.port, torn, scanned.port, scanned.holds, scanned.entriesOf, ?_, ?_, ?_, fun hw => ?_⟩
  · refine (exec_commandOf_taken .leave tag [] ht (by decide)).trans ?_
    simp only [takeKind, takeLeave, List.length_nil, Nat.add_zero, emptyBodyChecks_pass common, settle]
    rfl
  · rw [State.credits, scanned.port, scanned.entriesOf]
    rfl
  · exact grantCounter_le_grantScan u
  · exact torn.2.2.2.2.trans (sameDevice_grantScan u)
  · obtain ⟨-, waiting, records, counter, -⟩ := torn
    have none : u.waiting = [] := by
      rw [waiting, List.filter_eq_nil_iff]
      intro e he
      have := List.all_eq_true.1 hw e he
      simpa using this
    rw [grantScan_nil u none]
    exact ⟨counter, records⟩

/-- Settles O46: the rise changes the port alone; the fall is a teardown and a scan, as a LEAVE's is. -/
theorem presentMoves : Obligations.PresentMoves := by
  intro p s gone
  have abandons : abandoned (s.port p).transaction = gone := by
    simp only [gone]
    cases (s.port p).transaction <;> rfl
  have rises : exec (.presentRises p) s = .next (presentRisesAct p s) := rfl
  have falls : exec (.presentFalls p) s = .next (presentFallsAct p s) := rfl
  refine ⟨fun hp ha => ?_, fun hp => ?_, fun hp ha => ?_, fun hp ha => ?_, fun hp => ?_⟩
  · rw [rises, presentRisesAct, hp, if_neg Bool.false_ne_true]
    refine congrArg Host.Outcome.next (State.modifyPort_congr s p _ ?_)
    cases s.resetAsserted <;> simp [ha]
  · rw [rises, presentRisesAct, hp, if_pos rfl]
  · rw [falls, presentFallsAct, hp, if_pos rfl]
    simp only [State.port_modifyPort_self, ha, if_true]
    exact congrArg Host.Outcome.next (State.modifyPort_congr s p _ (by rw [abandons]))
  · let v := s.modifyPort p fun h => { h with present := false, transaction := abandoned h.transaction }
    intro empty
    have bare : Bare empty p (tearDown p .absent v) := by
      have := bare_tearDown v p .absent
      rwa [State.port_modifyPort_self, abandons] at this
    have torn : TornDown p s (tearDown p .absent v) := (tornDown_tearDown v p .absent).before
    have scanned := bare.grantScan
    refine ⟨tearDown p .absent v, ?_, bare.port, torn, scanned.port, scanned.holds, scanned.entriesOf,
      torn.2.2.2.2.trans (sameDevice_grantScan _)⟩
    have fitted : (v.port p).state ≠ .absent := by rwa [State.port_modifyPort_self]
    rw [falls, presentFallsAct, hp, if_pos rfl]
    exact congrArg Host.Outcome.next (if_neg fitted)
  · rw [falls, presentFallsAct, hp, if_neg Bool.false_ne_true]

end

end Sys2Proof.Machine
end

section
/-!
PROOFS. Power-on, power-on clearing and RESET# (chapter 9).
-/

namespace Sys2Proof.Machine

section

variable {s : State}

/-- The parameters after reset, value by value (R144). -/
theorem params_reset : Params.reset =
    { tickPeriod := 2, maxTerm := 80000, maxWait := 80000, recallWindow := 800, warnMargin := 0, fenceStrikes := 3,
      leaseQuota := #v[16, 16, 16, 16], reservedEntries := #v[4, 4, 4, 4] } := rfl

/-- Settles O47: every block but the phase and the clearing is as either reset leaves it. -/
theorem powerOnState : Obligations.PowerOnState := by
  intro s
  have blank := blank_powerOnAct s
  exact ⟨powerOnAct s, rfl, rfl, rfl, rfl, blank.record, blank.counter, blank.waiting, rfl, rfl,
    fun b => by rw [blank.stamps, stampAt_replicate], blank.params.trans params_reset, fun p => by rw [port_powerOnAct]; rfl, rfl,
    rfl⟩

/-! ### Clearing -/

theorem clearingRuns_iff : s.clearingRuns = true ↔ s.phase = .clearing ∧ s.clearCount < 16384 := by
  simp only [State.clearingRuns, Bool.and_eq_true, beq_iff_eq, decide_eq_true_eq]
  rfl

/-- A REFCLK period of clearing is counted, and the last one ends it (R142). -/
theorem refclkPeriod_clearing (h : s.clearingRuns = true) : refclkPeriod s =
    if s.clearCount + 1 < 16384 then { s with clearCount := s.clearCount + 1 } else clearingEndAct s :=
  if_pos h

theorem exec_clearingEnd (h : s.clearingRuns = true) : exec .clearingEnd s = .next (clearingEndAct s) :=
  congrArg Host.Outcome.next (if_pos h)

/-- Settles O48: the command ends the clearing at once, and the count of REFCLK periods at its last. -/
theorem clearingEnds : Obligations.ClearingEnds := by
  intro s hp hc
  have runs : s.clearingRuns = true := clearingRuns_iff.2 ⟨hp, hc⟩
  refine ⟨⟨clearingEndAct s, exec_clearingEnd runs, fun _ => rfl, stampAt_replicate, ?_, rfl, rfl, ?_, rfl, rfl, rfl, rfl, rfl, rfl⟩,
    fun hq ho => ?_⟩
  · show (if s.resetAsserted then s.phase else .setup) = _
    rw [hp]
  · simp [State.clearingRuns, clearingEndAct]
  · rw [step_idle hq ho, refclkPeriod_clearing runs, exec_clearingEnd runs]
    exact ⟨fun h => by rw [if_pos h], fun h => by rw [if_neg (by omega)]⟩

/-! ### RESET# -/

/-- A port that a reset leaves with its transaction abandoned, item by item. -/
theorem resetPort_eq (h : HostPort) : resetPort h =
    { present := h.present, state := if h.present then .detached else .absent, queue := [], notices := [], overrun := false,
      strikes := 0, fenceLine := false, sdo := h.sdo, transaction := if h.transaction = .none then .none else .ignored } := by
  unfold resetPort abandoned stateByPresent
  cases h.transaction <;> rfl

/-- Settles O49: both edges reset every block but the array's bytes and the clearing's count. -/
theorem resetLine : Obligations.ResetLine := by
  intro s
  have taken : ∀ n, exec (.resetAsserted n) s =
      .next (if n < 50 ∨ s.resetAsserted = true then s else resetAssertedAct s) := fun _ => rfl
  have released : exec .resetDeasserted s = .next (if s.resetAsserted = true then resetDeassertedAct s else s) := rfl
  have port : ∀ p, (resetBlocks s).port p = _ := fun p => (port_resetBlocks s p).trans (resetPort_eq (s.port p))
  have blank := blank_resetBlocks s
  refine ⟨fun n hn => by rw [taken, if_pos (.inl hn)], fun n hn hr => ?_, fun hr => ?_, fun hr => ?_⟩
  · refine ⟨resetAssertedAct s, ?_, ⟨blank.record, rfl, rfl, rfl, rfl, stampAt_replicate, rfl, rfl, rfl, port⟩, rfl, ?_, rfl⟩
    · rw [taken, if_neg (by simp [hr, hn])]
    · simp [State.clockHeld, resetAssertedAct]
  · refine ⟨resetDeassertedAct s, ?_, ⟨blank.record, rfl, rfl, rfl, rfl, stampAt_replicate, rfl, rfl, rfl, port⟩, rfl, rfl⟩
    rw [released, if_pos hr]
  · rw [released, if_neg (by simp [hr])]

end

end Sys2Proof.Machine
end

section
/-!
PROOFS. Requests that name a record: their checks after a PUSH, the array's READ and WRITE (chapter 6), TAKE_NOTICES and ACK_REVOKED
(chapters 4 and 8), and QUERY (chapter 1).
-/

namespace Sys2Proof.Machine

section

variable {s : State} {p : Port} {tag : Tag} {k : Kind} {h : Handle} {n : Nat} {body : List Byte}

/-! ### The checks after a PUSH -/

/-- A lease or array request that passes its common checks is its kind's on the state after the PUSH, which passes them too. -/
theorem exec_working (hw : working s p tag = true) (hk : k ∉ [Kind.join, .set, .start]) (hb : body.length ≤ 272) :
    exec (commandOf k p tag body) s = .next (takeKind k p tag body (afterPush s p (6 + body.length))) ∧
      commonCheck k p tag (afterPush s p (6 + body.length)) = none :=
  ⟨exec_commandOf_taken k tag body (takesFrame_of_working hw) hb,
    (commonCheck_afterPush k tag _).trans (commonCheck_working k tag hw hk)⟩

theorem exec_collecting (hc : collecting s p tag = true) (hk : k ∈ [Kind.query, .takeNotices, .ackRevoked])
    (hb : body.length ≤ 272) :
    exec (commandOf k p tag body) s = .next (takeKind k p tag body (afterPush s p (6 + body.length))) ∧
      commonCheck k p tag (afterPush s p (6 + body.length)) = none :=
  ⟨exec_commandOf_taken k tag body (takesFrame_of_collecting hc) hb,
    (commonCheck_afterPush k tag _).trans (commonCheck_collecting k tag hc hk)⟩

theorem handleChecks_body (hc : commonCheck k p tag s = none) : handleChecks k p tag (handleBody h) s =
    if s.resolves p h then .ok h.slot else .error .badHandle := by
  simp only [handleChecks, hc, parseHandle_handleBody]

theorem handleNumberChecks_body (hc : commonCheck k p tag s = none) (hn : n < 4294967296) :
    handleNumberChecks k p tag (handleNumberBody h n) s = if s.resolves p h then .ok (h.slot, n) else .error .badHandle := by
  simp only [handleNumberChecks, hc, parseHandleNumber_body h hn]

/-- The handle that resolves is the one the table gives for its slot. -/
theorem handleOf_of_resolves (hr : s.resolves p h = true) : s.handleOf h.slot = h := by
  simp only [State.resolves, Bool.and_eq_true, beq_iff_eq] at hr
  simp only [State.handleOf, hr.1]

/-- The table's handle for the record of a tenure resolves for the tenure's port. -/
theorem resolves_of_tenure {i : Slot} {t : Tenure} (hl : (s.lease i).tenure? = some t) (hp : t.port = p) :
    s.resolves p (s.handleOf i) = true := by
  rw [State.resolves_handleOf, State.holder?, LeaseState.holder?, hl, ← hp]
  rfl

/-! ### READ and WRITE -/

section

variable {t : Tenure} {a : Nat} {rest : List Byte} {r : Result}

theorem accessChecks_stale (hc : commonCheck k p tag s = none) (hb : parseAccess body = some (h, a, n, rest))
    (hr : s.resolves p h = false) : accessChecks k p tag body s = .error .badHandle := by
  simp only [accessChecks, hc, hb, hr, Bool.false_eq_true, if_false]

theorem accessChecks_tombstone (hc : commonCheck k p tag s = none) (hb : parseAccess body = some (h, a, n, rest))
    (hr : s.resolves p h = true) (hl : (s.lease h.slot).live? = none) : accessChecks k p tag body s = .error .revoked := by
  simp only [accessChecks, hc, hb, hr, if_true, hl]

theorem accessChecks_live (hc : commonCheck k p tag s = none) (hb : parseAccess body = some (h, a, n, rest))
    (hr : s.resolves p h = true) (hl : (s.lease h.slot).live? = some t) :
    accessChecks k p tag body s = .ok (t, a, n, rest) := by
  simp only [accessChecks, hc, hb, hr, if_true, hl]

theorem takeRead_error (h : readChecks p tag body s = .error r) : takeRead p tag body s = answer p .read tag r .empty s := by
  simp only [takeRead, h, settle]

theorem takeWrite_error (h : writeChecks p tag body s = .error r) : takeWrite p tag body s = answer p .write tag r .empty s := by
  simp only [takeWrite, h, settle]

theorem readChecks_error (h : accessChecks .read p tag body s = .error r) : readChecks p tag body s = .error r := by
  simp only [readChecks, h]

theorem writeChecks_error (h : accessChecks .write p tag body s = .error r) : writeChecks p tag body s = .error r := by
  simp only [writeChecks, h]

/-- A length out of range, or a range outside the span (R96 and R98, steps 7 and 8). -/
def Outside (t : Tenure) (a n : Nat) : Prop :=
  n = 0 ∨ 256 < n ∨ a < t.span.first * 512 ∨ (t.span.first + t.span.count) * 512 < a + n

theorem outside_iff : Outside t a n ↔ ¬(1 ≤ n ∧ n ≤ 256) ∨ withinSpan t.span a n = false := by
  rw [Outside, withinSpan, Bool.and_eq_false_iff, decide_eq_false_iff_not, decide_eq_false_iff_not, Nat.not_le, Nat.not_le]
  show _ ↔ _ ∨ a < t.span.first * 512 ∨ (t.span.first + t.span.count) * 512 < a + n
  omega

/-- READ's last checks under a live lease (R96). -/
theorem readChecks_live (ha : accessChecks .read p tag body s = .ok (t, a, n, rest)) :
    (Outside t a n ∨ rest ≠ [] → readChecks p tag body s = .error .range) ∧
      (¬Outside t a n → rest = [] → readChecks p tag body s = .ok (a, n)) := by
  rw [outside_iff]
  simp only [readChecks, ha]
  refine ⟨fun h => ?_, fun ho hr => ?_⟩
  · by_cases hlen : ¬(1 ≤ n ∧ n ≤ 256) ∨ ¬rest.isEmpty = true
    · rw [if_pos hlen]
    · have inside : withinSpan t.span a n = false := by
        simp only [not_or, not_not, List.isEmpty_iff] at hlen
        rcases h with (h | h) | h
        · exact absurd hlen.1 h
        · exact h
        · exact absurd hlen.2 h
      rw [if_neg hlen, inside]
      rfl
  · simp only [not_or, not_not, Bool.not_eq_false] at ho
    simp [ho, hr]

/-- WRITE's last checks under a live lease (R98). -/
theorem writeChecks_live (ha : accessChecks .write p tag body s = .ok (t, a, n, rest)) :
    (t.mode = .shared → writeChecks p tag body s = .error .mode) ∧
      (t.mode = .exclusive → Outside t a n ∨ rest.length ≠ n → writeChecks p tag body s = .error .range) ∧
      (t.mode = .exclusive → ¬Outside t a n → rest.length = n → writeChecks p tag body s = .ok (t.grant, a, rest)) := by
  rw [outside_iff]
  simp only [writeChecks, ha]
  refine ⟨fun hm => by simp [hm], fun hm h => ?_, fun hm ho hr => ?_⟩ <;> rw [if_neg (by simp [hm])]
  · by_cases hlen : ¬(1 ≤ n ∧ n ≤ 256) ∨ rest.length ≠ n
    · rw [if_pos hlen]
    · have inside : withinSpan t.span a n = false := by
        simp only [not_or, not_not] at hlen
        rcases h with (h | h) | h
        · exact absurd hlen.1 h
        · exact h
        · exact absurd hlen.2 h
      rw [if_neg hlen, inside]
      rfl
  · simp only [not_or, not_not, Bool.not_eq_false] at ho
    simp [ho, hr]

section

variable (more : List Byte)

theorem length_readBody_append : (readBody h a n ++ more).length = 8 + more.length := by simp

/-- A READ whose frame is taken, refused by its checks. -/
theorem exec_read_error (hw : working s p tag = true) (hm : more.length ≤ 264)
    (hr : readChecks p tag (readBody h a n ++ more) (afterPush s p (14 + more.length)) = .error r) :
    exec (.read p tag (readBody h a n ++ more)) s = .next (answer p .read tag r .empty (afterPush s p (14 + more.length))) := by
  have len := length_readBody_append (h := h) (a := a) (n := n) more
  refine (exec_working (k := .read) hw (by decide) (by omega)).1.trans (congrArg Host.Outcome.next ?_)
  rw [len, ← Nat.add_assoc]
  exact takeRead_error hr

/-- A WRITE whose frame is taken, refused by its checks. -/
theorem exec_write_error (hw : working s p tag = true) (hm : more.length ≤ 264)
    (hr : writeChecks p tag (readBody h a n ++ more) (afterPush s p (14 + more.length)) = .error r) :
    exec (.write p tag (readBody h a n ++ more)) s = .next (answer p .write tag r .empty (afterPush s p (14 + more.length))) := by
  have len := length_readBody_append (h := h) (a := a) (n := n) more
  refine (exec_working (k := .write) hw (by decide) (by omega)).1.trans (congrArg Host.Outcome.next ?_)
  rw [len, ← Nat.add_assoc]
  exact takeWrite_error hr

end

end

/-- Settles O34: the handle is checked first, then the lease's state, its mode for a WRITE, and the lengths and the range last. -/
theorem accessesRefused : Obligations.AccessesRefused := by
  intro p tag h a n bs s hw ha hn hb read write outside
  have common : ∀ k ∈ [Kind.read, .write], ∀ m, commonCheck k p tag (afterPush s p m) = none := fun k hk m =>
    (commonCheck_afterPush k tag m).trans (commonCheck_working k tag hw (by revert k; decide))
  have readRefused : ∀ {r}, readChecks p tag (readBody h a n) (afterPush s p 14) = .error r → read r := fun hr => by
    have := exec_read_error (h := h) (a := a) (n := n) [] hw (by simp) (by simpa using hr)
    simpa using this
  have writeRefused : ∀ {r}, writeChecks p tag (writeBody h a bs) (afterPush s p (14 + bs.length)) = .error r → write r :=
    fun hr => exec_write_error bs hw hb hr
  have fields := parseAccess_readBody h ha hn
  have extended := parseAccess_readBody_append h ha hn bs
  have written := parseAccess_writeBody h ha (show bs.length < 65536 by omega)
  refine ⟨fun stale => ⟨readRefused (readChecks_error ?_), writeRefused (writeChecks_error ?_)⟩,
    fun resolves => ⟨fun t c x hl => ⟨readRefused (readChecks_error ?_), writeRefused (writeChecks_error ?_)⟩, fun t live => ?_⟩⟩
  · exact accessChecks_stale (common .read (by decide) _) fields stale
  · exact accessChecks_stale (common .write (by decide) _) written stale
  · exact accessChecks_tombstone (common .read (by decide) _) fields resolves (by rw [afterPush_lease, hl]; rfl)
  · exact accessChecks_tombstone (common .write (by decide) _) written resolves (by rw [afterPush_lease, hl]; rfl)
  · have readAccess : accessChecks .read p tag (readBody h a n) (afterPush s p 14) = .ok (t, a, n, []) :=
      accessChecks_live (common .read (by decide) _) fields resolves live
    have longAccess : accessChecks .read p tag (readBody h a n ++ bs) (afterPush s p (14 + bs.length)) = .ok (t, a, n, bs) :=
      accessChecks_live (common .read (by decide) _) extended resolves live
    have writeAccess : accessChecks .write p tag (writeBody h a bs) (afterPush s p (14 + bs.length)) =
        .ok (t, a, bs.length, bs) :=
      accessChecks_live (common .write (by decide) _) written resolves live
    have mismatched : accessChecks .write p tag (readBody h a n ++ bs) (afterPush s p (14 + bs.length)) = .ok (t, a, n, bs) :=
      accessChecks_live (common .write (by decide) _) extended resolves live
    exact ⟨fun ho => readRefused ((readChecks_live readAccess).1 (.inl ho)),
      fun hne => exec_read_error bs hw hb ((readChecks_live longAccess).1 (.inr hne)),
      fun hm => writeRefused ((writeChecks_live writeAccess).1 hm),
      fun hm ho => writeRefused ((writeChecks_live writeAccess).2.1 hm (.inl ho)),
      fun hm hne => exec_write_error bs hw hb ((writeChecks_live mismatched).2.1 hm (.inr (Ne.symm hne)))⟩

/-- Settles O32: what the READ that passes its checks answers with. -/
theorem readReturnsBytesAndStamp : Obligations.ReadReturnsBytesAndStamp := by
  intro p tag i t a n s hw live hp h1 h256 ha hlow hhigh
  obtain ⟨run, common⟩ := exec_working (k := .read) (body := readBody (s.handleOf i) a n) hw (by decide) (by simp)
  rw [length_readBody] at run common
  have resolves : (afterPush s p 14).resolves p (s.handleOf i) = true :=
    resolves_of_tenure (LeaseState.tenure?_of_live? live) hp
  have access : accessChecks .read p tag (readBody (s.handleOf i) a n) (afterPush s p 14) = .ok (t, a, n, []) :=
    accessChecks_live common (parseAccess_readBody _ ha (by omega)) resolves live
  have checks := (readChecks_live access).2 (by unfold Outside; omega) rfl
  have touched : ∀ x, a ≤ x → x < a + n → x / 512 ∈ touchedBlocks a n := fun x hx hxn =>
    (mem_touchedBlocks a n _).2 ⟨x, hx, hxn, rfl⟩
  refine ⟨largestStamp s.stamps (touchedBlocks a n), readBytes s.array a n, run.trans (congrArg Host.Outcome.next ?_),
    length_readBytes _ _ _, fun k hk => getElem?_readBytes _ _ _ _ hk, fun x hx hxn => le_largestStamp _ _ _ (touched x hx hxn), ?_⟩
  · simp only [takeKind, takeRead, checks, settle, readEffect, afterPush_stamps, afterPush_array]
  · refine (largestStamp_cases s.stamps (touchedBlocks a n)).imp id fun ⟨b, hb, hs⟩ => ?_
    obtain ⟨x, hx, hxn, rfl⟩ := (mem_touchedBlocks a n b).1 hb
    exact ⟨x, hx, hxn, hs⟩

/-- The blocks touched are those from the first byte's to the last byte's. -/
theorem mem_touchedBlocks_iff {a n b : Nat} (hn : 1 ≤ n) : b ∈ touchedBlocks a n ↔ a / 512 ≤ b ∧ b ≤ (a + n - 1) / 512 := by
  rw [mem_touchedBlocks]
  constructor
  · rintro ⟨x, hx, hxn, rfl⟩
    omega
  · rintro ⟨hlow, hhigh⟩
    by_cases hb : a / 512 = b
    · exact ⟨a, by omega, by omega, hb⟩
    · exact ⟨b * 512, by omega, by omega, by omega⟩

/-- Settles O33: what the WRITE that passes its checks stores and stamps. -/
theorem writeStoresAndStamps : Obligations.WriteStoresAndStamps := by
  intro p tag i t a bs s hw live hp hm hv h1 h256 hlow hhigh hwf
  have bounds : t.span.first + t.span.count ≤ 512 := by
    simp only [Span.valid, Bool.and_eq_true, decide_eq_true_eq] at hv
    exact hv.2
  obtain ⟨run, common⟩ := exec_working (k := .write) (body := writeBody (s.handleOf i) a bs) hw (by decide) (by simp; omega)
  rw [length_writeBody, ← Nat.add_assoc] at run common
  have resolves : (afterPush s p (14 + bs.length)).resolves p (s.handleOf i) = true :=
    resolves_of_tenure (LeaseState.tenure?_of_live? live) hp
  have access : accessChecks .write p tag (writeBody (s.handleOf i) a bs) (afterPush s p (14 + bs.length)) =
      .ok (t, a, bs.length, bs) :=
    accessChecks_live common (parseAccess_writeBody _ (by omega) (by omega)) resolves live
  have checks := (writeChecks_live access).2.2 hm (by unfold Outside; omega) rfl
  refine ⟨writeBytes s.array a bs, stampBlocks s.stamps t.grant (touchedBlocks a bs.length),
    run.trans (congrArg Host.Outcome.next ?_), fun k hk => readByte_writeBytes _ _ _ _ hwf hk,
    fun x hx => readByte_writeBytes_of_outside _ _ _ _ hx, fun b => ?_⟩
  · simp only [takeKind, takeWrite, checks, settle]
    rfl
  · have touched := mem_touchedBlocks_iff (a := a) (b := b) h1
    rw [stampAt_stampBlocks]
    exact if_congr ⟨fun hb => touched.1 hb.1, fun hb => ⟨touched.2 hb, by omega⟩⟩ rfl rfl

/-! ### Notices, tombstones and views -/

/-- Settles O35: the list is cut at the count, and the front of it is the answer. -/
theorem takeNoticesReturnsOldest : Obligations.TakeNoticesReturnsOldest := by
  intro p tag n s hc
  obtain ⟨run, common⟩ := exec_collecting (k := .takeNotices) (body := [n]) hc (by decide) (by simp)
  have checks : takeNoticesChecks p tag [n] (afterPush s p 7) =
      if 1 ≤ n.toNat ∧ n.toNat ≤ 16 then .ok n.toNat else .error .range := by
    have common : commonCheck .takeNotices p tag (afterPush s p 7) = none := common
    simp only [takeNoticesChecks, common, parseByte]
  refine ⟨fun h1 h16 => ⟨(s.port p).notices.take n.toNat, (s.port p).notices.drop n.toNat, (List.take_append_drop _ _).symm,
    List.length_take, run.trans (congrArg Host.Outcome.next ?_)⟩, fun hn => run.trans (congrArg Host.Outcome.next ?_)⟩
  · show settle _ p tag (takeNoticesChecks p tag [n] (afterPush s p 7)) _ _ = _
    rw [checks, if_pos ⟨h1, h16⟩]
    simp only [settle, takeNoticesEffect, afterPush_port_self]
    congr 1
    exact State.modifyPort_congr _ _ _ (by simp)
  · show settle _ p tag (takeNoticesChecks p tag [n] (afterPush s p 7)) _ _ = _
    have out : ¬(1 ≤ n.toNat ∧ n.toNat ≤ 16) := by
      rcases hn with rfl | hn
      · simp
      · omega
    rw [checks, if_neg out]
    rfl

/-- Settles O36: by the state of the record that the handle resolves to. -/
theorem ackRevokedFreesTombstone : Obligations.AckRevokedFreesTombstone := by
  intro p tag h s hc run
  obtain ⟨runs, common⟩ := exec_collecting (k := .ackRevoked) (body := handleBody h) hc (by decide) (by simp)
  have handle := handleChecks_body (h := h) common
  have settled : ∀ u, settle .ackRevoked p tag (ackRevokedChecks p tag (handleBody h) (afterPush s p 8)) (ackRevokedEffect p tag)
      (afterPush s p 8) = u → run = .next u := fun u hu => runs.trans (congrArg Host.Outcome.next hu)
  refine ⟨fun t c k hr hl => settled _ ?_, fun t hr live => settled _ ?_, fun hr => settled _ ?_⟩
  · have hl' : (afterPush s p 8).lease h.slot = .revoked t c k := hl
    have handle' : handleChecks .ackRevoked p tag (handleBody h) (afterPush s p 8) = .ok h.slot := handle.trans (if_pos hr)
    simp only [ackRevokedChecks, handle', hl', settle]
    rfl
  · have live' : ((afterPush s p 8).lease h.slot).live? = some t := live
    have handle' : handleChecks .ackRevoked p tag (handleBody h) (afterPush s p 8) = .ok h.slot := handle.trans (if_pos hr)
    simp only [ackRevokedChecks, handle']
    cases hl : (afterPush s p 8).lease h.slot with
    | free => rw [hl] at live'; cases live'
    | revoked => rw [hl] at live'; cases live'
    | granted => rfl
    | recalling => rfl
  · have handle' : handleChecks .ackRevoked p tag (handleBody h) (afterPush s p 8) = .error .badHandle :=
      handle.trans (if_neg (by simp [hr]))
    simp only [ackRevokedChecks, handle', settle]

/-- Settles O31: the view is of the record as it stands, and its stamp the largest over the span. -/
theorem queryShowsTheRecord : Obligations.QueryShowsTheRecord := by
  intro p tag h s hc
  obtain ⟨run, common⟩ := exec_collecting (k := .query) (body := handleBody h) hc (by decide) (by simp)
  have handle := handleChecks_body (h := h) common
  refine ⟨fun t hr ht => ⟨spanStampOf s.stamps t.span, run.trans (congrArg Host.Outcome.next ?_), fun b h1 h2 =>
    le_largestStamp _ _ _ ((mem_spanBlocks _ _).2 ⟨h1, h2⟩), ?_⟩, fun hr => run.trans (congrArg Host.Outcome.next ?_)⟩
  · have handle' : handleChecks .query p tag (handleBody h) (afterPush s p 8) = .ok h.slot := handle.trans (if_pos hr)
    have named : (afterPush s p 8).handleOf h.slot = h := handleOf_of_resolves hr
    have tenure : ((afterPush s p 8).lease h.slot).tenure? = some t := ht
    simp only [takeKind, takeQuery, length_handleBody, handle', settle, queryEffect, tenure, named]
    rfl
  · refine (largestStamp_cases s.stamps (spanBlocks t.span)).imp id fun ⟨b, hb, hs⟩ => ?_
    obtain ⟨h1, h2⟩ := (mem_spanBlocks _ _).1 hb
    exact ⟨b, h1, h2, hs⟩
  · have handle' : handleChecks .query p tag (handleBody h) (afterPush s p 8) = .error .badHandle :=
      handle.trans (if_neg (by simp [hr]))
    simp only [takeKind, takeQuery, length_handleBody, handle', settle]

end

end Sys2Proof.Machine
end

section
/-!
PROOFS. The lease requests: ACQUIRE, UPGRADE, DOWNGRADE, RENEW, RELEASE and CANCEL (chapters 2 and 3).
-/

namespace Sys2Proof.Machine

section

variable {s : State} {p : Port} {tag : Tag} {k : Kind}

/-! ### Clamping, and what the checks look at -/

theorem clampWait_eq_min (ps : Params) (limit : Nat) : ps.clampWait limit = min limit ps.maxWait := by
  unfold Params.clampWait
  split <;> omega

theorem grantableNow_afterPush (m : Nat) (ms : List ModeSpan) :
    grantableNow p ms (afterPush s p m) = grantableNow p ms s := rfl

/-- Holders-off are found by what the records confer alone. -/
theorem holdersOff_congr {u : State} (h : ∀ i, (u.lease i).live? = (s.lease i).live?) (q : Port) (ms : List ModeSpan) :
    u.holdersOff q ms = s.holdersOff q ms := by
  simp only [State.holdersOff, h]

/-! ### A request that waits or is refused (R23, R53) -/

section

variable {c : Claim} {wait : Nat}

theorem waitOrRefuse_conflict : waitOrRefuse k p tag c 0 s = answer p k tag .conflict .empty s := rfl

theorem waitOrRefuse_busy (hw : 0 < wait) (h : s.admissionSource? p = none ∨ s.freeIndex? = none) :
    waitOrRefuse k p tag c wait s = answer p k tag .tableBusy .empty s := by
  unfold waitOrRefuse
  rw [if_neg (by omega)]
  split
  · rename_i hs hx
    rcases h with h | h
    · cases h.symm.trans hs
    · cases h.symm.trans hx
  · rfl

/-- A request that finds a place becomes a waiting entry, which is judged against every earlier one. -/
theorem waitOrRefuse_waits {src : Source} {x : EntryIndex} (hw : 0 < wait) (hs : s.admissionSource? p = some src)
    (hx : s.freeIndex? = some x) {e : Entry}
    (he : e = { index := x, port := p, tag := tag, claim := c, waitDeadline := s.after wait, source := src }) :
    waitOrRefuse k p tag c wait s =
      if blockedBy s.waiting p c.spans then admitEntry e s
      else beginRecalls ((admitEntry e s).holdersOff p c.spans) (admitEntry e s) := by
  have others : ∀ a ∈ s.waiting, a.index ≠ e.index := by
    rw [he]
    exact freeIndex?_some s hx
  have judged := judgeNew_tail (admitEntry e s) e (waiting_admitEntry s e) others
  unfold waitOrRefuse
  rw [if_neg (by omega), hs, hx]
  rw [he] at judged ⊢
  exact judged

end

/-! ### ACQUIRE -/

section

variable {a : AcquireRequest}

/-- An ACQUIRE that is acquirable passes its checks, with its term and wait limit clamped. -/
theorem acquireChecks_pass (hc : commonCheck .acquire p tag s = none) (h : acquirable s p a.spans = true)
    (ht : a.term < 4294967296) (hw : a.wait < 4294967296) :
    acquireChecks p tag (acquireBody a) s =
      .ok { a with term := s.params.clampTerm a.term, wait := s.params.clampWait a.wait } := by
  simp only [acquirable, Bool.and_eq_true, decide_eq_true_eq, List.all_eq_true, Bool.not_eq_true'] at h
  obtain ⟨⟨⟨⟨⟨least, most⟩, valid⟩, apart⟩, quota⟩, supply⟩ := h
  simp only [acquireChecks, hc, parseAcquire_acquireBody a ht hw least most valid, apart, Bool.false_eq_true, if_false,
    if_neg (Nat.not_lt.2 quota), State.canSupply, decide_eq_true supply, Bool.not_true]

/-- An acquirable ACQUIRE that is taken. -/
theorem exec_acquire (hw : working s p tag = true) (h : acquirable s p a.spans = true) (ht : a.term < 4294967296)
    (hl : a.wait < 4294967296) :
    exec (.acquire p tag (acquireBody a)) s = .next (acquireEffect p tag
      { a with term := s.params.clampTerm a.term, wait := s.params.clampWait a.wait } (afterPush s p (15 + 4 * a.spans.length))) := by
  have most : a.spans.length ≤ 4 := by
    simp only [acquirable, Bool.and_eq_true, decide_eq_true_eq] at h
    exact h.1.1.1.1.2
  have len := length_acquireBody a
  obtain ⟨run, common⟩ := exec_working (k := .acquire) hw (by decide) (show (acquireBody a).length ≤ 272 by omega)
  rw [len, ← Nat.add_assoc] at run common
  have checks := acquireChecks_pass common (show acquirable (afterPush s p _) p a.spans = true from h) ht hl
  refine run.trans (congrArg Host.Outcome.next ?_)
  simp only [takeKind, takeAcquire, checks, settle]
  rfl

end

/-- Settles O22: no span conflicts with an entry or another port's lease, so the request is grantable now. -/
theorem acquireGrantsAtOnce : Obligations.AcquireGrantsAtOnce := by
  intro p tag a s hw h ht hl entries leases term r
  have blocked : blockedBy s.waiting p a.spans = false := by
    simpa [blockedBy, anyConflict] using entries
  have grantable : grantableNow p a.spans s = true := by
    simp [grantableNow, blocked, holdersOff_eq_nil.2 leases]
  refine (exec_acquire hw h ht hl).trans (congrArg Host.Outcome.next ?_)
  rw [acquireEffect, grantableNow_afterPush, grantable]
  rfl

/-- Settles O23: the wait limit, then the Request Table, then the list decide. -/
theorem acquireWaitsOrIsRefused : Obligations.AcquireWaitsOrIsRefused := by
  intro p tag a s hw h ht hl hg term wait now run
  have settled : run = .next (waitOrRefuse .acquire p tag (.acquire a.spans term) wait now) := by
    refine (exec_acquire hw h ht hl).trans (congrArg Host.Outcome.next ?_)
    rw [acquireEffect, grantableNow_afterPush, hg, clampWait_eq_min]
    rfl
  rw [settled]
  refine ⟨fun h0 => by rw [h0, waitOrRefuse_conflict], fun hpos full => congrArg Host.Outcome.next (waitOrRefuse_busy hpos full),
    fun src x hpos hsrc hx => ?_⟩
  intro e admitted
  have waits := waitOrRefuse_waits (k := .acquire) (s := now) hpos hsrc hx (e := e) rfl
  rw [waits]
  refine ⟨fun hb => ?_, fun hb => ?_⟩
  · exact congrArg Host.Outcome.next (if_pos hb)
  · exact congrArg Host.Outcome.next (if_neg (ne_true_of_eq_false hb))

/-- Settles O24: each check is looked at where the ones before it pass. -/
theorem acquireChecksInOrder : Obligations.AcquireChecksInOrder := by
  intro p tag body s hw hb refused
  obtain ⟨run, common⟩ := exec_working (k := .acquire) hw (by decide) hb
  have refuses : ∀ {r}, acquireChecks p tag body (afterPush s p (6 + body.length)) = .error r → refused r := fun hr => by
    refine run.trans (congrArg Host.Outcome.next ?_)
    simp only [takeKind, takeAcquire, hr, settle]
  refine ⟨fun hn => refuses ?_, fun a ha => ⟨fun ho => refuses ?_, fun ho => ⟨fun hq => refuses ?_, fun hq hx => refuses ?_⟩⟩⟩
  · simp only [acquireChecks, common, hn]
  · simp only [acquireChecks, common, ha]
    exact if_pos ho
  · simp only [acquireChecks, common, ha]
    exact (if_neg (ne_true_of_eq_false ho)).trans (if_pos hq)
  · simp only [acquireChecks, common, ha]
    have short : (afterPush s p (6 + body.length)).canSupply a.spans.length = false := decide_eq_false (Nat.not_le.2 hx)
    exact (if_neg (ne_true_of_eq_false ho)).trans ((if_neg (Nat.not_lt.2 hq)).trans (if_pos (by rw [short]; rfl)))

/-! ### The holding requests' handle step (R47) -/

section

variable {h : Handle} {n : Nat}

/-- A RENEW or UPGRADE with a handle and a number in its body, taken from a JOINED port in RUN. -/
theorem exec_handleNumber (hw : working s p tag = true) (hk : k ∈ [Kind.renew, .upgrade]) (hn : n < 4294967296) :
    exec (commandOf k p tag (handleNumberBody h n)) s =
        .next (takeKind k p tag (handleNumberBody h n) (afterPush s p 12)) ∧
      handleNumberChecks k p tag (handleNumberBody h n) (afterPush s p 12) =
        if s.resolves p h then .ok (h.slot, n) else .error .badHandle := by
  obtain ⟨run, common⟩ := exec_working (k := k) (body := handleNumberBody h n) hw (by revert k; decide) (by simp)
  exact ⟨run, handleNumberChecks_body common hn⟩

/-- A DOWNGRADE or RELEASE with a handle in its body, taken from a JOINED port in RUN. -/
theorem exec_handle (hw : working s p tag = true) (hk : k ∈ [Kind.downgrade, .release]) :
    exec (commandOf k p tag (handleBody h)) s = .next (takeKind k p tag (handleBody h) (afterPush s p 8)) ∧
      handleChecks k p tag (handleBody h) (afterPush s p 8) = if s.resolves p h then .ok h.slot else .error .badHandle := by
  obtain ⟨run, common⟩ := exec_working (k := k) (body := handleBody h) hw (by revert k; decide) (by simp)
  exact ⟨run, handleChecks_body common⟩

variable {r : Result} {m : Nat} {body : List Byte}

theorem takeRenew_error (h : renewChecks p tag body s = .error r) : takeRenew p tag body s = answer p .renew tag r .empty s := by
  simp only [takeRenew, h, settle]

theorem takeUpgrade_error (h : upgradeChecks p tag body s = .error r) :
    takeUpgrade p tag body s = answer p .upgrade tag r .empty s := by
  simp only [takeUpgrade, h, settle]

theorem takeDowngrade_error (h : downgradeChecks p tag body s = .error r) :
    takeDowngrade p tag body s = answer p .downgrade tag r .empty s := by
  simp only [takeDowngrade, h, settle]

theorem takeRelease_error (h : releaseChecks p tag body s = .error r) :
    takeRelease p tag body s = answer p .release tag r .empty s := by
  simp only [takeRelease, h, settle]

end

variable {i : Slot} {t : Tenure} {d : Tick} {w : Option Tick} {u : Option Tag}

/-- Settles O29: the handle is resolved first, then the record's state, then the lease's mode, its upgrade and the counter. -/
theorem holdingRequestsRefused : Obligations.HoldingRequestsRefused := by
  intro p tag h n s hw hn upgrade downgrade refused release
  obtain ⟨renewRuns, renewHandle⟩ := exec_handleNumber (k := .renew) (h := h) hw (by decide) hn
  obtain ⟨upgradeRuns, upgradeHandle⟩ := exec_handleNumber (k := .upgrade) (h := h) hw (by decide) hn
  obtain ⟨downgradeRuns, downgradeHandle⟩ := exec_handle (k := .downgrade) (h := h) hw (by decide)
  obtain ⟨releaseRuns, releaseHandle⟩ := exec_handle (k := .release) (h := h) hw (by decide)
  have upgraded : ∀ {r}, upgradeChecks p tag (handleNumberBody h n) (afterPush s p 12) = .error r → upgrade r := fun hr =>
    upgradeRuns.trans (congrArg Host.Outcome.next (takeUpgrade_error hr))
  have downgraded : ∀ {r}, downgradeChecks p tag (handleBody h) (afterPush s p 8) = .error r → downgrade r := fun hr =>
    downgradeRuns.trans (congrArg Host.Outcome.next (takeDowngrade_error hr))
  have released : ∀ {r}, releaseChecks p tag (handleBody h) (afterPush s p 8) = .error r → release r := fun hr =>
    releaseRuns.trans (congrArg Host.Outcome.next (takeRelease_error hr))
  have all : ∀ {r}, renewChecks p tag (handleNumberBody h n) (afterPush s p 12) = .error r →
      upgradeChecks p tag (handleNumberBody h n) (afterPush s p 12) = .error r →
      downgradeChecks p tag (handleBody h) (afterPush s p 8) = .error r → refused r := fun hr hu hd =>
    ⟨renewRuns.trans (congrArg Host.Outcome.next (takeRenew_error hr)), upgraded hu, downgraded hd⟩
  refine ⟨fun hr => ?_, fun hr => ?_⟩ <;>
    simp only [hr, Bool.false_eq_true, if_false, if_true] at renewHandle upgradeHandle downgradeHandle releaseHandle
  · exact ⟨all (by simp only [renewChecks, renewHandle]) (by simp only [upgradeChecks, upgradeHandle])
      (by simp only [downgradeChecks, downgradeHandle]), released (by simp only [releaseChecks, releaseHandle])⟩
  · refine ⟨fun t c k hl => ⟨all ?_ ?_ ?_, released ?_⟩, fun t d w k hl => all ?_ ?_ ?_, fun t d w u hl =>
      ⟨fun hm => upgraded ?_, fun hm => ⟨downgraded ?_, fun hu => upgraded ?_, fun hu hx => upgraded ?_⟩⟩⟩
    · simp only [renewChecks, renewHandle, afterPush_lease, hl]
    · simp only [upgradeChecks, upgradeHandle, afterPush_lease, hl]
    · simp only [downgradeChecks, downgradeHandle, afterPush_lease, hl]
    · simp only [releaseChecks, releaseHandle, afterPush_lease, hl]
    · simp only [renewChecks, renewHandle, afterPush_lease, hl]
    · simp only [upgradeChecks, upgradeHandle, afterPush_lease, hl]
    · simp only [downgradeChecks, downgradeHandle, afterPush_lease, hl]
    · simp [upgradeChecks, upgradeHandle, hl, hm]
    · simp [downgradeChecks, downgradeHandle, hl, hm]
    · have pending : u.isSome = true := Option.isSome_iff_ne_none.2 hu
      simp [upgradeChecks, upgradeHandle, hl, hm, pending]
    · have short : (afterPush s p 12).canSupply 1 = false := decide_eq_false (Nat.not_le.2 hx)
      simp [upgradeChecks, upgradeHandle, hl, hm, hu, short]

/-! ### UPGRADE -/

/-- An UPGRADE of a GRANTED SHARED lease with no pending upgrade passes its checks (R52). -/
theorem exec_upgrade {limit : Nat} (hw : working s p tag = true) (hl : s.lease i = .granted t d w none) (hp : t.port = p)
    (hm : t.mode = .shared) (hc : s.grantCounter + 1 ≤ Config.maxGrant) (hn : limit < 4294967296) :
    exec (.upgrade p tag (handleNumberBody (s.handleOf i) limit)) s =
      .next (upgradeEffect p tag (i, t, s.params.clampWait limit) (afterPush s p 12)) := by
  obtain ⟨run, handle⟩ := exec_handleNumber (k := .upgrade) (h := s.handleOf i) hw (by decide) hn
  rw [resolves_of_tenure (by rw [hl]; rfl) hp, if_pos rfl] at handle
  have supply : (afterPush s p 12).canSupply 1 = true := decide_eq_true hc
  have checks : upgradeChecks p tag (handleNumberBody (s.handleOf i) limit) (afterPush s p 12) =
      .ok (i, t, s.params.clampWait limit) := by
    simp [upgradeChecks, handle, hl, hm, supply]
  refine run.trans (congrArg Host.Outcome.next ?_)
  simp only [takeKind, takeUpgrade, checks, settle]

/-- An UPGRADE entry admitted: its tag becomes its lease's pending upgrade (R28, R54). -/
theorem admitEntry_upgrade {e : Entry} {sp : Span} (hl : s.lease i = .granted t d w u)
    (hc : e.claim = .upgrade (s.handleOf i) sp) :
    admitEntry e s = { s.setLease i (.granted t d w (some e.tag)) with waiting := s.waiting ++ [e] } := by
  have hl' : ({ s with waiting := s.waiting ++ [e] } : State).lease i = .granted t d w u := hl
  simp only [admitEntry, hc, State.handleOf_slot, hl']
  rfl

/-- A record's pending upgrade confers nothing. -/
theorem live?_setUpgrade (hl : s.lease i = .granted t d w u) (v : Option Tag) (j : Slot) :
    ((s.setLease i (.granted t d w v)).lease j).live? = (s.lease j).live? := by
  rw [State.lease_setLease]
  split
  · subst_vars
    rw [hl]
    rfl
  · rfl

/-- Settles O25: the list and the leases decide first, then the wait limit, then the Request Table. -/
theorem upgradeSettles : Obligations.UpgradeSettles := by
  intro p tag i t d w limit s hw hl hp hm hc hn wanted wait now run
  have hl' : now.lease i = .granted t d w none := hl
  have settled : run = _ := exec_upgrade hw hl hp hm hc hn
  refine ⟨fun hg => ?_, fun hg => ?_⟩
  · refine settled.trans (congrArg Host.Outcome.next ?_)
    have granted : upgradeEffect p tag (i, t, s.params.clampWait limit) now =
        answer p .upgrade tag .ok (upgradeBody i (upgradeRecord i now)) (upgradeRecord i now) := if_pos hg
    rw [granted, upgradeBody_granted hl', upgradeRecord_granted hl']
    rfl
  · have waits : run = .next (waitOrRefuse .upgrade p tag (.upgrade (s.handleOf i) t.span) wait now) := by
      refine settled.trans (congrArg Host.Outcome.next ?_)
      rw [clampWait_eq_min]
      exact if_neg (ne_true_of_eq_false hg)
    rw [waits]
    refine ⟨fun h0 => by rw [h0, waitOrRefuse_conflict], fun hpos full => congrArg Host.Outcome.next (waitOrRefuse_busy hpos full),
      fun src x hpos hsrc hx => ?_⟩
    intro e admitted
    have entered : admitEntry e now = admitted := admitEntry_upgrade hl' rfl
    have off : admitted.holdersOff p wanted = s.holdersOff p wanted :=
      holdersOff_congr (live?_setUpgrade hl' (some tag)) p wanted
    rw [waitOrRefuse_waits (k := .upgrade) (s := now) hpos hsrc hx (e := e) rfl, entered]
    refine ⟨fun hb => congrArg Host.Outcome.next (if_pos hb), fun hb => ?_⟩
    rw [← off]
    exact congrArg Host.Outcome.next (if_neg (ne_true_of_eq_false hb))

/-! ### DOWNGRADE, RENEW, RELEASE and CANCEL -/

/-- Settles O26: the record's mode alone changes, and the scan follows the answer. -/
theorem downgradeMakesShared : Obligations.DowngradeMakesShared := by
  intro p tag i t d w u s hw hl hp hm t'
  obtain ⟨run, handle⟩ := exec_handle (k := .downgrade) (h := s.handleOf i) hw (by decide)
  rw [resolves_of_tenure (by rw [hl]; rfl) hp, if_pos rfl] at handle
  have checks : downgradeChecks p tag (handleBody (s.handleOf i)) (afterPush s p 8) = .ok i := by
    simp [downgradeChecks, handle, hl, hm]
  have hl' : (afterPush s p 8).lease i = .granted t d w u := hl
  refine ⟨run.trans (congrArg Host.Outcome.next ?_), fun hq => grantScan_nil t' hq⟩
  simp only [takeKind, takeDowngrade, checks, settle, downgradeEffect, sharedRecord, hl']
  rfl

/-- Settles O27: the record's deadline and warning tick are set again, and its EXPIRING notice goes. -/
theorem renewSetsDeadline : Obligations.RenewSetsDeadline := by
  intro p tag i t d w u n s hw hl hp hn term deadline warning
  obtain ⟨run, handle⟩ := exec_handleNumber (k := .renew) (h := s.handleOf i) hw (by decide) hn
  rw [resolves_of_tenure (by rw [hl]; rfl) hp, if_pos rfl] at handle
  have checks : renewChecks p tag (handleNumberBody (s.handleOf i) n) (afterPush s p 12) = .ok (i, term) := by
    simp only [renewChecks, handle, State.handleOf_slot, afterPush_lease, hl]
    rfl
  have hl' : (afterPush s p 12).lease i = .granted t d w u := hl
  refine run.trans (congrArg Host.Outcome.next ?_)
  simp only [takeKind, takeRenew, checks, settle, renewEffect, renewedRecord, hl']
  rfl

/-- A RELEASE of a live lease passes its checks (R60). -/
theorem exec_release (hw : working s p tag = true) (hl : (s.lease i).live? = some t) (hp : t.port = p) :
    exec (.release p tag (handleBody (s.handleOf i))) s = .next (releaseEffect p tag i (afterPush s p 8)) := by
  obtain ⟨run, handle⟩ := exec_handle (k := .release) (h := s.handleOf i) hw (by decide)
  rw [resolves_of_tenure (LeaseState.tenure?_of_live? hl) hp, if_pos rfl] at handle
  have checks : releaseChecks p tag (handleBody (s.handleOf i)) (afterPush s p 8) = .ok i := by
    simp only [releaseChecks, handle, State.handleOf_slot, afterPush_lease]
    cases hs : s.lease i with
    | free => rw [hs] at hl; cases hl
    | revoked => rw [hs] at hl; cases hl
    | granted => rfl
    | recalling => rfl
  refine run.trans (congrArg Host.Outcome.next ?_)
  simp only [takeKind, takeRelease, checks, settle]

/-- Settles O28: a pending upgrade ends first, then the record and its notice go. -/
theorem releaseFreesTheRecord : Obligations.ReleaseFreesTheRecord := by
  intro p tag i t s hw hp run freed
  have settled : (s.lease i).live? = some t → run = .next (releaseEffect p tag i (afterPush s p 8)) := fun hl =>
    exec_release hw hl hp
  have effect : ∀ {v : State}, endUpgrade i .cancelled (afterPush s p 8) = v →
      releaseEffect p tag i (afterPush s p 8) = grantScan (freed v) := fun hv => by
    rw [releaseEffect, hv]
    rfl
  refine ⟨fun hl => ?_, fun d w named e sp hl he _ => ?_, fun hq => grantScan_nil _ hq⟩
  · rcases hl with ⟨d, w, hl⟩ | ⟨d, w, r, hl⟩
    · rw [settled (by rw [hl]; rfl), effect (endUpgrade_granted_none (afterPush s p 8) i .cancelled hl)]
    · rw [settled (by rw [hl]; rfl), effect (endUpgrade_recalling (afterPush s p 8) i .cancelled hl)]
  · rw [settled (by rw [hl]; rfl), effect (endUpgrade_pending (afterPush s p 8) i e .cancelled hl (by rw [hp]; exact he))]

/-- Settles O30: the entry with the tag named, if there is one, ends. -/
theorem cancelEndsTheEntry : Obligations.CancelEndsTheEntry := by
  intro p tag named s hw
  obtain ⟨run, common⟩ := exec_working (k := .cancel) (body := [named]) hw (by decide) (by simp)
  refine ⟨fun e he => run.trans (congrArg Host.Outcome.next ?_), fun hn => run.trans (congrArg Host.Outcome.next ?_)⟩
  · have he' : (afterPush s p (6 + [named].length)).entryWithTag? p named = some e := he
    simp only [takeKind, takeCancel, cancelChecks, common, parseByte, he', settle]
    rfl
  · have none : (afterPush s p (6 + [named].length)).entryWithTag? p named = none := by
      simpa [State.entryWithTag?] using hn
    simp only [takeKind, takeCancel, cancelChecks, common, parseByte, none, settle]
    rfl

end

end Sys2Proof.Machine
end
